-- ==== Sys2Proof/Word.lean ====
section
/-! DEFINITION. The data units of the block (R4, R30, R55) and the command as its pins carry it (R50, R51). -/

namespace Sys2Proof

/-- One byte of a stream, one lane of a register (R4, R30). -/
abbrev Byte := BitVec 8

/-- One pad word: the unit a draw returns (R4, R65). -/
abbrev Word64 := BitVec 64

/-- A command as the host presents it: format `C` is the one bit `cmd_op`, and beside it stand the two size
operands of format `Z` (R50, R51: "separate `LENW`-bit fields and are not packed with it"). A size is held here as
the number its pins spell, unsigned; `LENW` is a parameter (R5), so a pattern that does not fit in `LENW` bits can be
written down, and `decode` rejects it. -/
structure CmdWord where
  cmdOp   : BitVec 1
  inSize  : Nat
  padSize : Nat
  deriving DecidableEq, Repr

end Sys2Proof
end

