-- ==== Sys2Proof/Config.lean ====
section
/-! DEFINITION. What the spec fixes (R4), the default of what it leaves to the implementation (R5), and the free
values of the model (R141, R94). -/

namespace Sys2Proof.Config

/-- `WORD_BITS` (R4). -/
def wordBits : Nat := 64

/-- `BLOCK_BYTES` (R4). -/
def blockBytes : Nat := 8

/-- The least width of the length type that R5 allows. -/
def minLenw : Nat := 5

/-- The default of the OPEN parameter `LENW` (R5, D1). The parameter itself is `State.lenw`, so every statement over
all states holds for every `LENW`. -/
def defaultLenw : Nat := 32

/-- FREE VALUE (R141, U10; notes/assumptions/6.md): whether the other side performed the transaction that was
requested and not yet acknowledged when `rst` came. The argument is `State.free`, which every reset advances. It has
no body: nothing can be proved of its value. -/
opaque resetPerforms : Nat → Bool

/-- FREE VALUE (R94, U9; notes/assumptions/9.md): what `PADW` holds once an operation has ended. The argument is
`State.free`, which every end of an operation advances. It has no body: nothing can be proved of its value. -/
opaque padwAfterEnd : Nat → Word64

/-- FREE VALUE (R94, U9; notes/assumptions/9.md): what `BUF` holds once an operation has ended. -/
opaque bufAfterEnd : Nat → Word64

end Sys2Proof.Config
end

