-- ==== Sys2Proof/Syntax.lean ====
section
/-! DEFINITION. The whole command set (R51): two commands, each with its declared sizes as integers. -/

namespace Sys2Proof

/-- The two commands of the block (R51, R60). A size is the mathematical integer the operand stands for (00_scope.md
section 5.1): the declared size of `IN`, and in `DECRYPT` that of `PAD`. -/
inductive Instr where
  /-- `ENCRYPT in_size` (R100). `pad_size` is no operand of it (R58). -/
  | encrypt (inSize : Int)
  /-- `DECRYPT in_size, pad_size` (R110). -/
  | decrypt (inSize padSize : Int)
  deriving DecidableEq, Repr

end Sys2Proof
end

