-- ==== Sys2Proof/WellFormed.lean ====
section
/-! DEFINITION. Which commands can be carried by `LENW`-bit size operands (R53). -/

namespace Sys2Proof

/-- A value of format `Z`: an integer from `-2^(LENW-1)` to `2^(LENW-1) - 1` (R53). -/
def sizeFits (lenw : Nat) (n : Int) : Bool :=
  decide (-(2 : Int) ^ (lenw - 1) ≤ n) && decide (n < (2 : Int) ^ (lenw - 1))

/-- Every size operand of the command fits in `LENW` bits. A value `<= 0` is well formed: it is no illegal encoding
(R58), the validation gate rejects it (R85). -/
def Instr.wf (lenw : Nat) : Instr → Bool
  | .encrypt inSize => sizeFits lenw inSize
  | .decrypt inSize padSize => sizeFits lenw inSize && sizeFits lenw padSize

end Sys2Proof
end

