-- ==== Sys2Proof/Decode.lean ====
section
/-! DEFINITION. Reading a command from its pins and writing it to them (R50, R51, R53, R58). -/

namespace Sys2Proof

/-- Why a command cannot be read: its pins hold a pattern that `LENW` wires cannot carry. There is no other reason:
both values of `cmd_op` are defined (R58). -/
inductive DecodeError where
  /-- `in_size` is not a `LENW`-bit pattern. -/
  | inSizeTooWide
  /-- `pad_size` of a `DECRYPT` is not a `LENW`-bit pattern. -/
  | padSizeTooWide
  deriving DecidableEq, Repr

/-- The integer a `LENW`-bit pattern stands for: two's complement, signed (R53). -/
def sizeOfBits (lenw bits : Nat) : Int := (BitVec.ofNat lenw bits).toInt

/-- The `LENW`-bit pattern of an integer (R53). -/
def bitsOfSize (lenw : Nat) (n : Int) : Nat := (BitVec.ofInt lenw n).toNat

/-- The command on the pins (R51): `cmd_op` 0 is `ENCRYPT`, 1 is `DECRYPT`. `ENCRYPT` does not look at `pad_size`
(R58). -/
def decode (lenw : Nat) (c : CmdWord) : Except DecodeError Instr :=
  if c.inSize < 2 ^ lenw then
    if c.cmdOp = 0#1 then .ok (.encrypt (sizeOfBits lenw c.inSize))
    else if c.padSize < 2 ^ lenw then
      .ok (.decrypt (sizeOfBits lenw c.inSize) (sizeOfBits lenw c.padSize))
    else .error .padSizeTooWide
  else .error .inSizeTooWide

/-- The pins of a command (R51, R53). `pad_size` of an `ENCRYPT` may hold anything (R58); this encoder drives 0. -/
def encode (lenw : Nat) : Instr → CmdWord
  | .encrypt inSize => ⟨0#1, bitsOfSize lenw inSize, 0⟩
  | .decrypt inSize padSize => ⟨1#1, bitsOfSize lenw inSize, bitsOfSize lenw padSize⟩

/-- The pins that a word of spec/opcode_table.json stands for: bit 0 is `cmd_op`, the one bit the table's mask
selects (R51); the size operands have no bits in the table, so they are zeros. -/
def CmdWord.ofTableWord (nbits w : Nat) : CmdWord := ⟨BitVec.ofNat 1 (w % 2 ^ nbits), 0, 0⟩

/-- What the decoder reads from a word of the opcode table, at the default `LENW`. -/
def decodeTableWord (nbits w : Nat) : Option Instr :=
  (decode Config.defaultLenw (CmdWord.ofTableWord nbits w)).toOption

end Sys2Proof
end

