-- ==== Sys2Proof/Machine/State.lean ====
section
/-! DEFINITION. The state of a run: the block's registers (R11 to R17), the environment it reaches by transactions
(R19 to R22), the command pins (R24), what the outside does next (R97, R157), and the reasons a step can stop. -/

namespace Sys2Proof.Machine

/-- The two operations `OP` can hold (R14, R51). -/
inductive Op where
  | encrypt
  | decrypt
  deriving DecidableEq, Repr

/-- The phases of the sequencer (R16). `PH` is an enumeration, as R16 asks: its bits are not observable. -/
inductive Phase where
  | idle
  | validate
  | split
  | padget
  | padput
  | dataget
  | dataput
  | done
  deriving DecidableEq, Repr

/-- The three byte streams, each an address space of its own (R30). -/
inductive StreamId where
  | IN
  | OUT
  | PAD
  deriving DecidableEq, Repr

/-- The four failure kinds (R120). -/
inductive Failure where
  | invalidSize
  | sizeMismatch
  | shortRead
  | entropyUnavailable
  deriving DecidableEq, Repr

/-- The result of an operation: five values and no more (R17, R52, U12). -/
inductive Status where
  | ok
  | failed (kind : Failure)
  deriving DecidableEq, Repr

/-- An answer of the Pad Source to one draw (R62, R65). -/
inductive PsAnswer where
  | ok (word : Word64)
  | fail
  deriving DecidableEq, Repr

/-- How a stream endpoint acknowledges requests (R24, R150): every one at once, or only the next `k` and then none
until the outside changes it. `only 0` is an endpoint that does not answer: the block waits. -/
inductive Acks where
  | always
  | only (k : Nat)
  deriving DecidableEq, Repr

/-- One event of an operation's event history (R41). -/
inductive Event where
  | start (op : Op)
  | sizeQ (stream : StreamId) (value : Int)
  | draw (answer : PsAnswer)
  | read (stream : StreamId) (off n : Nat) (bytes : List Byte)
  | write (stream : StreamId) (off : Nat) (bytes : List Byte)
  | finish (status : Status)
  deriving DecidableEq, Repr

/-- One thing that happens at the block's boundary (R97, R157), or one transition of the block by itself. -/
inductive Input where
  /-- The block takes one transition of R90, and nothing happens outside. -/
  | tick
  /-- The host presents a command: it drives the command pins with it (R83). -/
  | present (c : CmdWord)
  /-- The host stops presenting its command (R84: a held command is accepted "if still presented"). -/
  | withdraw
  /-- `IN` holds these bytes from now on: the host opened it (R143), or another agent changed it (R42, R48). -/
  | putIn (bytes : List Byte)
  /-- The readable `PAD` holds these bytes from now on (R143, R42, R48). -/
  | putPad (bytes : List Byte)
  /-- The Pad Source has one more answer, in format `P`: `ps_ok` and `ps_word` (R62). -/
  | answer (psOk : BitVec 1) (psWord : Word64)
  /-- The read endpoint of `IN` acknowledges so from now on (R150, R157). -/
  | acksIn (a : Acks)
  /-- The read endpoint of `PAD` acknowledges so from now on. -/
  | acksPadRead (a : Acks)
  /-- The write endpoint of `PAD` acknowledges so from now on. -/
  | acksPadWrite (a : Acks)
  /-- The write endpoint of `OUT` acknowledges so from now on. -/
  | acksOut (a : Acks)
  /-- The host asserts `rst` (R140, R141). -/
  | rst
  deriving DecidableEq, Repr

/-- The state of a run (R10). -/
@[ext]
structure State where
  /-- `LENW`, the OPEN parameter (R5): the width of the signed length type. No step changes it. -/
  lenw       : Nat
  /-- `OP`, 1 bit (R14). -/
  op         : Op
  /-- `LEN`, `LENW` bits signed: the declared size of `IN` (R14). -/
  len        : Int
  /-- `PLEN`, `LENW` bits signed: the declared size of `PAD` in `DECRYPT` (R14). -/
  plen       : Int
  /-- `FB`, `LENW - 4` bits unsigned: the number of full blocks (R15). -/
  fb         : Nat
  /-- `REM`, 3 bits unsigned: the bytes of the partial block (R15). -/
  rem        : Fin 8
  /-- `PH`, the phase (R16). `BUSY` and `DONE` are functions of it (R17). -/
  ph         : Phase
  /-- `BLK`, `LENW - 3` bits unsigned: the block index (R16). -/
  blk        : Nat
  /-- `PADW`, 64 bits: the lanes of the current pad word that hold a value, lane 0 first (R11, R13). -/
  padw       : List Byte
  /-- `BUF`, 64 bits: the lanes of the data buffer that hold a value, lane 0 first (R12, R13). -/
  buf        : List Byte
  /-- `STATUS` (R17). -/
  status     : Status
  /-- `content(IN)` (R19). -/
  inContent  : List Byte
  /-- `rc(IN)`, its read cursor (R19). -/
  inRc       : Nat
  /-- `content(PAD)`, the pad stream that `DECRYPT` reads (R19, R21). -/
  padContent : List Byte
  /-- `rc(PAD)` (R19). -/
  padRc      : Nat
  /-- `written(PAD)`: what `ENCRYPT` wrote to `PAD` in this operation (R20). -/
  padWritten : List Byte
  /-- `written(OUT)`: what this operation wrote to `OUT` (R20). -/
  outWritten : List Byte
  /-- The answers the Pad Source has ready, in draw order (R22, R66). None left: a draw is not answered (R150). -/
  psAnswers  : List PsAnswer
  /-- How the read endpoint of `IN` acknowledges (R150). -/
  inAcks     : Acks
  /-- How the read endpoint of `PAD` acknowledges. -/
  padRdAcks  : Acks
  /-- How the write endpoint of `PAD` acknowledges. -/
  padWrAcks  : Acks
  /-- How the write endpoint of `OUT` acknowledges. -/
  outAcks    : Acks
  /-- The command the host is presenting: `cmd_valid` with `cmd_op`, `in_size`, `pad_size` (R24). -/
  cmd        : Option CmdWord
  /-- What happens next at the boundary, in order; none left: the block runs as far as it can (notes/assumptions/4.md). -/
  inputs     : List Input
  /-- The event history of the latest operation (R41). -/
  history    : List Event
  /-- The MODEL's own field: the argument of the next free value (notes/assumptions/6.md). -/
  free       : Nat
  deriving DecidableEq, Repr

/-- Why the machine stops in a state that the spec's rules exclude. All three are SAFE (the model stops) and none can
be reached from a state that meets `State.Inv` (Sys2Proof/Safety.lean). -/
inductive Fault where
  /-- The block stands in a phase that R90 gives its operation no transition from: `PADPUT` in `DECRYPT`. Raised by
  `advanceDecrypt`. Safe. -/
  | noTransition
  /-- A block phase is entered with no block of that number (`more(BLK)` is false), so `N` has no value (R89). Raised
  by the phases that use `N`. Safe. -/
  | noBlock
  /-- A lane that holds no value would be read; R13 asks that such a read fail rather than compute. Raised by `PADPUT`
  and `DATAPUT`. Safe. -/
  | absentLane
  deriving DecidableEq, Repr

/-- Why the model gives no meaning. -/
inductive Refusal where
  /-- An instruction that has no meaning yet. No arm of `exec` answers it. Safe. -/
  | notModelled (mnemonic : String)
  /-- The command pins hold a pattern that `LENW` wires cannot carry (R53). Raised when a command would be accepted.
  Safe: real pins cannot hold it. -/
  | badCommand (why : DecodeError)
  deriving DecidableEq, Repr

/-- The machine right after reset: `PH` is `IDLE` and `STATUS` is 0 (R25, R140). The registers that R25 leaves without
a value hold zeros (DESIGN CHOICE, notes/assumptions/5.md), and the environment is one in which nothing has happened
(DESIGN CHOICE, notes/assumptions/7.md). -/
def State.reset : State where
  lenw := Config.defaultLenw
  op := .encrypt
  len := 0
  plen := 0
  fb := 0
  rem := 0
  ph := .idle
  blk := 0
  padw := List.replicate 8 0#8
  buf := List.replicate 8 0#8
  status := .ok
  inContent := []
  inRc := 0
  padContent := []
  padRc := 0
  padWritten := []
  outWritten := []
  psAnswers := []
  inAcks := .always
  padRdAcks := .always
  padWrAcks := .always
  outAcks := .always
  cmd := none
  inputs := []
  history := []
  free := 0

end Sys2Proof.Machine
end

