-- ==== Sys2Proof/Machine/Flags.lean ====
section
/-! DEFINITION. The status flags and their codes (R17, R52, R120): functions of `PH` and `STATUS`. -/

namespace Sys2Proof.Machine

/-- `cmd_ready`: 1 exactly when `PH` is `IDLE` or `DONE` (R24, R83). -/
def State.ready (s : State) : Bool := s.ph == .idle || s.ph == .done

/-- `BUSY`: `PH` is none of `IDLE`, `DONE` (R17). -/
def State.busy (s : State) : Bool := !s.ready

/-- `DONE`: `PH = DONE` (R17). -/
def State.isDone (s : State) : Bool := s.ph == .done

/-- The code of a failure kind (R120). -/
def Failure.code : Failure → BitVec 3
  | .invalidSize => 1#3
  | .sizeMismatch => 2#3
  | .shortRead => 3#3
  | .entropyUnavailable => 4#3

/-- Format `S` (R52). -/
def Status.code : Status → BitVec 3
  | .ok => 0#3
  | .failed k => k.code

/-- The command bit of an operation (R14, R51). -/
def Op.code : Op → BitVec 1
  | .encrypt => 0#1
  | .decrypt => 1#1

end Sys2Proof.Machine
end

