-- ==== Sys2Proof/Machine/Operands.lean ====
section
/-! DEFINITION. The operand forms: lanes and byte order (R36, R55, R56, R62), the split of a length into blocks (R87 to
R89), the range of a size (R5). -/

namespace Sys2Proof.Machine

/-- `MAXLEN = 2^(LENW-1) - 1` (R5). -/
def maxlen (lenw : Nat) : Int := (2 : Int) ^ (lenw - 1) - 1

/-- `lane_k(w)`, bits `8k+7` to `8k` (00_scope.md section 5.1). -/
def lane (w : Word64) (k : Nat) : Byte := w.extractLsb' (8 * k) 8

/-- `bytes8(w)`: the eight lanes of a word, least significant first (R36). -/
def bytes8 (w : Word64) : List Byte :=
  [lane w 0, lane w 1, lane w 2, lane w 3, lane w 4, lane w 5, lane w 6, lane w 7]

/-- `word8`: the word whose lane `k` is byte `k` of the sequence; a lane the sequence does not reach is 0 (R36, R55). -/
def word8 : List Byte → Word64
  | [] => 0#64
  | b :: bs => (word8 bs <<< 8) ||| b.zeroExtend 64

/-- `FB` of a length (R87). -/
def fullBlocks (n : Nat) : Nat := n / Config.blockBytes

/-- `REM` of a length (R87). -/
def remainder (n : Nat) : Fin 8 := ⟨n % Config.blockBytes, Nat.mod_lt n (by decide)⟩

/-- `T`, the number of blocks of a length (R88). -/
def totalBlocks (n : Nat) : Nat := fullBlocks n + if 0 < (remainder n).val then 1 else 0

/-- `more(b)`: is there a block number `b` ? (R89) -/
def State.more (s : State) (b : Nat) : Bool := b < s.fb || (b == s.fb && 0 < s.rem.val)

/-- `N(b)`, the byte count of block `b`; no value where there is no such block (R89). -/
def State.blockLen (s : State) (b : Nat) : Option Nat :=
  if b < s.fb then some Config.blockBytes
  else if b = s.fb ∧ 0 < s.rem.val then some s.rem.val
  else none

/-- The stream offset of a block (R35, R37). -/
def blockOff (b : Nat) : Nat := Config.blockBytes * b

/-- The first `n` lanes of a working register, where all of them hold a value; a lane that holds none is absent, not
zero (R13, R69). -/
def lanes (reg : List Byte) (n : Nat) : Option (List Byte) :=
  if n ≤ reg.length then some (reg.take n) else none

/-- Format `P` (R62): `ps_ok = 1` is `Ok(ps_word)`, `ps_ok = 0` is `Fail`. -/
def psDecode (psOk : BitVec 1) (psWord : Word64) : PsAnswer :=
  if psOk = 1#1 then .ok psWord else .fail

/-- Format `T` (R55): a 4-bit count and a 64-bit data word, byte `k` in lane `k`. -/
structure Transfer where
  n    : BitVec 4
  data : Word64
  deriving DecidableEq, Repr

/-- The transfer that carries up to eight bytes; the lanes at or above the count are 0 (R55, R77). -/
def Transfer.ofBytes (b : List Byte) : Transfer := ⟨BitVec.ofNat 4 b.length, word8 b⟩

/-- The bytes a transfer carries: the lanes below the count; the others are ignored (R55). -/
def Transfer.bytes (t : Transfer) : List Byte := (bytes8 t.data).take t.n.toNat

end Sys2Proof.Machine
end

