-- ==== Sys2Proof/Machine/Xor.lean ====
section
/-! DEFINITION. The XOR datapath (R75, R77, R78): one operation, the same for both commands. -/

namespace Sys2Proof.Machine

/-- Exclusive or, position by position (00_scope.md section 5.1, R76). -/
def xorBytes (a b : List Byte) : List Byte := List.zipWith (fun x y => x ^^^ y) a b

/-- `XDP`: the first `n` lanes of the data buffer and of the pad word, exclusive-ored lane by lane (R75). Lanes at or
above `n` are no inputs (R77); a lane below `n` that holds no value makes it answer none (R13). -/
def xdp (buf padw : List Byte) (n : Nat) : Option (List Byte) :=
  match lanes buf n, lanes padw n with
  | some b, some p => some (xorBytes b p)
  | _, _ => none

end Sys2Proof.Machine
end

