-- ==== Sys2Proof/Machine/Ops.lean ====
section
/-! DEFINITION. The named operations over streams and registers: the transaction primitives (R32 to R34, R65), the end
of an operation (R94, R127), the acceptance of a command (R83), reset (R140, R141). -/

namespace Sys2Proof.Machine

/-! ## Registers (00_scope.md section 5.2) -/

/-- `PH <- p`. -/
def goto (p : Phase) (s : State) : State := { s with ph := p }

/-- `PADW`'s lanes, from lane 0 up, take these bytes; the lanes above hold no value (R11, R68). -/
def loadPadw (p : List Byte) (s : State) : State := { s with padw := p }

/-- `BUF`'s lanes, from lane 0 up, take these bytes; the lanes above hold no value (R12, R92). -/
def loadBuf (b : List Byte) (s : State) : State := { s with buf := b }

/-- `BLK <- BLK + 1` (R93). -/
def bumpBlk (s : State) : State := { s with blk := s.blk + 1 }

/-- `STATUS <- v; PH <- DONE`: how an operation ends (00_scope.md section 5.3). What `PADW` and `BUF` hold from then on
is unspecified and not observable (R94, U9): free values (notes/assumptions/9.md). -/
def endWith (v : Status) (s : State) : State :=
  { s with
    status := v, ph := .done, padw := bytes8 (Config.padwAfterEnd s.free), buf := bytes8 (Config.bufAfterEnd s.free)
    free := s.free + 1 }

/-! ## The environment's fields -/

/-- What the command pins hold. -/
def setCmd (c : Option CmdWord) (s : State) : State := { s with cmd := c }

/-- What happens next at the boundary. -/
def setInputs (l : List Input) (s : State) : State := { s with inputs := l }

/-- `content(IN)`. -/
def setInContent (b : List Byte) (s : State) : State := { s with inContent := b }

/-- `content(PAD)`. -/
def setPadContent (b : List Byte) (s : State) : State := { s with padContent := b }

/-- The answers the Pad Source has ready. -/
def setPsAnswers (l : List PsAnswer) (s : State) : State := { s with psAnswers := l }

/-- How the read endpoint of `IN` acknowledges. -/
def setInAcks (a : Acks) (s : State) : State := { s with inAcks := a }

/-- How the read endpoint of `PAD` acknowledges. -/
def setPadRdAcks (a : Acks) (s : State) : State := { s with padRdAcks := a }

/-- How the write endpoint of `PAD` acknowledges. -/
def setPadWrAcks (a : Acks) (s : State) : State := { s with padWrAcks := a }

/-- How the write endpoint of `OUT` acknowledges. -/
def setOutAcks (a : Acks) (s : State) : State := { s with outAcks := a }

/-- The argument of the next free value. -/
def setFree (n : Nat) (s : State) : State := { s with free := n }

/-! ## Acknowledgment -/

/-- One acknowledgment of an endpoint; none where it does not answer, and the block waits (R150). -/
def Acks.use : Acks → Option Acks
  | .always => some .always
  | .only 0 => none
  | .only (k + 1) => some (.only k)

/-! ## What a transaction does on the other side of the port -/

/-- `content[rc .. rc + m)` with `m = min(n, avail)` (R33). -/
def readSlice (content : List Byte) (rc n : Nat) : List Byte := (content.drop rc).take n

/-- The bytes a read of `n` bytes of `IN` yields now (R33). -/
def State.inBytes (s : State) (n : Nat) : List Byte := readSlice s.inContent s.inRc n

/-- The bytes a read of `n` bytes of `PAD` yields now (R33). -/
def State.padBytes (s : State) (n : Nat) : List Byte := readSlice s.padContent s.padRc n

/-- A read of `IN` consumes what it yields (R33, R38). -/
def consumeIn (n : Nat) (s : State) : State := { s with inRc := s.inRc + (s.inBytes n).length }

/-- A read of `PAD` consumes what it yields (R33, R38). -/
def consumePad (n : Nat) (s : State) : State := { s with padRc := s.padRc + (s.padBytes n).length }

/-- A write of `OUT` appends (R34). -/
def appendOut (v : List Byte) (s : State) : State := { s with outWritten := s.outWritten ++ v }

/-- A write of `PAD` appends (R34). -/
def appendPad (v : List Byte) (s : State) : State := { s with padWritten := s.padWritten ++ v }

/-- A draw consumes one answer of the Pad Source (R65). -/
def consumeAnswer (s : State) : State := setPsAnswers s.psAnswers.tail s

/-- A completed transaction is one event of the event history (R41). -/
def record (e : Event) (s : State) : State := { s with history := s.history ++ [e] }

/-! ## The transactions: none where the other side does not answer -/

/-- `MemRead(IN, off, n)` (R33). -/
def memReadIn (off n : Nat) (s : State) : Option (List Byte × State) :=
  s.inAcks.use.map fun a =>
    (s.inBytes n, record (.read .IN off n (s.inBytes n)) (setInAcks a (consumeIn n s)))

/-- `MemRead(PAD, off, n)` (R33). -/
def memReadPad (off n : Nat) (s : State) : Option (List Byte × State) :=
  s.padRdAcks.use.map fun a =>
    (s.padBytes n, record (.read .PAD off n (s.padBytes n)) (setPadRdAcks a (consumePad n s)))

/-- `MemWrite(OUT, off, |v|, v)`: it cannot fail (R34). -/
def memWriteOut (off : Nat) (v : List Byte) (s : State) : Option State :=
  s.outAcks.use.map fun a => record (.write .OUT off v) (setOutAcks a (appendOut v s))

/-- `MemWrite(PAD, off, |v|, v)`: it cannot fail (R34). -/
def memWritePad (off : Nat) (v : List Byte) (s : State) : Option State :=
  s.padWrAcks.use.map fun a => record (.write .PAD off v) (setPadWrAcks a (appendPad v s))

/-- `Draw()`: one call of `next_word` (R65). -/
def draw (s : State) : Option (PsAnswer × State) :=
  match s.psAnswers with
  | [] => none
  | a :: _ => some (a, record (.draw a) (consumeAnswer s))

/-! ## The end of an operation -/

/-- `raise <Kind>`, the failure entry that every failure takes (R127): the kind goes to `STATUS`, the position to
`DONE`; nothing is saved, written or undone, and there is no handler and no return (R129). `Finish(status)` is the
operation's last event (R41). -/
def raise (k : Failure) (s : State) : State :=
  record (.finish (.failed k)) (endWith (.failed k) s)

/-- `finish Ok` (R94). -/
def finishOk (s : State) : State := record (.finish .ok) (endWith .ok s)

/-! ## The start of an operation -/

/-- Acceptance of `ENCRYPT` (R83). The handshake takes the command off the pins, the cursors count from the start of
this operation, and a new event history begins. `PLEN` is not loaded (R14). -/
def acceptEncrypt (inSize : Int) (s : State) : State :=
  { s with
    cmd := none, op := .encrypt, len := inSize, inRc := 0, outWritten := [], padWritten := [], ph := .validate
    history := [.start .encrypt, .sizeQ .IN inSize] }

/-- Acceptance of `DECRYPT` (R83): both sizes are sampled in this one step, `IN` first. -/
def acceptDecrypt (inSize padSize : Int) (s : State) : State :=
  { s with
    cmd := none, op := .decrypt, len := inSize, plen := padSize, inRc := 0, outWritten := [], padRc := 0
    ph := .validate
    history := [.start .decrypt, .sizeQ .IN inSize, .sizeQ .PAD padSize] }

/-- Acceptance of a command (R83). -/
def accept : Instr → State → State
  | .encrypt inSize => acceptEncrypt inSize
  | .decrypt inSize padSize => acceptDecrypt inSize padSize

/-! ## Reset -/

/-- The block's registers after `rst` (R25, R140); the registers R25 leaves without a value take those of
`State.reset` (notes/assumptions/5.md). The environment and the pins are untouched: reset is no transaction. -/
def resetBlock (s : State) : State :=
  { s with
    op := State.reset.op, len := State.reset.len, plen := State.reset.plen, fb := State.reset.fb
    rem := State.reset.rem, ph := State.reset.ph, blk := State.reset.blk, padw := State.reset.padw
    buf := State.reset.buf, status := State.reset.status }

/-- What the other side does to the environment when it performs the transaction the block is requesting (R141): the
block never sees its completion, so no register and no event history changes. -/
def performRequested (s : State) : State :=
  match s.ph, s.op, s.blockLen s.blk with
  | .padget, .encrypt, _ => consumeAnswer s
  | .padget, .decrypt, some n => consumePad n s
  | .padput, .encrypt, some n => (lanes s.padw n).elim s (fun v => appendPad v s)
  | .dataget, _, some n => consumeIn n s
  | .dataput, _, some n => (xdp s.buf s.padw n).elim s (fun v => appendOut v s)
  | _, _, _ => s

/-- `rst` (R140, R141). A transaction that was requested and not acknowledged may or may not have been performed: the
free value decides (notes/assumptions/6.md). In `IDLE` and `DONE` nothing is requested. -/
def reset (s : State) : State :=
  let e := if s.busy && Config.resetPerforms s.free then performRequested s else s
  setFree (s.free + 1) (resetBlock e)

end Sys2Proof.Machine
end

