-- ==== Sys2Proof/Machine/Sequencer.lean ====
section
/-! DEFINITION. What a transition of the sequencer can come to, and the phases both commands share: the split (`BBP`,
R87), the data read (R92) and the data write (R93). -/

namespace Sys2Proof.Machine

/-- One transition of the sequencer (R90): to a state, none because nothing is to be done or the other side does not
answer (R150), or a stop in a state the rules exclude. -/
inductive Move where
  | to (s : State)
  | stays
  | stuck (f : Fault)
  deriving DecidableEq, Repr

/-- `SPLIT` (R87). The gate has shown `LEN >= 1`. -/
def split (s : State) : State :=
  { s with fb := fullBlocks s.len.toNat, rem := remainder s.len.toNat, blk := 0, ph := .padget }

/-- `DATAGET` (R92): on a short read the yielded bytes are consumed and dropped. -/
def dataget (s : State) : Move :=
  match s.blockLen s.blk with
  | none => .stuck .noBlock
  | some n =>
    match memReadIn (blockOff s.blk) n s with
    | none => .stays
    | some (b, t) =>
      if b.length < n then .to (raise .shortRead t) else .to (goto .dataput (loadBuf b t))

/-- The end of `DATAPUT` (R93), after the write: on to the next block, or `finish Ok`. -/
def nextBlock (s : State) : State :=
  if s.more (s.blk + 1) then goto .padget (bumpBlk s) else finishOk (bumpBlk s)

/-- `DATAPUT` (R93). -/
def dataput (s : State) : Move :=
  match s.blockLen s.blk with
  | none => .stuck .noBlock
  | some n =>
    match xdp s.buf s.padw n with
    | none => .stuck .absentLane
    | some x =>
      match memWriteOut (blockOff s.blk) x s with
      | none => .stays
      | some t => .to (nextBlock t)

end Sys2Proof.Machine
end

