-- ==== Sys2Proof/Machine/Decrypt.lean ====
section
/-! DEFINITION. The phases of `DECRYPT` (R85, R68) and its transition table (R90, R110). -/

namespace Sys2Proof.Machine

/-- `VALIDATE` of `DECRYPT` (R85): the range of both sizes first, their equality second. -/
def validateDecrypt (s : State) : State :=
  if s.len ≤ 0 ∨ s.plen ≤ 0 ∨ maxlen s.lenw < s.len ∨ maxlen s.lenw < s.plen then raise .invalidSize s
  else if s.len ≠ s.plen then raise .sizeMismatch s
  else goto .split s

/-- `PADGET` of `DECRYPT` (R68): the pad-word multiplexer takes `N` bytes of the pad stream; the lanes above hold no
value. The pad is read before the data (R111). -/
def padgetDecrypt (s : State) : Move :=
  match s.blockLen s.blk with
  | none => .stuck .noBlock
  | some n =>
    match memReadPad (blockOff s.blk) n s with
    | none => .stays
    | some (p, t) =>
      if p.length < n then .to (raise .shortRead t) else .to (goto .dataget (loadPadw p t))

/-- One transition of a running `DECRYPT` (R90, R110). `PADPUT` is `ENCRYPT`'s alone. -/
def advanceDecrypt (s : State) : Move :=
  match s.ph with
  | .idle => .stays
  | .validate => .to (validateDecrypt s)
  | .split => .to (split s)
  | .padget => padgetDecrypt s
  | .padput => .stuck .noTransition
  | .dataget => dataget s
  | .dataput => dataput s
  | .done => .stays

end Sys2Proof.Machine
end

