-- ==== Sys2Proof/Machine/Encrypt.lean ====
section
/-! DEFINITION. The phases of `ENCRYPT` (R85, R68, R102) and its transition table (R90, R100). -/

namespace Sys2Proof.Machine

/-- `VALIDATE` of `ENCRYPT` (R85). -/
def validateEncrypt (s : State) : State :=
  if s.len ≤ 0 ∨ maxlen s.lenw < s.len then raise .invalidSize s else goto .split s

/-- `PADGET` of `ENCRYPT` (R68): the pad-word multiplexer takes the whole drawn word, all eight lanes; a failed draw
ends the operation and is not repeated (R124). -/
def padgetEncrypt (s : State) : Move :=
  match draw s with
  | none => .stays
  | some (.fail, t) => .to (raise .entropyUnavailable t)
  | some (.ok w, t) => .to (goto .padput (loadPadw (bytes8 w) t))

/-- `PADPUT` (R102): the first `N` lanes of the pad word go to `PAD`, the others go nowhere (R70). -/
def padput (s : State) : Move :=
  match s.blockLen s.blk with
  | none => .stuck .noBlock
  | some n =>
    match lanes s.padw n with
    | none => .stuck .absentLane
    | some v =>
      match memWritePad (blockOff s.blk) v s with
      | none => .stays
      | some t => .to (goto .dataget t)

/-- One transition of a running `ENCRYPT` (R90, R100). -/
def advanceEncrypt (s : State) : Move :=
  match s.ph with
  | .idle => .stays
  | .validate => .to (validateEncrypt s)
  | .split => .to (split s)
  | .padget => padgetEncrypt s
  | .padput => padput s
  | .dataget => dataget s
  | .dataput => dataput s
  | .done => .stays

end Sys2Proof.Machine
end

