-- ==== Sys2Proof/Machine/Run.lean ====
section
/-! DEFINITION. The running of an operation: one transition (R90), and all transitions until the operation ends or the
block waits for an answer (R95, R96, R150). -/

namespace Sys2Proof.Machine

/-- One transition of the running operation (R90). -/
def advance (s : State) : Move :=
  match s.op with
  | .encrypt => advanceEncrypt s
  | .decrypt => advanceDecrypt s

/-- A bound on the transitions an operation still makes: four a block and the two before the first block (R96). -/
def State.fuel (s : State) : Nat := 4 * (s.len.toNat + s.fb + 2) + 2

/-- At most `k` transitions, up to the first state in which the block has none. -/
def runOn : Nat → State → Host.Outcome State Fault Refusal
  | 0, s => .next s
  | k + 1, s =>
    match advance s with
    | .to t => runOn k t
    | .stays => .next s
    | .stuck f => .fault f

/-- The running operation up to its end (`DONE`), or up to the transaction that is not answered (R150). -/
def resume (s : State) : Host.Outcome State Fault Refusal := runOn s.fuel s

end Sys2Proof.Machine
end

