-- ==== Sys2Proof/Machine/Commands.lean ====
section
/-! DEFINITION. The meanings of the two commands (R100, R110): the whole operation, from acceptance to its end. -/

namespace Sys2Proof.Machine

/-- `ENCRYPT in_size` (R100): accepted in `IDLE` and `DONE` (R83) and run to its terminal state, or to the transaction
that the environment has not answered (R150: the block stays in that phase, `BUSY`). A command presented while `BUSY`
has no effect on the running operation (R84). -/
def execEncrypt (inSize : Int) (s : State) : Host.Outcome State Fault Refusal :=
  if s.ready then resume (acceptEncrypt inSize s) else .next s

/-- `DECRYPT in_size, pad_size` (R110): as `ENCRYPT`, with the pad read from `PAD`. -/
def execDecrypt (inSize padSize : Int) (s : State) : Host.Outcome State Fault Refusal :=
  if s.ready then resume (acceptDecrypt inSize padSize s) else .next s

end Sys2Proof.Machine
end

