-- ==== Sys2Proof/Machine/Dispatch.lean ====
section
/-! DEFINITION. One arm per command: the direct call of its meaning. -/

namespace Sys2Proof.Machine

def exec (i : Instr) (s : State) : Host.Outcome State Fault Refusal :=
  match i with
  | .encrypt inSize => Sys2Proof.Machine.execEncrypt inSize s
  | .decrypt inSize padSize => Sys2Proof.Machine.execDecrypt inSize padSize s

end Sys2Proof.Machine
end

