-- ==== Sys2Proof/Machine/Boundary.lean ====
section
/-! DEFINITION. What happens at the block's boundary: the command pins are read when the block is ready (R83, R84), the
block runs by itself, and the outside acts (R97, R157). -/

namespace Sys2Proof.Machine

/-- The block by itself, with nothing else to happen: a presented command is accepted and run when the block is ready
(R83), a running operation goes on as far as it can, and with no command it stays (R90). A command presented while
`BUSY` is held on the pins (R84). -/
def blockRuns (s : State) : Host.Outcome State Fault Refusal :=
  if s.ready then
    match s.cmd with
    | none => .next s
    | some c =>
      match decode s.lenw c with
      | .ok i => exec i s
      | .error e => .refused (.badCommand e)
  else resume s

/-- One transition of R90: acceptance, or a transition of the running operation, or none. -/
def blockTicks (s : State) : Host.Outcome State Fault Refusal :=
  if s.ready then
    match s.cmd with
    | none => .next s
    | some c =>
      match decode s.lenw c with
      | .ok i => .next (accept i s)
      | .error e => .refused (.badCommand e)
  else
    match advance s with
    | .to t => .next t
    | .stays => .next s
    | .stuck f => .fault f

/-- One thing that happens at the boundary (R97, R157). Reading `busy`, `done` and `status` is none: it has no side
effect. -/
def happens : Input → State → Host.Outcome State Fault Refusal
  | .tick, s => blockTicks s
  | .present c, s => .next (setCmd (some c) s)
  | .withdraw, s => .next (setCmd none s)
  | .putIn bytes, s => .next (setInContent bytes s)
  | .putPad bytes, s => .next (setPadContent bytes s)
  | .answer psOk psWord, s => .next (setPsAnswers (s.psAnswers ++ [psDecode psOk psWord]) s)
  | .acksIn a, s => .next (setInAcks a s)
  | .acksPadRead a, s => .next (setPadRdAcks a s)
  | .acksPadWrite a, s => .next (setPadWrAcks a s)
  | .acksOut a, s => .next (setOutAcks a s)
  | .rst, s => .next (reset s)

/-- Where the next command is fetched from: the command pins, with the block ready and nothing else to happen first. -/
def fetchFrom (c : CmdWord) (s : State) : State :=
  setCmd (some c) (setInputs [] (goto (if s.ready then s.ph else .idle) s))

end Sys2Proof.Machine
end

