-- ==== Sys2Proof/Machine/Step.lean ====
section
/-! DEFINITION. One step of the machine, and where it fetches its next command. -/

namespace Sys2Proof.Machine

/-- One step: the next thing at the boundary happens, or, with none left, the block runs by itself. -/
def step (s : State) : Host.Outcome State Fault Refusal :=
  match s.inputs with
  | [] => blockRuns s
  | i :: rest => happens i (setInputs rest s)

/-- The state with a word of the opcode table on the command pins, the block ready and nothing else to happen first
(notes/assumptions/8.md). -/
def State.withFetchWord (s : State) (nbits w : Nat) : State := fetchFrom (CmdWord.ofTableWord nbits w) s

end Sys2Proof.Machine
end

