-- ==== Sys2Proof/Machine/Ports.lean ====
section
/-! DEFINITION. The output ports of R24 as functions of the state. A request is raised, with its payload, exactly while
the block stands in the phase whose transaction it is (R90, R150); `none` is a port that requests nothing (R25). -/

namespace Sys2Proof.Machine

/-- What a phase of a running block requests of one channel: the function of `N`, in the given phase. -/
def State.requestIn {α : Type} (s : State) (p : Phase) (f : Nat → Option α) : Option α :=
  if s.ph = p then (s.blockLen s.blk).bind f else none

/-- `cmd_ready` (R24). -/
def State.cmdReadyPort (s : State) : Bool := s.ready

/-- `busy` (R24). -/
def State.busyPort (s : State) : Bool := s.busy

/-- `done` (R24). -/
def State.donePort (s : State) : Bool := s.isDone

/-- `status` (R24, R52). -/
def State.statusPort (s : State) : BitVec 3 := s.status.code

/-- `in_rd_req` and `in_rd_n` (R24). -/
def State.inReadPort (s : State) : Option (BitVec 4) :=
  s.requestIn .dataget fun n => some (BitVec.ofNat 4 n)

/-- `pad_rd_req` and `pad_rd_n`: used in `DECRYPT` only (R24). -/
def State.padReadPort (s : State) : Option (BitVec 4) :=
  if s.op = .decrypt then s.requestIn .padget fun n => some (BitVec.ofNat 4 n) else none

/-- `out_wr_req`, `out_wr_n` and `out_wr_data`: the lanes at or above `N` carry 0 (R24, R77). -/
def State.outWritePort (s : State) : Option Transfer :=
  s.requestIn .dataput fun n => (xdp s.buf s.padw n).map Transfer.ofBytes

/-- `pad_wr_req`, `pad_wr_n` and `pad_wr_data`: used in `ENCRYPT` only (R24, R56). -/
def State.padWritePort (s : State) : Option Transfer :=
  if s.op = .encrypt then s.requestIn .padput fun n => (lanes s.padw n).map Transfer.ofBytes else none

/-- `ps_req` (R24, R67): one draw a block, in `ENCRYPT` only. -/
def State.psReqPort (s : State) : Bool := s.op == .encrypt && s.ph == .padget

end Sys2Proof.Machine
end

