-- ==== Sys2Proof/Safety.lean ====
section
/-! DEFINITION. What counts as a consistent state, and the terms the statements use. -/

namespace Sys2Proof.Machine

/-! ## Consistent states -/

/-- Every register holds a value of its width (R5, R11, R12, R14, R15, R16). `REM` and `STATUS` do so by their type. -/
def State.Widths (s : State) : Prop :=
  Config.minLenw ≤ s.lenw ∧ sizeFits s.lenw s.len = true ∧ sizeFits s.lenw s.plen = true ∧
    s.fb < 2 ^ (s.lenw - 4) ∧ s.blk ≤ s.fb + 1 ∧ s.padw.length ≤ 8 ∧ s.buf.length ≤ 8

/-- What the gate has let pass (R85). -/
def State.Passed (s : State) : Prop :=
  1 ≤ s.len ∧ s.len ≤ maxlen s.lenw ∧ (s.op = .decrypt → s.plen = s.len)

/-- Nothing has been read or written in this operation (R86). -/
def State.Untouched (s : State) : Prop :=
  s.inRc = 0 ∧ s.outWritten = [] ∧ (s.op = .encrypt → s.padWritten = []) ∧ (s.op = .decrypt → s.padRc = 0)

/-- How far the `PAD` stream of the operation has been written or read (R21). -/
def State.padCursor (s : State) : Nat :=
  match s.op with
  | .encrypt => s.padWritten.length
  | .decrypt => s.padRc

/-- The block phases (R16). -/
def Phase.inBlock : Phase → Bool
  | .padget | .padput | .dataget | .dataput => true
  | _ => false

/-- Inside block `BLK` of byte count `n`: the split is that of `LEN` (R87), and the cursors stand at the block's offset,
or past the block once its transfer is done (R35). The lanes a later phase reads hold a value (R23). -/
def State.InBlock (s : State) (n : Nat) : Prop :=
  s.fb = fullBlocks s.len.toNat ∧ s.rem = remainder s.len.toNat ∧
    s.outWritten.length = blockOff s.blk ∧
    s.inRc = blockOff s.blk + (if s.ph = .dataput then n else 0) ∧
    s.padCursor = blockOff s.blk + (if s.ph = .dataget ∨ s.ph = .dataput then n else 0) ∧
    (s.ph = .padput → s.op = .encrypt) ∧
    (s.ph ≠ .padget → n ≤ s.padw.length) ∧
    (s.ph = .dataput → n ≤ s.buf.length)

/-- The sequencer's registers and the streams fit the phase (R23, R35, R85 to R90). -/
def State.Consistent (s : State) : Prop :=
  (s.ph = .validate → s.Untouched) ∧
    (s.ph = .split → s.Untouched ∧ s.Passed) ∧
    (s.ph.inBlock = true → s.Passed ∧ ∃ n, s.blockLen s.blk = some n ∧ s.InBlock n)

/-- The invariant of the machine: widths and consistency. -/
def State.Inv (s : State) : Prop := s.Widths ∧ s.Consistent

/-! ## The terms of the statements -/

/-- Every stream endpoint acknowledges every request (the fairness of R150, for streams). -/
def State.Acked (s : State) : Prop :=
  s.inAcks = .always ∧ s.padRdAcks = .always ∧ s.padWrAcks = .always ∧ s.outAcks = .always

/-- The block waits: its phase's transaction is not answered, and by itself it stays where it is (R150). -/
def State.Waits (s : State) : Prop := s.busy = true ∧ advance s = .stays

/-- The pad bytes that drawn words give, in stream order (R54). -/
def padOf (ws : List Word64) : List Byte := ws.flatMap bytes8

/-- The Pad Source's answers to draws that all succeed. -/
def oks (ws : List Word64) : List PsAnswer := ws.map .ok

/-- `N(i)` of a length `n`: 8, or what is left (R37, R89). -/
def blockSize (n i : Nat) : Nat := min Config.blockBytes (n - blockOff i)

/-- The bytes of block `i` of a stream, of a length `n` (R37). -/
def blockBytesOf (stream : List Byte) (n i : Nat) : List Byte := (stream.drop (blockOff i)).take (blockSize n i)

/-- Events of block `i` of an `ENCRYPT` that draws `w` for it (R41 item 2): draw, pad write, data read, data write. -/
def encryptBlockEvents (p : List Byte) (n i : Nat) (w : Word64) : List Event :=
  let pad := (bytes8 w).take (blockSize n i)
  let data := blockBytesOf p n i
  [.draw (.ok w), .write .PAD (blockOff i) pad, .read .IN (blockOff i) (blockSize n i) data,
    .write .OUT (blockOff i) (xorBytes data pad)]

/-- Events of the blocks `i, i + 1, …` of an `ENCRYPT` that draws these words for them. -/
def encryptEvents (p : List Byte) (n : Nat) : Nat → List Word64 → List Event
  | _, [] => []
  | i, w :: ws => encryptBlockEvents p n i w ++ encryptEvents p n (i + 1) ws

/-- Events of block `i` of a `DECRYPT` (R41 item 3): pad read, data read, data write. -/
def decryptBlockEvents (c k : List Byte) (n i : Nat) : List Event :=
  let pad := blockBytesOf k n i
  let data := blockBytesOf c n i
  [.read .PAD (blockOff i) (blockSize n i) pad, .read .IN (blockOff i) (blockSize n i) data,
    .write .OUT (blockOff i) (xorBytes data pad)]

/-- Events of the first `T` blocks of a `DECRYPT`. -/
def decryptEvents (c k : List Byte) (n : Nat) : Nat → List Event
  | 0 => []
  | t + 1 => decryptEvents c k n t ++ decryptBlockEvents c k n t

/-- The transactions of an event history: draws, reads and writes (R96). -/
def Event.isTransaction : Event → Bool
  | .draw _ | .read .. | .write .. => true
  | _ => false

/-- How many transactions an event history holds. -/
def transactions (h : List Event) : Nat := h.countP Event.isTransaction

/-- The transactions of one block (R96): draw, pad write, data read, data write; or pad read, data read, data write. -/
def Op.perBlock : Op → Nat
  | .encrypt => 4
  | .decrypt => 3

/-- The event history holds as many transactions as the block index and the phase say (R96): those of the `BLK` blocks
that are complete, and those of the current block that the earlier phases made; at the end, all of them on success,
none on a rejection, fewer on any other failure. -/
def State.Counted (s : State) : Prop :=
  match s.ph with
  | .idle => True
  | .validate | .split => transactions s.history = 0
  | .padget => transactions s.history = s.op.perBlock * s.blk
  | .padput => transactions s.history = s.op.perBlock * s.blk + 1
  | .dataget => transactions s.history = s.op.perBlock * (s.blk + 1) - 2
  | .dataput => transactions s.history = s.op.perBlock * (s.blk + 1) - 1
  | .done =>
    match s.status with
    | .ok => transactions s.history = s.op.perBlock * totalBlocks s.len.toNat
    | .failed .invalidSize | .failed .sizeMismatch => transactions s.history = 0
    | .failed .shortRead | .failed .entropyUnavailable =>
      1 ≤ transactions s.history ∧ transactions s.history < s.op.perBlock * totalBlocks s.len.toNat

/-! ## Requests and what the other side does with them -/

/-- One of the five channels requests (R24). -/
def State.Requests (s : State) : Prop :=
  s.inReadPort.isSome = true ∨ s.padReadPort.isSome = true ∨ s.outWritePort.isSome = true ∨
    s.padWritePort.isSome = true ∨ s.psReqPort = true

/-- The read cursors, the written bytes and the Pad Source's answers are these: all that a transaction changes on the
other side of a port (R33, R34, R65). -/
def State.OutsideIs (t : State) (inRc padRc : Nat) (outWritten padWritten : List Byte) (l : List PsAnswer) : Prop :=
  t.inRc = inRc ∧ t.padRc = padRc ∧ t.outWritten = outWritten ∧ t.padWritten = padWritten ∧ t.psAnswers = l

/-- Between `s` and `t` the other side has performed no transaction. -/
def State.Unperformed (s t : State) : Prop := t.OutsideIs s.inRc s.padRc s.outWritten s.padWritten s.psAnswers

/-- Between `s` and `t` the other side has performed the transaction of the phase `s` stands in, and no other (R141):
the draw takes one answer (R65), a read consumes the bytes it yields (R33), the pad write appends the first `n` lanes
of `PADW` (R102), the data write the datapath's output (R93). -/
def State.Performed (s t : State) : Prop :=
  (s.ph = .padget ∧ s.op = .encrypt ∧
      t.OutsideIs s.inRc s.padRc s.outWritten s.padWritten (s.psAnswers.drop 1)) ∨
    ∃ n, s.blockLen s.blk = some n ∧
      ((s.ph = .padget ∧ s.op = .decrypt ∧
          t.OutsideIs s.inRc (s.padRc + ((s.padContent.drop s.padRc).take n).length) s.outWritten s.padWritten
            s.psAnswers) ∨
        (s.ph = .padput ∧ s.op = .encrypt ∧ n ≤ s.padw.length ∧
          t.OutsideIs s.inRc s.padRc s.outWritten (s.padWritten ++ s.padw.take n) s.psAnswers) ∨
        (s.ph = .dataget ∧
          t.OutsideIs (s.inRc + ((s.inContent.drop s.inRc).take n).length) s.padRc s.outWritten s.padWritten
            s.psAnswers) ∨
        (s.ph = .dataput ∧ ∃ x, xdp s.buf s.padw n = some x ∧
          t.OutsideIs s.inRc s.padRc (s.outWritten ++ x) s.padWritten s.psAnswers))

/-! ## The streams as address spaces (R30) -/

/-- An address space as a list of offsets and bytes. -/
abbrev Memory := List Host.Cell

/-- The canonical form: offsets strictly rising. An offset that is not listed has no byte. -/
def Memory.wf : Memory → Bool
  | [] => true
  | [_] => true
  | a :: b :: m => decide (a.1 < b.1) && Memory.wf (b :: m)

/-- A byte sequence as cells, from an offset on (R30: offset 0 first). -/
def cellsFrom (off : Nat) : List Byte → Memory
  | [] => []
  | b :: bs => (off, b) :: cellsFrom (off + 1) bs

/-- The bytes of a stream as the operation uses it (R21, R30). R21 gives `PAD` a role only by operation. DESIGN CHOICE:
while no operation has been accepted since reset, `PAD` shows `written(PAD)`, since `OP` holds `ENCRYPT` then; so `rst`
in a `DECRYPT` switches this view away from `content(PAD)` (unsafe; notes/assumptions/20.md). -/
def State.stream (s : State) : StreamId → List Byte
  | .IN => s.inContent
  | .OUT => s.outWritten
  | .PAD => if s.op = .encrypt then s.padWritten else s.padContent

/-- The address space of a stream (R30). -/
def State.space (s : State) (S : StreamId) : Memory := cellsFrom 0 (s.stream S)

/-- The model's read of one byte of a stream, at an offset (R30). -/
def State.byteAt (s : State) (S : StreamId) (off : Nat) : Option Byte := (s.stream S)[off]?

end Sys2Proof.Machine
end

