-- ==== Sys2Proof/Certificates/Slice0/Obligations.lean ====
section
/-! DEFINITION. The statements about the machine, each from the spec's rules named in its docstring. -/

open Sys2Proof Sys2Proof.Machine

/-! ## Encoding -/

/-- R50, R51, R53: for every `LENW`, the pins that carry a command are read as that command. -/
def Obligations.DecodeEncodeAgree : Prop :=
  ∀ (lenw : Nat) (i : Instr), Config.minLenw ≤ lenw → i.wf lenw = true → decode lenw (encode lenw i) = .ok i

/-- R51, R53, R58: whatever is read is well formed, and its pins are those it was read from, but for `pad_size` of an
`ENCRYPT`, which is ignored. -/
def Obligations.EncodeDecodeAgree : Prop :=
  ∀ (lenw : Nat) (c : CmdWord) (i : Instr), Config.minLenw ≤ lenw → decode lenw c = .ok i →
    i.wf lenw = true ∧ encode lenw i = { c with padSize := if c.cmdOp = 0#1 then 0 else c.padSize }

/-- R58: there is no illegal command encoding. The pins are refused only where they hold a pattern of more than
`LENW` bits, and `cmd_op` alone says which command it is. -/
def Obligations.DecodeRefusesOnlyOverwide : Prop :=
  ∀ (lenw : Nat) (c : CmdWord),
    ((∃ i, decode lenw c = .ok i) ↔ c.inSize < 2 ^ lenw ∧ (c.cmdOp = 1#1 → c.padSize < 2 ^ lenw)) ∧
      (∀ n, decode lenw c = .ok (.encrypt n) → c.cmdOp = 0#1) ∧
      (∀ n m, decode lenw c = .ok (.decrypt n m) → c.cmdOp = 1#1)

/-- R58: in `ENCRYPT` any value of `pad_size` may be presented and none has an effect. -/
def Obligations.EncryptIgnoresPadSizePins : Prop :=
  ∀ (lenw z p q : Nat), decode lenw ⟨0#1, z, p⟩ = decode lenw ⟨0#1, z, q⟩

/-- The command words of the spec's programs P1, P2, P3 and P5 (95_test_vectors.md section 3), at `LENW = 32`. -/
def Obligations.SpecCommandWordsDecode : Prop :=
  decode 32 ⟨0#1, 0x00000009, 0⟩ = .ok (.encrypt 9) ∧
    decode 32 ⟨1#1, 0x00000009, 0x00000009⟩ = .ok (.decrypt 9 9) ∧
    decode 32 ⟨1#1, 0x0000000A, 0x00000009⟩ = .ok (.decrypt 10 9) ∧
    decode 32 ⟨0#1, 0x00000011, 0⟩ = .ok (.encrypt 17) ∧
    decode 32 ⟨0#1, 0xFFFFFFFF, 0⟩ = .ok (.encrypt (-1)) ∧
    decode 32 ⟨1#1, 0x00000000, 0x00000005⟩ = .ok (.decrypt 0 5)

/-- R53: the value of a size operand is that of `LENW`-bit two's complement, the sign bit counting `-2^(LENW-1)`. -/
def Obligations.SizeOperandIsTwosComplement : Prop :=
  ∀ (lenw z : Nat), Config.minLenw ≤ lenw → z < 2 ^ lenw →
    sizeOfBits lenw z
        = -(2 : Int) ^ (lenw - 1) * ((z / 2 ^ (lenw - 1) : Nat) : Int) + ((z % 2 ^ (lenw - 1) : Nat) : Int) ∧
      sizeFits lenw (sizeOfBits lenw z) = true

/-- R52: the codes of the results; no other code is ever on the port. -/
def Obligations.StatusCodesAreTheTable : Prop :=
  Status.code .ok = 0#3 ∧ Status.code (.failed .invalidSize) = 1#3 ∧ Status.code (.failed .sizeMismatch) = 2#3 ∧
    Status.code (.failed .shortRead) = 3#3 ∧ Status.code (.failed .entropyUnavailable) = 4#3 ∧
    ∀ s : State, s.statusPort = s.status.code ∧ s.statusPort.toNat < 5

/-! ## Operands and the datapath -/

/-- R36: byte order is little-endian. Byte `k` of a pad word in the stream is its bits `8k+7` to `8k`, and words and
sequences of eight bytes are the same thing. -/
def Obligations.PadWordsAreLittleEndian : Prop :=
  (∀ (w : Word64) (k : Nat), k < 8 → (bytes8 w)[k]? = some (w.extractLsb' (8 * k) 8)) ∧
    (∀ w : Word64, (bytes8 w).length = 8 ∧ word8 (bytes8 w) = w) ∧
    ∀ b : List Byte, b.length = 8 → bytes8 (word8 b) = b

/-- R76: the six laws of exclusive or, on byte sequences of equal length (so on single bytes), and on 64-bit words. -/
def Obligations.XorLaws : Prop :=
  (∀ a b c : List Byte, a.length = b.length → b.length = c.length →
    xorBytes (xorBytes a b) b = a ∧ xorBytes a b = xorBytes b a ∧
      xorBytes (xorBytes a b) c = xorBytes a (xorBytes b c) ∧
      xorBytes a (List.replicate a.length 0x00#8) = a ∧
      xorBytes a (List.replicate a.length 0xFF#8) = a.map (fun x => ~~~x) ∧
      xorBytes a a = List.replicate a.length 0x00#8) ∧
  ∀ a b c : Word64,
    (a ^^^ b) ^^^ b = a ∧ a ^^^ b = b ^^^ a ∧ (a ^^^ b) ^^^ c = a ^^^ (b ^^^ c) ∧ a ^^^ 0#64 = a ∧
      a ^^^ 0xFFFFFFFFFFFFFFFF#64 = ~~~a ∧ a ^^^ a = 0#64 ∧
      bytes8 (a ^^^ b) = xorBytes (bytes8 a) (bytes8 b)

/-- R75: lane `k` of the output is the exclusive or of lane `k` of `BUF` and lane `k` of `PADW`, for `k < N`; the lanes
at or above `N` are no inputs. That a lane below `N` that holds no value gives no output is R13, by the spec's decision
D24, as notes/assumptions/10.md reads it. -/
def Obligations.DatapathIsLaneXor : Prop :=
  ∀ (buf padw : List Byte) (n : Nat),
    (n ≤ buf.length → n ≤ padw.length → ∃ x, xdp buf padw n = some x ∧ x.length = n ∧
      ∀ k, k < n → ∃ a b, buf[k]? = some a ∧ padw[k]? = some b ∧ x[k]? = some (a ^^^ b)) ∧
    (buf.length < n ∨ padw.length < n → xdp buf padw n = none) ∧
    ∀ buf' padw' : List Byte, buf'.take n = buf.take n → padw'.take n = padw.take n → n ≤ buf.length →
      n ≤ padw.length → xdp buf' padw' n = xdp buf padw n

/-- R55, R77: a transfer carries its bytes in lane order, and 0 in the lanes at or above the count. -/
def Obligations.TransferCarriesBytes : Prop :=
  ∀ b : List Byte, b.length ≤ 8 →
    (Transfer.ofBytes b).bytes = b ∧ (Transfer.ofBytes b).n.toNat = b.length ∧
      ∀ k, b.length ≤ k → k < 8 → lane (Transfer.ofBytes b).data k = 0#8

/-- R88: the blocks of a length: `T` of them, the first `FB` full, the last one partial where `REM > 0`; they cover the
length exactly. In the split of the length `more(b)` and `N(b)` (R89) are those of this numbering. -/
def Obligations.BlocksCoverTheLength : Prop :=
  ∀ n : Nat,
    n = 8 * fullBlocks n + (remainder n).val ∧
      totalBlocks n = fullBlocks n + (if 0 < (remainder n).val then 1 else 0) ∧
      (1 ≤ n → 1 ≤ totalBlocks n) ∧
      (∀ i, i < fullBlocks n → blockSize n i = 8) ∧
      (0 < (remainder n).val → blockSize n (fullBlocks n) = (remainder n).val ∧ totalBlocks n = fullBlocks n + 1) ∧
      ((List.range (totalBlocks n)).map (blockSize n)).sum = n ∧
      (∀ i, i < totalBlocks n → 1 ≤ blockSize n i ∧ blockSize n i ≤ 8) ∧
      ∀ (s : State) (b : Nat), s.fb = fullBlocks n → s.rem = remainder n →
        (s.more b = true ↔ b < totalBlocks n) ∧
          s.blockLen b = if b < totalBlocks n then some (blockSize n b) else none

/-! ## The transitions of the sequencer, one at a time -/

/-- R83 (with the spec's decisions D6, D13, D25): acceptance, from `IDLE` and from `DONE`, and from no other phase. That
the command leaves the pins by its acceptance, that a new event history begins there, and that an `ENCRYPT` leaves in
`PLEN` what it held, where R14 says it holds no value, are the model's reading (notes/assumptions/14.md, 15.md,
16.md). -/
def Obligations.AcceptanceLatchesCommand : Prop :=
  ∀ (s : State) (rest : List Input) (c : CmdWord), s.inputs = .tick :: rest → s.cmd = some c →
    (∀ n, (s.ph = .idle ∨ s.ph = .done) → decode s.lenw c = .ok (.encrypt n) →
      step s = .next { s with
        inputs := rest, cmd := none, op := .encrypt, len := n, inRc := 0, outWritten := [], padWritten := []
        ph := .validate, history := [.start .encrypt, .sizeQ .IN n] }) ∧
    (∀ n m, (s.ph = .idle ∨ s.ph = .done) → decode s.lenw c = .ok (.decrypt n m) →
      step s = .next { s with
        inputs := rest, cmd := none, op := .decrypt, len := n, plen := m, inRc := 0, outWritten := [], padRc := 0
        ph := .validate, history := [.start .decrypt, .sizeQ .IN n, .sizeQ .PAD m] }) ∧
    ∀ t, s.busy = true → step s = .next t → t.cmd = some c ∧ t.op = s.op ∧ t.len = s.len ∧ t.plen = s.plen

/-- R44, R84 (the spec's decisions D12, D20): while `BUSY` the command pins have no effect on the running operation, and
what they hold is held; it is accepted once the operation has reached `DONE`. -/
def Obligations.BusyHoldsTheCommand : Prop :=
  (∀ (i : Instr) (s : State), s.busy = true → exec i s = .next s) ∧
    ∀ (s t : State) (c : Option CmdWord) (rest : List Input), s.busy = true →
      (s.inputs = [] ∨ s.inputs = .tick :: rest) → step s = .next t →
      t.cmd = s.cmd ∧ step (setCmd c s) = .next (setCmd c t) ∧
        ∀ w i, t.ph = .done → t.inputs = [] → s.cmd = some w → decode s.lenw w = .ok i → step t = exec i t

/-- R85: the validation gate. -/
def Obligations.GateDecides : Prop :=
  ∀ (s u : State) (rest : List Input), s.inputs = .tick :: rest → s.ph = .validate → u = setInputs rest s →
    (s.op = .encrypt →
      step s = .next (if s.len ≤ 0 ∨ maxlen s.lenw < s.len then raise .invalidSize u else goto .split u)) ∧
    (s.op = .decrypt →
      step s = .next (
        if s.len ≤ 0 ∨ s.plen ≤ 0 ∨ maxlen s.lenw < s.len ∨ maxlen s.lenw < s.plen then raise .invalidSize u
        else if s.len ≠ s.plen then raise .sizeMismatch u
        else goto .split u))

/-- R87: the split of a length that passed the gate. -/
def Obligations.SplitComputesBlocks : Prop :=
  ∀ (s : State) (rest : List Input) (n : Nat), s.inputs = .tick :: rest → s.ph = .split → s.len = n → 1 ≤ n →
    (n : Int) ≤ maxlen s.lenw →
    ∃ t, step s = .next t ∧ t = { s with inputs := rest, fb := t.fb, rem := t.rem, blk := 0, ph := .padget } ∧
      t.fb = n / 8 ∧ t.rem.val = n % 8 ∧ n = 8 * t.fb + t.rem.val ∧ (t.fb : Int) ≤ maxlen s.lenw / 8

/-- R68, R124: the pad-word multiplexer in `ENCRYPT`. -/
def Obligations.EncryptPadgetDraws : Prop :=
  ∀ (s : State) (rest : List Input) (l : List PsAnswer), s.inputs = .tick :: rest → s.op = .encrypt →
    s.ph = .padget →
    (∀ w, s.psAnswers = .ok w :: l →
      step s = .next { s with
        inputs := rest, psAnswers := l, padw := bytes8 w, ph := .padput, history := s.history ++ [.draw (.ok w)] }) ∧
    (s.psAnswers = .fail :: l →
      step s = .next (raise .entropyUnavailable { s with
        inputs := rest, psAnswers := l, history := s.history ++ [.draw .fail] }))

/-- R68, R123: the pad-word multiplexer in `DECRYPT`, in a block of `n` bytes. -/
def Obligations.DecryptPadgetReadsPad : Prop :=
  ∀ (s : State) (rest : List Input) (n : Nat) (a : Acks) (p : List Byte), s.inputs = .tick :: rest →
    s.op = .decrypt → s.ph = .padget → s.blockLen s.blk = some n → s.padRdAcks.use = some a →
    p = (s.padContent.drop s.padRc).take n →
    (p.length = n →
      step s = .next { s with
        inputs := rest, padRdAcks := a, padRc := s.padRc + n, padw := p, ph := .dataget
        history := s.history ++ [.read .PAD (8 * s.blk) n p] }) ∧
    (p.length < n →
      step s = .next (raise .shortRead { s with
        inputs := rest, padRdAcks := a, padRc := s.padRc + p.length
        history := s.history ++ [.read .PAD (8 * s.blk) n p] }))

/-- R56, R69, R102: the pad write of `ENCRYPT`, in a block of `n` bytes. -/
def Obligations.PadputWritesFirstLanes : Prop :=
  ∀ (s : State) (rest : List Input) (n : Nat) (a : Acks), s.inputs = .tick :: rest → s.op = .encrypt →
    s.ph = .padput → s.blockLen s.blk = some n → n ≤ s.padw.length → s.padWrAcks.use = some a →
    step s = .next { s with
      inputs := rest, padWrAcks := a, padWritten := s.padWritten ++ s.padw.take n, ph := .dataget
      history := s.history ++ [.write .PAD (8 * s.blk) (s.padw.take n)] }

/-- R92, R123: the data read, the same for both commands, in a block of `n` bytes. On a short read the yielded bytes
are consumed, and no register and no output takes them. -/
def Obligations.DatagetReadsIn : Prop :=
  ∀ (s : State) (rest : List Input) (n : Nat) (a : Acks) (b : List Byte), s.inputs = .tick :: rest →
    s.ph = .dataget → s.blockLen s.blk = some n → s.inAcks.use = some a →
    b = (s.inContent.drop s.inRc).take n →
    (b.length = n →
      step s = .next { s with
        inputs := rest, inAcks := a, inRc := s.inRc + n, buf := b, ph := .dataput
        history := s.history ++ [.read .IN (8 * s.blk) n b] }) ∧
    (b.length < n →
      step s = .next (raise .shortRead { s with
        inputs := rest, inAcks := a, inRc := s.inRc + b.length
        history := s.history ++ [.read .IN (8 * s.blk) n b] }))

/-- R93: the data write, the same for both commands, in a block of `n` bytes; on to the next block while there is one,
else the end of the operation. -/
def Obligations.DataputWritesXor : Prop :=
  ∀ (s : State) (rest : List Input) (n : Nat) (a : Acks) (x : List Byte), s.inputs = .tick :: rest →
    s.ph = .dataput → s.blockLen s.blk = some n → xdp s.buf s.padw n = some x → s.outAcks.use = some a →
    (s.more (s.blk + 1) = true →
      step s = .next { s with
        inputs := rest, outAcks := a, outWritten := s.outWritten ++ x, blk := s.blk + 1, ph := .padget
        history := s.history ++ [.write .OUT (8 * s.blk) x] }) ∧
    (s.more (s.blk + 1) = false →
      step s = .next (finishOk { s with
        inputs := rest, outAcks := a, outWritten := s.outWritten ++ x, blk := s.blk + 1
        history := s.history ++ [.write .OUT (8 * s.blk) x] }))

/-- R90, R94: with no command the block stays in `IDLE` and in `DONE`, and changes no state. -/
def Obligations.IdleAndDoneStay : Prop :=
  ∀ (s : State) (rest : List Input), (s.ph = .idle ∨ s.ph = .done) → s.cmd = none →
    (s.inputs = [] → step s = .next s) ∧ (s.inputs = .tick :: rest → step s = .next (setInputs rest s))

/-- R150: while a transaction is outstanding the block stays in its phase with `BUSY`, and changes no state. -/
def Obligations.UnansweredTransactionWaits : Prop :=
  ∀ (s : State) (rest : List Input) (n : Nat), s.blockLen s.blk = some n →
    ((s.ph = .padget ∧ s.op = .encrypt ∧ s.psAnswers = []) ∨
      (s.ph = .padget ∧ s.op = .decrypt ∧ s.padRdAcks = .only 0) ∨
      (s.ph = .padput ∧ s.op = .encrypt ∧ n ≤ s.padw.length ∧ s.padWrAcks = .only 0) ∨
      (s.ph = .dataget ∧ s.inAcks = .only 0) ∨
      (s.ph = .dataput ∧ n ≤ s.buf.length ∧ n ≤ s.padw.length ∧ s.outAcks = .only 0)) →
    s.busy = true ∧ (s.inputs = [] → step s = .next s) ∧
      (s.inputs = .tick :: rest → step s = .next (setInputs rest s))

/-- R94, R127: the end of an operation, by failure and by success. The result goes to `STATUS` and the position to
`DONE`; nothing is saved, written or undone. Of `PADW` and `BUF` nothing is stated (R94), nor of the model's own field
`free`. -/
def Obligations.OperationEnds : Prop :=
  ∀ (v : Status) (s t : State), (t = finishOk s ∧ v = .ok) ∨ (∃ k, t = raise k s ∧ v = .failed k) →
    t = { s with
      status := v, ph := .done, padw := t.padw, buf := t.buf, free := t.free, history := s.history ++ [.finish v] } ∧
      t.busy = false ∧ t.isDone = true ∧ t.statusPort = v.code

/-- R40: the block issues one transaction at a time. -/
def Obligations.OneTransactionAtATime : Prop :=
  ∀ (s t : State) (rest : List Input), s.inputs = .tick :: rest → s.busy = true → step s = .next t →
    ∃ es, t.history = s.history ++ es ∧ transactions es ≤ 1

/-- R11, R12, R14 to R16, R20, R30, R44: the frame of one transition of a running operation. Each register changes in
its own phase only (`PADW` and `BUF` are not stated of the end of an operation, R94); each byte of each stream is unchanged, but for the `n` bytes appended at the write cursor. -/
def Obligations.TransitionFrame : Prop :=
  ∀ (s t : State) (rest : List Input), s.inputs = .tick :: rest → s.busy = true → step s = .next t →
    (t.lenw = s.lenw ∧ t.op = s.op ∧ t.len = s.len ∧ t.plen = s.plen ∧ t.inContent = s.inContent ∧
      t.padContent = s.padContent ∧ t.cmd = s.cmd ∧ t.inputs = rest) ∧
    (s.ph ≠ .split → t.fb = s.fb ∧ t.rem = s.rem) ∧
    (s.ph ≠ .split → s.ph ≠ .dataput → t.blk = s.blk) ∧
    (s.ph ≠ .padget → t.ph ≠ .done → t.padw = s.padw) ∧
    (s.ph ≠ .dataget → t.ph ≠ .done → t.buf = s.buf) ∧
    (s.ph ≠ .dataget → t.inRc = s.inRc ∧ t.inAcks = s.inAcks) ∧
    (¬(s.ph = .padget ∧ s.op = .decrypt) → t.padRc = s.padRc ∧ t.padRdAcks = s.padRdAcks) ∧
    (¬(s.ph = .padget ∧ s.op = .encrypt) → t.psAnswers = s.psAnswers) ∧
    (s.ph ≠ .padput → t.padWritten = s.padWritten ∧ t.padWrAcks = s.padWrAcks) ∧
    (s.ph ≠ .dataput → t.outWritten = s.outWritten ∧ t.outAcks = s.outAcks) ∧
    (t.ph ≠ .done → t.status = s.status) ∧
    (∀ off, t.byteAt .IN off = s.byteAt .IN off) ∧
    (∀ off, ¬(s.ph = .dataput ∧ s.outWritten.length ≤ off ∧
        ∃ n, s.blockLen s.blk = some n ∧ off < s.outWritten.length + n) →
      t.byteAt .OUT off = s.byteAt .OUT off) ∧
    ∀ off, ¬(s.ph = .padput ∧ s.padWritten.length ≤ off ∧
        ∃ n, s.blockLen s.blk = some n ∧ off < s.padWritten.length + n) →
      t.byteAt .PAD off = s.byteAt .PAD off

/-- R69, R70, R75, R77: the lanes of the pad word at or above `N` reach no stream, no port and no later decision. -/
def Obligations.DroppedLanesReachNothing : Prop :=
  ∀ (s t : State) (rest : List Input) (n : Nat) (v : List Byte), s.inputs = .tick :: rest →
    s.blockLen s.blk = some n → (s.ph = .padput ∨ s.ph = .dataget ∨ s.ph = .dataput) → n ≤ s.padw.length →
    v.take n = s.padw.take n → n ≤ v.length → step s = .next t →
    step (loadPadw v s) = .next (if t.ph = .done then t else loadPadw v t) ∧
      (loadPadw v s).outWritePort = s.outWritePort ∧
      (loadPadw v s).padWritePort = s.padWritePort

/-- R30: what the model lists of a stream as an address space: each byte at its offset from the start, in rising order,
and nothing else. It holds whichever bytes the `PAD` space shows while no operation has a role for it, which is the
model's choice (notes/assumptions/20.md). -/
def Obligations.SpacesListTheStreams : Prop :=
  ∀ (s : State) (S : StreamId),
    Memory.wf (s.space S) = true ∧ ∀ (off : Nat) (b : Byte), (off, b) ∈ s.space S ↔ s.byteAt S off = some b

/-! ## Reset, status, the outside -/

/-- R25, R140: the state after reset. -/
def Obligations.ResetStateIsTheTable : Prop :=
  State.reset.ph = .idle ∧ State.reset.busyPort = false ∧ State.reset.donePort = false ∧
    State.reset.statusPort = 0#3 ∧ State.reset.cmdReadyPort = true ∧ State.reset.inReadPort = none ∧
    State.reset.padReadPort = none ∧ State.reset.outWritePort = none ∧ State.reset.padWritePort = none ∧
    State.reset.psReqPort = false ∧ step State.reset = .next State.reset

/-- R140, R141: `rst` abandons whatever runs. The block is in `IDLE` with nothing requested, no status is reported, the
streams keep what was written, and the transaction that was requested, if one was, has been performed or not, as the
free value says (notes/assumptions/6.md); the statement holds for both of its values. What registers without a value
hold afterwards is not stated. -/
def Obligations.ResetAbandonsTheOperation : Prop :=
  ∀ (s : State) (rest : List Input), s.inputs = .rst :: rest →
    ∃ t, step s = .next t ∧ t.ph = .idle ∧ t.busy = false ∧ t.isDone = false ∧ t.statusPort = 0#3 ∧
      t.inReadPort = none ∧ t.padReadPort = none ∧ t.outWritePort = none ∧ t.padWritePort = none ∧
      t.psReqPort = false ∧ t.inContent = s.inContent ∧ t.padContent = s.padContent ∧ t.cmd = s.cmd ∧
      t.history = s.history ∧ s.outWritten <+: t.outWritten ∧ s.padWritten <+: t.padWritten ∧
      (s.Requests → Config.resetPerforms s.free = true → s.Performed t) ∧
      (¬s.Requests ∨ Config.resetPerforms s.free = false → s.Unperformed t)

/-- R17, R94: `DONE` and `STATUS` hold from the end of an operation until a command is accepted or `rst` is asserted,
and so do the block's other registers, the written bytes, the read cursors and the event history. -/
def Obligations.ResultHoldsUntilNextCommand : Prop :=
  ∀ s t : State, s.ph = .done → s.cmd = none → (∀ rest, s.inputs ≠ .rst :: rest) → step s = .next t →
    t.ph = .done ∧ t.status = s.status ∧ t.outWritten = s.outWritten ∧ t.padWritten = s.padWritten ∧
      t.inRc = s.inRc ∧ t.padRc = s.padRc ∧ t.history = s.history ∧ t.lenw = s.lenw ∧ t.op = s.op ∧ t.len = s.len ∧
      t.plen = s.plen ∧ t.fb = s.fb ∧ t.rem = s.rem ∧ t.blk = s.blk ∧ t.padw = s.padw ∧ t.buf = s.buf

/-- R97, R157: what happens outside, but for `rst`, touches no register of the block, writes no stream and moves no
cursor; it changes what its entry names, and nothing else. R62: an answer in format `P` is `Ok(ps_word)` where `ps_ok`
is 1, and `Fail` where it is 0, whatever `ps_word` holds; it goes behind the answers that are ready. -/
def Obligations.OutsideTouchesNoRegister : Prop :=
  (∀ w : Word64, psDecode 1#1 w = .ok w ∧ psDecode 0#1 w = .fail) ∧
  ∀ (s : State) (i : Input) (rest : List Input), s.inputs = i :: rest → i ≠ .tick → i ≠ .rst →
    ∃ t, step s = .next t ∧ t.inputs = rest ∧ t.lenw = s.lenw ∧ t.op = s.op ∧ t.len = s.len ∧ t.plen = s.plen ∧
      t.fb = s.fb ∧ t.rem = s.rem ∧ t.ph = s.ph ∧ t.blk = s.blk ∧ t.padw = s.padw ∧ t.buf = s.buf ∧
      t.status = s.status ∧ t.inRc = s.inRc ∧ t.padRc = s.padRc ∧ t.padWritten = s.padWritten ∧
      t.outWritten = s.outWritten ∧ t.history = s.history ∧ s.psAnswers <+: t.psAnswers ∧
      match i with
      | .present c => t = { s with inputs := rest, cmd := some c }
      | .withdraw => t = { s with inputs := rest, cmd := none }
      | .putIn bytes => t = { s with inputs := rest, inContent := bytes }
      | .putPad bytes => t = { s with inputs := rest, padContent := bytes }
      | .answer psOk psWord => t = { s with inputs := rest, psAnswers := s.psAnswers ++ [psDecode psOk psWord] }
      | .acksIn a => t = { s with inputs := rest, inAcks := a }
      | .acksPadRead a => t = { s with inputs := rest, padRdAcks := a }
      | .acksPadWrite a => t = { s with inputs := rest, padWrAcks := a }
      | .acksOut a => t = { s with inputs := rest, outAcks := a }
      | .tick | .rst => False

/-- R24, R40: at most one of the five channels requests at a time, none in `IDLE` and `DONE`, and `cmd_ready` is 1
exactly there. Each channel requests exactly in the phase of its transaction (R90), where what it sends holds a
value. -/
def Obligations.OneChannelRequests : Prop :=
  ∀ s : State,
    (s.cmdReadyPort = true ↔ s.ph = .idle ∨ s.ph = .done) ∧
      ([s.inReadPort.isSome, s.padReadPort.isSome, s.outWritePort.isSome, s.padWritePort.isSome, s.psReqPort].count
          true ≤ 1) ∧
      (s.cmdReadyPort = true → s.inReadPort = none ∧ s.padReadPort = none ∧ s.outWritePort = none ∧
        s.padWritePort = none ∧ s.psReqPort = false) ∧
      (s.inReadPort.isSome = true ↔ s.ph = .dataget ∧ ∃ n, s.blockLen s.blk = some n) ∧
      (s.padReadPort.isSome = true ↔ s.ph = .padget ∧ s.op = .decrypt ∧ ∃ n, s.blockLen s.blk = some n) ∧
      (s.psReqPort = true ↔ s.ph = .padget ∧ s.op = .encrypt) ∧
      (s.padWritePort.isSome = true ↔ s.ph = .padput ∧ s.op = .encrypt ∧
        ∃ n, s.blockLen s.blk = some n ∧ n ≤ s.padw.length) ∧
      (s.outWritePort.isSome = true ↔ s.ph = .dataput ∧
        ∃ n, s.blockLen s.blk = some n ∧ n ≤ s.buf.length ∧ n ≤ s.padw.length)

/-- R24, R56, R77: what the other channels request, in a block of `n` bytes: the reads of `IN` and of `PAD` ask for `n`
bytes; the draw asks for one word; the write of `PAD` carries the count `n`, the first `n` lanes of `PADW`, and 0 in
the others. -/
def Obligations.OtherPortsRequestTheBlock : Prop :=
  ∀ (s : State) (n : Nat), s.blockLen s.blk = some n →
    (s.ph = .dataget → ∃ q, s.inReadPort = some q ∧ q.toNat = n) ∧
      (s.ph = .padget → s.op = .decrypt → ∃ q, s.padReadPort = some q ∧ q.toNat = n) ∧
      (s.ph = .padget → s.op = .encrypt → s.psReqPort = true) ∧
      (s.ph = .padput → s.op = .encrypt → n ≤ s.padw.length →
        ∃ tr, s.padWritePort = some tr ∧ tr.n.toNat = n ∧ tr.bytes = s.padw.take n ∧
          (∀ k, k < n → s.padw[k]? = some (lane tr.data k)) ∧ ∀ k, n ≤ k → k < 8 → lane tr.data k = 0#8)

/-- R24, R77: what the write port of `OUT` carries in `DATAPUT`: the count `N`, the exclusive or in lanes below it, and
0 in the others. -/
def Obligations.OutWritePortCarriesXor : Prop :=
  ∀ (s : State) (n : Nat), s.ph = .dataput → s.blockLen s.blk = some n → n ≤ s.buf.length → n ≤ s.padw.length →
    ∃ x tr, xdp s.buf s.padw n = some x ∧ s.outWritePort = some tr ∧ tr.n.toNat = n ∧ tr.bytes = x ∧
      ∀ k, n ≤ k → k < 8 → lane tr.data k = 0#8

/-! ## Steps and commands -/

/-- R83, R90: with a command on the pins, the block ready and nothing else to happen first, a step is the meaning of
the command that is read; with a tick scheduled, it is its acceptance alone. -/
def Obligations.StepRunsTheDecodedCommand : Prop :=
  ∀ (s : State) (c : CmdWord) (i : Instr) (rest : List Input), (s.ph = .idle ∨ s.ph = .done) → s.cmd = some c →
    decode s.lenw c = .ok i →
    (s.inputs = [] → step s = exec i s) ∧ (s.inputs = .tick :: rest → step s = .next (accept i (setInputs rest s)))

/-- R90, R95: the meaning of a command is the transitions of R90 from its acceptance on, one after the other. -/
def Obligations.TicksRunTheCommand : Prop :=
  ∀ (s t : State) (c : CmdWord) (i : Instr), (s.ph = .idle ∨ s.ph = .done) → s.cmd = some c →
    decode s.lenw c = .ok i → s.inputs = [] → exec i s = .next t →
    ∃ k, Host.Core.run core k (setInputs (List.replicate k .tick) s) = .next t

/-- R95, R96: a command presented in `IDLE` or `DONE` is always run, to its end or to a transaction that is not
answered: it is never refused and never stops, whatever its sizes and whatever the streams and the Pad Source hold. -/
def Obligations.CommandsAlwaysRun : Prop :=
  ∀ (i : Instr) (s : State), (s.ph = .idle ∨ s.ph = .done) → ∃ t, exec i s = .next t ∧ (t.ph = .done ∨ t.Waits)

/-- R96: the transactions of an operation, from its acceptance up to its end or to the first transaction that is not
answered: at most four a block in `ENCRYPT` and three a block in `DECRYPT`, and a length has at most `2^(LENW-4)`
blocks. That the bound holds on, however often the operation waits and goes on, is `StepKeepsTheTransactionCount`. -/
def Obligations.TransactionsAreBounded : Prop :=
  (∀ (s t : State) (n : Int), (s.ph = .idle ∨ s.ph = .done) → exec (.encrypt n) s = .next t →
    transactions t.history ≤ 4 * totalBlocks n.toNat) ∧
  (∀ (s t : State) (n m : Int), (s.ph = .idle ∨ s.ph = .done) → exec (.decrypt n m) s = .next t →
    transactions t.history ≤ 3 * totalBlocks n.toNat) ∧
  ∀ lenw n : Nat, Config.minLenw ≤ lenw → (n : Int) ≤ maxlen lenw → totalBlocks n ≤ 2 ^ (lenw - 4)

/-- R96, as an invariant of every step: the event history of the running operation holds exactly the transactions of
its complete blocks and of the phases of the current block that are done; at the end all of them on success, none on a
rejection, fewer on another failure; so never more than four a block in `ENCRYPT` and three in `DECRYPT`. -/
def Obligations.StepKeepsTheTransactionCount : Prop :=
  ∀ s t : State, s.Inv → s.Counted → step s = .next t →
    t.Counted ∧ (t.ph ≠ .idle → transactions t.history ≤ t.op.perBlock * totalBlocks t.len.toNat)

/-- R23, R95: nothing persists across operations. What a command does depends on the environment it is given, and not
on any register or result an earlier operation left. -/
def Obligations.NothingPersistsAcrossOperations : Prop :=
  ∀ (i : Instr) (s s' t : State), (s.ph = .idle ∨ s.ph = .done) → (s'.ph = .idle ∨ s'.ph = .done) →
    s'.lenw = s.lenw → s'.inContent = s.inContent → s'.padContent = s.padContent → s'.psAnswers = s.psAnswers →
    s'.inAcks = s.inAcks → s'.padRdAcks = s.padRdAcks → s'.padWrAcks = s.padWrAcks → s'.outAcks = s.outAcks →
    exec i s = .next t →
    ∃ t', exec i s' = .next t' ∧ t'.ph = t.ph ∧ (t.ph = .done → t'.status = t.status) ∧
      t'.outWritten = t.outWritten ∧ t'.inRc = t.inRc ∧ t'.psAnswers = t.psAnswers ∧ t'.history = t.history ∧
      (t.op = .encrypt → t'.padWritten = t.padWritten) ∧ (t.op = .decrypt → t'.padRc = t.padRc)

/-! ## ENCRYPT -/

/-- R104, R67: a successful `ENCRYPT` of `n` bytes, with `T` words drawn; `IN` may hold more than `n` bytes, and the
excess is never read. -/
def Obligations.EncryptSucceeds : Prop :=
  ∀ (s : State) (n : Nat) (ws : List Word64) (more : List PsAnswer), (s.ph = .idle ∨ s.ph = .done) → s.Acked →
    1 ≤ n → (n : Int) ≤ maxlen s.lenw → n ≤ s.inContent.length → ws.length = totalBlocks n →
    s.psAnswers = oks ws ++ more →
    ∃ t, exec (.encrypt n) s = .next t ∧ t.ph = .done ∧ t.status = .ok ∧
      t.padWritten.length = n ∧ t.outWritten.length = n ∧
      (∀ j, j < n → t.padWritten[j]? = (ws[j / 8]?).map (fun w => lane w (j % 8))) ∧
      t.outWritten = xorBytes (s.inContent.take n) t.padWritten ∧ t.psAnswers = more ∧ t.inRc = n

/-- R41, R103: the event history of a successful `ENCRYPT`: for each block in turn the draw, the pad write, the data
read, the data write. -/
def Obligations.EncryptEventsInOrder : Prop :=
  ∀ (s : State) (n : Nat) (ws : List Word64) (more : List PsAnswer), (s.ph = .idle ∨ s.ph = .done) → s.Acked →
    1 ≤ n → (n : Int) ≤ maxlen s.lenw → n ≤ s.inContent.length → ws.length = totalBlocks n →
    s.psAnswers = oks ws ++ more →
    ∃ t, exec (.encrypt n) s = .next t ∧
      t.history = [.start .encrypt, .sizeQ .IN n] ++ encryptEvents s.inContent n 0 ws ++ [.finish .ok] ∧
      transactions t.history = 4 * totalBlocks n

/-- R83, R85, R86, R121: an `ENCRYPT` whose declared size is out of range ends with `InvalidSize`, and nothing has been
read, written or drawn. That the pins are free afterwards, that the event history begins at the acceptance, and that
`PLEN` is as it was, where R14 says it holds no value, are the model's reading (notes/assumptions/14.md, 15.md,
16.md). -/
def Obligations.EncryptRejectsSize : Prop :=
  ∀ (s : State) (n : Int), (s.ph = .idle ∨ s.ph = .done) → (n ≤ 0 ∨ maxlen s.lenw < n) →
    exec (.encrypt n) s = .next (raise .invalidSize { s with
      cmd := none, op := .encrypt, len := n, inRc := 0, outWritten := [], padWritten := [], ph := .validate
      history := [.start .encrypt, .sizeQ .IN n] })

/-- R105 (second row), R124: the draw of block `|ws|` fails. -/
def Obligations.EncryptEntropyFailure : Prop :=
  ∀ (s : State) (n : Nat) (ws : List Word64) (more : List PsAnswer), (s.ph = .idle ∨ s.ph = .done) → s.Acked →
    (n : Int) ≤ maxlen s.lenw → 8 * ws.length < n → 8 * ws.length ≤ s.inContent.length →
    s.psAnswers = oks ws ++ .fail :: more →
    ∃ t, exec (.encrypt n) s = .next t ∧ t.ph = .done ∧ t.status = .failed .entropyUnavailable ∧
      t.padWritten = padOf ws ∧ t.outWritten = xorBytes (s.inContent.take (8 * ws.length)) (padOf ws) ∧
      t.padWritten.length = 8 * ws.length ∧ t.outWritten.length = 8 * ws.length ∧ t.inRc = 8 * ws.length ∧
      t.psAnswers = more ∧
      t.history = [.start .encrypt, .sizeQ .IN n] ++ encryptEvents s.inContent n 0 ws ++
        [.draw .fail, .finish (.failed .entropyUnavailable)]

/-- R105 (third row), R103, R123: `IN` holds fewer than `n` bytes, and block `i` is the first it cannot fill. The pad
bytes of that block are written, and its data are not. -/
def Obligations.EncryptShortRead : Prop :=
  ∀ (s : State) (n i : Nat) (ws : List Word64) (more : List PsAnswer), (s.ph = .idle ∨ s.ph = .done) → s.Acked →
    (n : Int) ≤ maxlen s.lenw → s.inContent.length < n → i = s.inContent.length / 8 → ws.length = i + 1 →
    s.psAnswers = oks ws ++ more →
    ∃ t, exec (.encrypt n) s = .next t ∧ t.ph = .done ∧ t.status = .failed .shortRead ∧
      t.padWritten = (padOf ws).take (8 * i + blockSize n i) ∧ t.padWritten.length = 8 * i + blockSize n i ∧
      t.outWritten = xorBytes (s.inContent.take (8 * i)) ((padOf ws).take (8 * i)) ∧
      t.outWritten.length = 8 * i ∧ t.inRc = s.inContent.length ∧ t.psAnswers = more

/-- R144, R150: the Pad Source does not answer the draw of block `|ws|`: the block stays in `PADGET`, `BUSY`. -/
def Obligations.EncryptWaitsForTheDraw : Prop :=
  ∀ (s : State) (n : Nat) (ws : List Word64), (s.ph = .idle ∨ s.ph = .done) → s.Acked → s.inputs = [] →
    (n : Int) ≤ maxlen s.lenw → 8 * ws.length < n → 8 * ws.length ≤ s.inContent.length → s.psAnswers = oks ws →
    ∃ t, exec (.encrypt n) s = .next t ∧ t.ph = .padget ∧ t.blk = ws.length ∧ t.busy = true ∧ t.psReqPort = true ∧
      t.padWritten = padOf ws ∧ t.outWritten = xorBytes (s.inContent.take (8 * ws.length)) (padOf ws) ∧
      t.status = s.status ∧ step t = .next t

/-- R10, R14, R20, R21, R44: what `ENCRYPT` leaves unchanged, however it ends. It stores to `OUT` and `PAD` only, and
takes answers of the Pad Source from the front. That the pins are free and `PLEN` as it was is the model's reading
(notes/assumptions/14.md, 16.md). -/
def Obligations.EncryptFrame : Prop :=
  ∀ (s t : State) (n : Int), (s.ph = .idle ∨ s.ph = .done) → exec (.encrypt n) s = .next t →
    t.op = .encrypt ∧ t.len = n ∧ t.cmd = none ∧ t.lenw = s.lenw ∧ t.plen = s.plen ∧ t.inContent = s.inContent ∧
      t.padContent = s.padContent ∧ t.padRc = s.padRc ∧ t.padRdAcks = s.padRdAcks ∧ t.inputs = s.inputs ∧
      (∀ off, t.byteAt .IN off = s.byteAt .IN off) ∧
      (∃ used, s.psAnswers = used ++ t.psAnswers) ∧ (t.ph ≠ .done → t.status = s.status)

/-! ## DECRYPT -/

/-- R114: a successful `DECRYPT` of `n` bytes; either stream may hold more, and the excess is never read. -/
def Obligations.DecryptSucceeds : Prop :=
  ∀ (s : State) (n : Nat), (s.ph = .idle ∨ s.ph = .done) → s.Acked → 1 ≤ n → (n : Int) ≤ maxlen s.lenw →
    n ≤ s.inContent.length → n ≤ s.padContent.length →
    ∃ t, exec (.decrypt n n) s = .next t ∧ t.ph = .done ∧ t.status = .ok ∧ t.outWritten.length = n ∧
      t.outWritten = xorBytes (s.inContent.take n) (s.padContent.take n) ∧ t.inRc = n ∧ t.padRc = n ∧
      t.psAnswers = s.psAnswers ∧ t.padWritten = s.padWritten

/-- R41, R111: the event history of a successful `DECRYPT`: for each block in turn the pad read, the data read, the data
write. The pad read comes first by the spec's decision D9. -/
def Obligations.DecryptEventsInOrder : Prop :=
  ∀ (s : State) (n : Nat), (s.ph = .idle ∨ s.ph = .done) → s.Acked → 1 ≤ n → (n : Int) ≤ maxlen s.lenw →
    n ≤ s.inContent.length → n ≤ s.padContent.length →
    ∃ t, exec (.decrypt n n) s = .next t ∧
      t.history = [.start .decrypt, .sizeQ .IN n, .sizeQ .PAD n] ++
        decryptEvents s.inContent s.padContent n (totalBlocks n) ++ [.finish .ok] ∧
      transactions t.history = 3 * totalBlocks n

/-- R83, R85, R86, R121, R126: a `DECRYPT` with a size out of range ends with `InvalidSize`, whatever the other size.
That the pins are free afterwards and that the event history begins at the acceptance are the model's reading
(notes/assumptions/14.md, 15.md). -/
def Obligations.DecryptRejectsSize : Prop :=
  ∀ (s : State) (n m : Int), (s.ph = .idle ∨ s.ph = .done) →
    (n ≤ 0 ∨ m ≤ 0 ∨ maxlen s.lenw < n ∨ maxlen s.lenw < m) →
    exec (.decrypt n m) s = .next (raise .invalidSize { s with
      cmd := none, op := .decrypt, len := n, plen := m, inRc := 0, outWritten := [], padRc := 0, ph := .validate
      history := [.start .decrypt, .sizeQ .IN n, .sizeQ .PAD m] })

/-- R83, R85, R86, R122: a `DECRYPT` with two sizes in range that differ ends with `SizeMismatch`, and no byte has been
touched. That the pins are free afterwards and that the event history begins at the acceptance are the model's reading
(notes/assumptions/14.md, 15.md). -/
def Obligations.DecryptSizeMismatch : Prop :=
  ∀ (s : State) (n m : Int), (s.ph = .idle ∨ s.ph = .done) → 1 ≤ n → n ≤ maxlen s.lenw → 1 ≤ m →
    m ≤ maxlen s.lenw → n ≠ m →
    exec (.decrypt n m) s = .next (raise .sizeMismatch { s with
      cmd := none, op := .decrypt, len := n, plen := m, inRc := 0, outWritten := [], padRc := 0, ph := .validate
      history := [.start .decrypt, .sizeQ .IN n, .sizeQ .PAD m] })

/-- R115 (third row): the pad stream is too short for block `i`; `IN` is not read for it. -/
def Obligations.DecryptShortPad : Prop :=
  ∀ (s : State) (n i : Nat), (s.ph = .idle ∨ s.ph = .done) → s.Acked → (n : Int) ≤ maxlen s.lenw →
    s.padContent.length < n → i = s.padContent.length / 8 → 8 * i ≤ s.inContent.length →
    ∃ t, exec (.decrypt n n) s = .next t ∧ t.ph = .done ∧ t.status = .failed .shortRead ∧
      t.outWritten = xorBytes (s.inContent.take (8 * i)) (s.padContent.take (8 * i)) ∧
      t.outWritten.length = 8 * i ∧ t.padRc = s.padContent.length ∧ t.inRc = 8 * i ∧
      t.psAnswers = s.psAnswers ∧ t.padWritten = s.padWritten

/-- R115 (fourth row): the ciphertext stream is too short for block `i`, whose pad bytes are there. -/
def Obligations.DecryptShortIn : Prop :=
  ∀ (s : State) (n i : Nat), (s.ph = .idle ∨ s.ph = .done) → s.Acked → (n : Int) ≤ maxlen s.lenw →
    s.inContent.length < n → i = s.inContent.length / 8 → 8 * i + blockSize n i ≤ s.padContent.length →
    ∃ t, exec (.decrypt n n) s = .next t ∧ t.ph = .done ∧ t.status = .failed .shortRead ∧
      t.outWritten = xorBytes (s.inContent.take (8 * i)) (s.padContent.take (8 * i)) ∧
      t.outWritten.length = 8 * i ∧ t.padRc = 8 * i + blockSize n i ∧ t.inRc = s.inContent.length ∧
      t.psAnswers = s.psAnswers ∧ t.padWritten = s.padWritten

/-- R10, R20, R21, R44, R67, R115: what `DECRYPT` leaves unchanged, however it ends. It draws nothing and stores to
`OUT` only. That the pins are free is the model's reading (notes/assumptions/14.md). -/
def Obligations.DecryptFrame : Prop :=
  ∀ (s t : State) (n m : Int), (s.ph = .idle ∨ s.ph = .done) → exec (.decrypt n m) s = .next t →
    t.op = .decrypt ∧ t.len = n ∧ t.plen = m ∧ t.cmd = none ∧ t.lenw = s.lenw ∧ t.inContent = s.inContent ∧
      t.padContent = s.padContent ∧ t.padWritten = s.padWritten ∧ t.padWrAcks = s.padWrAcks ∧
      t.psAnswers = s.psAnswers ∧ t.inputs = s.inputs ∧
      (∀ off, t.byteAt .IN off = s.byteAt .IN off) ∧ (∀ off, t.byteAt .PAD off = s.padContent[off]?) ∧
      (t.ph ≠ .done → t.status = s.status)

/-- R114 item 4, R78: `DECRYPT` is the exact inverse of `ENCRYPT` given the same pad stream. -/
def Obligations.DecryptInvertsEncrypt : Prop :=
  ∀ (s u : State) (n : Nat) (ws : List Word64) (more : List PsAnswer), (s.ph = .idle ∨ s.ph = .done) → s.Acked →
    1 ≤ n → (n : Int) ≤ maxlen s.lenw → s.inContent.length = n → ws.length = totalBlocks n →
    s.psAnswers = oks ws ++ more → (u.ph = .idle ∨ u.ph = .done) → u.Acked → u.lenw = s.lenw →
    ∃ t, exec (.encrypt n) s = .next t ∧ t.status = .ok ∧
      (u.inContent = t.outWritten → u.padContent = t.padWritten →
        ∃ v, exec (.decrypt n n) u = .next v ∧ v.ph = .done ∧ v.status = .ok ∧ v.outWritten = s.inContent)

/-! ## Invariants -/

/-- `State.Inv` and `State.Counted` hold at reset. -/
def Obligations.InvAtReset : Prop := State.reset.Inv ∧ State.reset.Counted

/-- R5, R14 to R16, R23, R35, R85 to R90: every step keeps the registers within their widths and consistent with the
phase. -/
def Obligations.StepKeepsInv : Prop :=
  ∀ s t : State, s.Inv → step s = .next t → t.Inv

/-- R13, R23, R89, R90: from a consistent state a step never stops with a fault, so no lane or byte count that holds no
value is ever read; it is refused only where the pins hold a pattern `LENW` wires cannot carry. -/
def Obligations.ConsistentStatesNeverFault : Prop :=
  ∀ s : State, s.Inv →
    (∃ t, step s = .next t) ∨
      ∃ c e, s.ready = true ∧ s.cmd = some c ∧ decode s.lenw c = .error e ∧ step s = .refused (.badCommand e)
end

