-- ==== Sys2Proof/Laws/Operands.lean ====
section
/-! SUPPORT. Small lemmas of the operand forms: lanes, byte order, the split of a length, the XOR datapath, offsets. -/

namespace Sys2Proof.Machine

@[simp] theorem bytes8_length (w : Word64) : (bytes8 w).length = 8 := rfl

@[simp] theorem word8_nil : word8 [] = 0#64 := rfl

theorem word8_cons (b : Byte) (bs : List Byte) : word8 (b :: bs) = (word8 bs <<< 8) ||| b.zeroExtend 64 := rfl

theorem bytes8_get (w : Word64) (k : Nat) (h : k < 8) : (bytes8 w)[k]? = some (lane w k) := by
  interval_cases k <;> rfl

theorem lane_getLsb (w : Word64) (k j : Nat) (hj : j < 8) : (lane w k).getLsbD j = w.getLsbD (8 * k + j) := by
  simp [lane, hj]

/-- Lane `k` of an assembled word is byte `k` of the sequence, and 0 past its end (R36, R55). -/
theorem lane_word8 (bs : List Byte) (k : Nat) (hk : k < 8) : lane (word8 bs) k = bs.getD k 0#8 := by
  induction bs generalizing k with
  | nil => simp [lane]
  | cons b bs ih =>
    apply BitVec.eq_of_getLsbD_eq
    intro j hj
    rw [lane_getLsb _ _ _ hj, word8_cons]
    cases k with
    | zero =>
      have : j < 64 := by omega
      simp [hj, this]
    | succ k =>
      have h1 := congrArg (fun v : Byte => v.getLsbD j) (ih k (by omega))
      simp only [lane_getLsb _ _ _ hj] at h1
      have h2 : 8 * (k + 1) + j - 8 = 8 * k + j := by omega
      have h3 : 8 * (k + 1) + j < 64 := by omega
      have h4 : ¬ 8 * (k + 1) + j < 8 := by omega
      have h5 : b.getLsbD (8 * (k + 1) + j) = false := BitVec.getLsbD_of_ge b _ (by omega)
      rw [BitVec.getLsbD_or, BitVec.getLsbD_shiftLeft, h2, h1]
      simp [h3, h4, h5]

/-- The lanes of an assembled word are the bytes it was assembled from (R55). -/
theorem bytes8_word8_take (bs : List Byte) (h : bs.length ≤ 8) : (bytes8 (word8 bs)).take bs.length = bs := by
  apply List.ext_getElem?
  intro k
  by_cases hk : k < bs.length
  · rw [List.getElem?_take_of_lt hk, bytes8_get _ _ (by omega), lane_word8 _ _ (by omega)]
    simp [List.getD_eq_getElem?_getD, hk]
  · simp [hk]

theorem lane_ext (v w : Word64) (h : ∀ k, k < 8 → lane v k = lane w k) : v = w := by
  apply BitVec.eq_of_getLsbD_eq
  intro i hi
  have := congrArg (fun b : Byte => b.getLsbD (i % 8)) (h (i / 8) (by omega))
  simp only [lane_getLsb _ _ _ (Nat.mod_lt i (by decide))] at this
  rwa [Nat.div_add_mod] at this

theorem word8_bytes8 (w : Word64) : word8 (bytes8 w) = w := by
  apply lane_ext
  intro k hk
  rw [lane_word8 _ _ hk, List.getD_eq_getElem?_getD, bytes8_get _ _ hk, Option.getD_some]

@[simp] theorem xorBytes_length (a b : List Byte) : (xorBytes a b).length = min a.length b.length := by
  simp [xorBytes]

theorem xorBytes_take (a b : List Byte) (n : Nat) : (xorBytes a b).take n = xorBytes (a.take n) (b.take n) := by
  simp [xorBytes, List.take_zipWith]

theorem xorBytes_drop (a b : List Byte) (n : Nat) : (xorBytes a b).drop n = xorBytes (a.drop n) (b.drop n) := by
  simp [xorBytes, List.drop_zipWith]

/-- The self-inverse law (R76), on sequences. -/
theorem xorBytes_cancel (a b : List Byte) (h : a.length ≤ b.length) : xorBytes (xorBytes a b) b = a := by
  apply List.ext_getElem?
  intro i
  simp only [xorBytes, List.getElem?_zipWith]
  rcases Nat.lt_or_ge i a.length with hi | hi
  · have hb : i < b.length := by omega
    simp [hi, hb]
  · simp [hi]

theorem xorBytes_append (a b c d : List Byte) (h : a.length = c.length) :
    xorBytes (a ++ b) (c ++ d) = xorBytes a c ++ xorBytes b d := by
  simp [xorBytes, List.zipWith_append h]

theorem lanes_eq_some (r : List Byte) (n : Nat) (x : List Byte) :
    lanes r n = some x ↔ n ≤ r.length ∧ x = r.take n := by
  unfold lanes
  split <;> simp_all [eq_comm]

theorem lanes_of_le (r : List Byte) (n : Nat) (h : n ≤ r.length) : lanes r n = some (r.take n) := by
  simp [lanes, h]

/-- All that the datapath can answer (R75). -/
theorem xdp_eq_some (b p : List Byte) (n : Nat) (x : List Byte) :
    xdp b p n = some x ↔ n ≤ b.length ∧ n ≤ p.length ∧ x = xorBytes (b.take n) (p.take n) := by
  unfold xdp lanes
  by_cases h1 : n ≤ b.length <;> by_cases h2 : n ≤ p.length <;> simp [h1, h2, eq_comm]

theorem xdp_of_le (b p : List Byte) (n : Nat) (h1 : n ≤ b.length) (h2 : n ≤ p.length) :
    xdp b p n = some (xorBytes (b.take n) (p.take n)) := (xdp_eq_some _ _ _ _).2 ⟨h1, h2, rfl⟩

/-! ## Blocks -/

@[simp] theorem blockOff_eq (b : Nat) : blockOff b = 8 * b := rfl

theorem fullBlocks_eq (n : Nat) : fullBlocks n = n / 8 := rfl

@[simp] theorem remainder_val (n : Nat) : (remainder n).val = n % 8 := rfl

theorem totalBlocks_eq (n : Nat) : totalBlocks n = (n + 7) / 8 := by
  have h : totalBlocks n = n / 8 + if 0 < n % 8 then 1 else 0 := rfl
  rcases Nat.eq_zero_or_pos (n % 8) with h0 | h0
  · rw [h, if_neg (by omega)]
    omega
  · rw [h, if_pos h0]
    omega

theorem lt_totalBlocks (n i : Nat) : i < totalBlocks n ↔ 8 * i < n := by
  rw [totalBlocks_eq]; omega

theorem blockSize_eq (n i : Nat) : blockSize n i = min 8 (n - 8 * i) := rfl

/-- All that `N(b)` can be (R89). -/
theorem blockLen_eq_some (s : State) (b n : Nat) :
    s.blockLen b = some n ↔
      (b < s.fb ∧ n = 8) ∨ (b = s.fb ∧ 0 < s.rem.val ∧ n = s.rem.val) := by
  simp only [State.blockLen, Config.blockBytes]
  split
  · simp; omega
  · split
    · simp; omega
    · simp; omega

theorem more_iff (s : State) (b : Nat) : s.more b = true ↔ b < s.fb ∨ (b = s.fb ∧ 0 < s.rem.val) := by
  simp [State.more]

/-- `N(b)` has a value exactly where there is a block number `b` (R89). -/
theorem more_iff_blockLen (s : State) (b : Nat) : s.more b = true ↔ ∃ n, s.blockLen b = some n := by
  simp only [more_iff, blockLen_eq_some]
  constructor
  · rintro (h | ⟨h, h'⟩)
    · exact ⟨8, .inl ⟨h, rfl⟩⟩
    · exact ⟨_, .inr ⟨h, h', rfl⟩⟩
  · rintro ⟨n, ⟨h, -⟩ | ⟨h, h', -⟩⟩
    · exact .inl h
    · exact .inr ⟨h, h'⟩

theorem blockLen_bounds {s : State} {b n : Nat} (h : s.blockLen b = some n) : 1 ≤ n ∧ n ≤ 8 := by
  have := s.rem.isLt
  rcases (blockLen_eq_some s b n).1 h with ⟨-, rfl⟩ | ⟨-, h', rfl⟩ <;> omega

/-- `N(b)` depends on `FB` and `REM` only. -/
theorem blockLen_congr {s t : State} (hf : t.fb = s.fb) (hr : t.rem = s.rem) (b : Nat) : t.blockLen b = s.blockLen b := by
  simp [State.blockLen, hf, hr]

theorem more_congr {s t : State} (hf : t.fb = s.fb) (hr : t.rem = s.rem) (b : Nat) : t.more b = s.more b := by
  simp [State.more, hf, hr]

/-- In the split of a length `n`, block `i` has `blockSize n i` bytes (R87, R89). -/
theorem blockLen_split {s : State} {n : Nat} (hf : s.fb = fullBlocks n) (hr : s.rem = remainder n) (i : Nat)
    (hi : 8 * i < n) : s.blockLen i = some (blockSize n i) := by
  rw [blockLen_eq_some, hf, hr, fullBlocks_eq, remainder_val, blockSize_eq]
  omega

theorem more_split {s : State} {n : Nat} (hf : s.fb = fullBlocks n) (hr : s.rem = remainder n) (i : Nat) :
    s.more i = decide (8 * i < n) := by
  rw [Bool.eq_iff_iff, more_iff, hf, hr, fullBlocks_eq, remainder_val]
  simp only [decide_eq_true_eq]
  omega

/-! ## Address spaces -/

theorem cellsFrom_wf (off : Nat) (bs : List Byte) : Memory.wf (cellsFrom off bs) = true := by
  induction bs generalizing off with
  | nil => rfl
  | cons b bs ih =>
    cases bs with
    | nil => rfl
    | cons c bs =>
      have := ih (off + 1)
      simp only [cellsFrom, Memory.wf] at this ⊢
      simp [this]

/-- In every state, so after every operation, every address space is in its canonical form (R30). -/
theorem space_wf (s : State) (S : StreamId) : Memory.wf (s.space S) = true := cellsFrom_wf 0 _

theorem reset_space_wf (S : StreamId) : Memory.wf (State.reset.space S) = true := space_wf _ S

end Sys2Proof.Machine
end

