-- ==== Sys2Proof/Laws/State.lean ====
section
/-! SUPPORT. One lemma per field per update of the state, so that no later proof unfolds a record update. -/

namespace Sys2Proof.Machine

@[simp] theorem goto_lenw (p : Phase) (s : State) : (goto p s).lenw = s.lenw := rfl
@[simp] theorem goto_op (p : Phase) (s : State) : (goto p s).op = s.op := rfl
@[simp] theorem goto_len (p : Phase) (s : State) : (goto p s).len = s.len := rfl
@[simp] theorem goto_plen (p : Phase) (s : State) : (goto p s).plen = s.plen := rfl
@[simp] theorem goto_fb (p : Phase) (s : State) : (goto p s).fb = s.fb := rfl
@[simp] theorem goto_rem (p : Phase) (s : State) : (goto p s).rem = s.rem := rfl
@[simp] theorem goto_ph (p : Phase) (s : State) : (goto p s).ph = p := rfl
@[simp] theorem goto_blk (p : Phase) (s : State) : (goto p s).blk = s.blk := rfl
@[simp] theorem goto_padw (p : Phase) (s : State) : (goto p s).padw = s.padw := rfl
@[simp] theorem goto_buf (p : Phase) (s : State) : (goto p s).buf = s.buf := rfl
@[simp] theorem goto_status (p : Phase) (s : State) : (goto p s).status = s.status := rfl
@[simp] theorem goto_inContent (p : Phase) (s : State) : (goto p s).inContent = s.inContent := rfl
@[simp] theorem goto_inRc (p : Phase) (s : State) : (goto p s).inRc = s.inRc := rfl
@[simp] theorem goto_padContent (p : Phase) (s : State) : (goto p s).padContent = s.padContent := rfl
@[simp] theorem goto_padRc (p : Phase) (s : State) : (goto p s).padRc = s.padRc := rfl
@[simp] theorem goto_padWritten (p : Phase) (s : State) : (goto p s).padWritten = s.padWritten := rfl
@[simp] theorem goto_outWritten (p : Phase) (s : State) : (goto p s).outWritten = s.outWritten := rfl
@[simp] theorem goto_psAnswers (p : Phase) (s : State) : (goto p s).psAnswers = s.psAnswers := rfl
@[simp] theorem goto_inAcks (p : Phase) (s : State) : (goto p s).inAcks = s.inAcks := rfl
@[simp] theorem goto_padRdAcks (p : Phase) (s : State) : (goto p s).padRdAcks = s.padRdAcks := rfl
@[simp] theorem goto_padWrAcks (p : Phase) (s : State) : (goto p s).padWrAcks = s.padWrAcks := rfl
@[simp] theorem goto_outAcks (p : Phase) (s : State) : (goto p s).outAcks = s.outAcks := rfl
@[simp] theorem goto_cmd (p : Phase) (s : State) : (goto p s).cmd = s.cmd := rfl
@[simp] theorem goto_inputs (p : Phase) (s : State) : (goto p s).inputs = s.inputs := rfl
@[simp] theorem goto_history (p : Phase) (s : State) : (goto p s).history = s.history := rfl
@[simp] theorem goto_free (p : Phase) (s : State) : (goto p s).free = s.free := rfl

@[simp] theorem loadPadw_lenw (p : List Byte) (s : State) : (loadPadw p s).lenw = s.lenw := rfl
@[simp] theorem loadPadw_op (p : List Byte) (s : State) : (loadPadw p s).op = s.op := rfl
@[simp] theorem loadPadw_len (p : List Byte) (s : State) : (loadPadw p s).len = s.len := rfl
@[simp] theorem loadPadw_plen (p : List Byte) (s : State) : (loadPadw p s).plen = s.plen := rfl
@[simp] theorem loadPadw_fb (p : List Byte) (s : State) : (loadPadw p s).fb = s.fb := rfl
@[simp] theorem loadPadw_rem (p : List Byte) (s : State) : (loadPadw p s).rem = s.rem := rfl
@[simp] theorem loadPadw_ph (p : List Byte) (s : State) : (loadPadw p s).ph = s.ph := rfl
@[simp] theorem loadPadw_blk (p : List Byte) (s : State) : (loadPadw p s).blk = s.blk := rfl
@[simp] theorem loadPadw_padw (p : List Byte) (s : State) : (loadPadw p s).padw = p := rfl
@[simp] theorem loadPadw_buf (p : List Byte) (s : State) : (loadPadw p s).buf = s.buf := rfl
@[simp] theorem loadPadw_status (p : List Byte) (s : State) : (loadPadw p s).status = s.status := rfl
@[simp] theorem loadPadw_inContent (p : List Byte) (s : State) : (loadPadw p s).inContent = s.inContent := rfl
@[simp] theorem loadPadw_inRc (p : List Byte) (s : State) : (loadPadw p s).inRc = s.inRc := rfl
@[simp] theorem loadPadw_padContent (p : List Byte) (s : State) : (loadPadw p s).padContent = s.padContent := rfl
@[simp] theorem loadPadw_padRc (p : List Byte) (s : State) : (loadPadw p s).padRc = s.padRc := rfl
@[simp] theorem loadPadw_padWritten (p : List Byte) (s : State) : (loadPadw p s).padWritten = s.padWritten := rfl
@[simp] theorem loadPadw_outWritten (p : List Byte) (s : State) : (loadPadw p s).outWritten = s.outWritten := rfl
@[simp] theorem loadPadw_psAnswers (p : List Byte) (s : State) : (loadPadw p s).psAnswers = s.psAnswers := rfl
@[simp] theorem loadPadw_inAcks (p : List Byte) (s : State) : (loadPadw p s).inAcks = s.inAcks := rfl
@[simp] theorem loadPadw_padRdAcks (p : List Byte) (s : State) : (loadPadw p s).padRdAcks = s.padRdAcks := rfl
@[simp] theorem loadPadw_padWrAcks (p : List Byte) (s : State) : (loadPadw p s).padWrAcks = s.padWrAcks := rfl
@[simp] theorem loadPadw_outAcks (p : List Byte) (s : State) : (loadPadw p s).outAcks = s.outAcks := rfl
@[simp] theorem loadPadw_cmd (p : List Byte) (s : State) : (loadPadw p s).cmd = s.cmd := rfl
@[simp] theorem loadPadw_inputs (p : List Byte) (s : State) : (loadPadw p s).inputs = s.inputs := rfl
@[simp] theorem loadPadw_history (p : List Byte) (s : State) : (loadPadw p s).history = s.history := rfl
@[simp] theorem loadPadw_free (p : List Byte) (s : State) : (loadPadw p s).free = s.free := rfl

@[simp] theorem loadBuf_lenw (b : List Byte) (s : State) : (loadBuf b s).lenw = s.lenw := rfl
@[simp] theorem loadBuf_op (b : List Byte) (s : State) : (loadBuf b s).op = s.op := rfl
@[simp] theorem loadBuf_len (b : List Byte) (s : State) : (loadBuf b s).len = s.len := rfl
@[simp] theorem loadBuf_plen (b : List Byte) (s : State) : (loadBuf b s).plen = s.plen := rfl
@[simp] theorem loadBuf_fb (b : List Byte) (s : State) : (loadBuf b s).fb = s.fb := rfl
@[simp] theorem loadBuf_rem (b : List Byte) (s : State) : (loadBuf b s).rem = s.rem := rfl
@[simp] theorem loadBuf_ph (b : List Byte) (s : State) : (loadBuf b s).ph = s.ph := rfl
@[simp] theorem loadBuf_blk (b : List Byte) (s : State) : (loadBuf b s).blk = s.blk := rfl
@[simp] theorem loadBuf_padw (b : List Byte) (s : State) : (loadBuf b s).padw = s.padw := rfl
@[simp] theorem loadBuf_buf (b : List Byte) (s : State) : (loadBuf b s).buf = b := rfl
@[simp] theorem loadBuf_status (b : List Byte) (s : State) : (loadBuf b s).status = s.status := rfl
@[simp] theorem loadBuf_inContent (b : List Byte) (s : State) : (loadBuf b s).inContent = s.inContent := rfl
@[simp] theorem loadBuf_inRc (b : List Byte) (s : State) : (loadBuf b s).inRc = s.inRc := rfl
@[simp] theorem loadBuf_padContent (b : List Byte) (s : State) : (loadBuf b s).padContent = s.padContent := rfl
@[simp] theorem loadBuf_padRc (b : List Byte) (s : State) : (loadBuf b s).padRc = s.padRc := rfl
@[simp] theorem loadBuf_padWritten (b : List Byte) (s : State) : (loadBuf b s).padWritten = s.padWritten := rfl
@[simp] theorem loadBuf_outWritten (b : List Byte) (s : State) : (loadBuf b s).outWritten = s.outWritten := rfl
@[simp] theorem loadBuf_psAnswers (b : List Byte) (s : State) : (loadBuf b s).psAnswers = s.psAnswers := rfl
@[simp] theorem loadBuf_inAcks (b : List Byte) (s : State) : (loadBuf b s).inAcks = s.inAcks := rfl
@[simp] theorem loadBuf_padRdAcks (b : List Byte) (s : State) : (loadBuf b s).padRdAcks = s.padRdAcks := rfl
@[simp] theorem loadBuf_padWrAcks (b : List Byte) (s : State) : (loadBuf b s).padWrAcks = s.padWrAcks := rfl
@[simp] theorem loadBuf_outAcks (b : List Byte) (s : State) : (loadBuf b s).outAcks = s.outAcks := rfl
@[simp] theorem loadBuf_cmd (b : List Byte) (s : State) : (loadBuf b s).cmd = s.cmd := rfl
@[simp] theorem loadBuf_inputs (b : List Byte) (s : State) : (loadBuf b s).inputs = s.inputs := rfl
@[simp] theorem loadBuf_history (b : List Byte) (s : State) : (loadBuf b s).history = s.history := rfl
@[simp] theorem loadBuf_free (b : List Byte) (s : State) : (loadBuf b s).free = s.free := rfl

@[simp] theorem bumpBlk_lenw (s : State) : (bumpBlk s).lenw = s.lenw := rfl
@[simp] theorem bumpBlk_op (s : State) : (bumpBlk s).op = s.op := rfl
@[simp] theorem bumpBlk_len (s : State) : (bumpBlk s).len = s.len := rfl
@[simp] theorem bumpBlk_plen (s : State) : (bumpBlk s).plen = s.plen := rfl
@[simp] theorem bumpBlk_fb (s : State) : (bumpBlk s).fb = s.fb := rfl
@[simp] theorem bumpBlk_rem (s : State) : (bumpBlk s).rem = s.rem := rfl
@[simp] theorem bumpBlk_ph (s : State) : (bumpBlk s).ph = s.ph := rfl
@[simp] theorem bumpBlk_blk (s : State) : (bumpBlk s).blk = s.blk + 1 := rfl
@[simp] theorem bumpBlk_padw (s : State) : (bumpBlk s).padw = s.padw := rfl
@[simp] theorem bumpBlk_buf (s : State) : (bumpBlk s).buf = s.buf := rfl
@[simp] theorem bumpBlk_status (s : State) : (bumpBlk s).status = s.status := rfl
@[simp] theorem bumpBlk_inContent (s : State) : (bumpBlk s).inContent = s.inContent := rfl
@[simp] theorem bumpBlk_inRc (s : State) : (bumpBlk s).inRc = s.inRc := rfl
@[simp] theorem bumpBlk_padContent (s : State) : (bumpBlk s).padContent = s.padContent := rfl
@[simp] theorem bumpBlk_padRc (s : State) : (bumpBlk s).padRc = s.padRc := rfl
@[simp] theorem bumpBlk_padWritten (s : State) : (bumpBlk s).padWritten = s.padWritten := rfl
@[simp] theorem bumpBlk_outWritten (s : State) : (bumpBlk s).outWritten = s.outWritten := rfl
@[simp] theorem bumpBlk_psAnswers (s : State) : (bumpBlk s).psAnswers = s.psAnswers := rfl
@[simp] theorem bumpBlk_inAcks (s : State) : (bumpBlk s).inAcks = s.inAcks := rfl
@[simp] theorem bumpBlk_padRdAcks (s : State) : (bumpBlk s).padRdAcks = s.padRdAcks := rfl
@[simp] theorem bumpBlk_padWrAcks (s : State) : (bumpBlk s).padWrAcks = s.padWrAcks := rfl
@[simp] theorem bumpBlk_outAcks (s : State) : (bumpBlk s).outAcks = s.outAcks := rfl
@[simp] theorem bumpBlk_cmd (s : State) : (bumpBlk s).cmd = s.cmd := rfl
@[simp] theorem bumpBlk_inputs (s : State) : (bumpBlk s).inputs = s.inputs := rfl
@[simp] theorem bumpBlk_history (s : State) : (bumpBlk s).history = s.history := rfl
@[simp] theorem bumpBlk_free (s : State) : (bumpBlk s).free = s.free := rfl

@[simp] theorem endWith_lenw (v : Status) (s : State) : (endWith v s).lenw = s.lenw := rfl
@[simp] theorem endWith_op (v : Status) (s : State) : (endWith v s).op = s.op := rfl
@[simp] theorem endWith_len (v : Status) (s : State) : (endWith v s).len = s.len := rfl
@[simp] theorem endWith_plen (v : Status) (s : State) : (endWith v s).plen = s.plen := rfl
@[simp] theorem endWith_fb (v : Status) (s : State) : (endWith v s).fb = s.fb := rfl
@[simp] theorem endWith_rem (v : Status) (s : State) : (endWith v s).rem = s.rem := rfl
@[simp] theorem endWith_ph (v : Status) (s : State) : (endWith v s).ph = .done := rfl
@[simp] theorem endWith_blk (v : Status) (s : State) : (endWith v s).blk = s.blk := rfl
@[simp] theorem endWith_padw (v : Status) (s : State) : (endWith v s).padw = bytes8 (Config.padwAfterEnd s.free) := rfl
@[simp] theorem endWith_buf (v : Status) (s : State) : (endWith v s).buf = bytes8 (Config.bufAfterEnd s.free) := rfl
@[simp] theorem endWith_status (v : Status) (s : State) : (endWith v s).status = v := rfl
@[simp] theorem endWith_inContent (v : Status) (s : State) : (endWith v s).inContent = s.inContent := rfl
@[simp] theorem endWith_inRc (v : Status) (s : State) : (endWith v s).inRc = s.inRc := rfl
@[simp] theorem endWith_padContent (v : Status) (s : State) : (endWith v s).padContent = s.padContent := rfl
@[simp] theorem endWith_padRc (v : Status) (s : State) : (endWith v s).padRc = s.padRc := rfl
@[simp] theorem endWith_padWritten (v : Status) (s : State) : (endWith v s).padWritten = s.padWritten := rfl
@[simp] theorem endWith_outWritten (v : Status) (s : State) : (endWith v s).outWritten = s.outWritten := rfl
@[simp] theorem endWith_psAnswers (v : Status) (s : State) : (endWith v s).psAnswers = s.psAnswers := rfl
@[simp] theorem endWith_inAcks (v : Status) (s : State) : (endWith v s).inAcks = s.inAcks := rfl
@[simp] theorem endWith_padRdAcks (v : Status) (s : State) : (endWith v s).padRdAcks = s.padRdAcks := rfl
@[simp] theorem endWith_padWrAcks (v : Status) (s : State) : (endWith v s).padWrAcks = s.padWrAcks := rfl
@[simp] theorem endWith_outAcks (v : Status) (s : State) : (endWith v s).outAcks = s.outAcks := rfl
@[simp] theorem endWith_cmd (v : Status) (s : State) : (endWith v s).cmd = s.cmd := rfl
@[simp] theorem endWith_inputs (v : Status) (s : State) : (endWith v s).inputs = s.inputs := rfl
@[simp] theorem endWith_history (v : Status) (s : State) : (endWith v s).history = s.history := rfl
@[simp] theorem endWith_free (v : Status) (s : State) : (endWith v s).free = s.free + 1 := rfl

@[simp] theorem setCmd_lenw (c : Option CmdWord) (s : State) : (setCmd c s).lenw = s.lenw := rfl
@[simp] theorem setCmd_op (c : Option CmdWord) (s : State) : (setCmd c s).op = s.op := rfl
@[simp] theorem setCmd_len (c : Option CmdWord) (s : State) : (setCmd c s).len = s.len := rfl
@[simp] theorem setCmd_plen (c : Option CmdWord) (s : State) : (setCmd c s).plen = s.plen := rfl
@[simp] theorem setCmd_fb (c : Option CmdWord) (s : State) : (setCmd c s).fb = s.fb := rfl
@[simp] theorem setCmd_rem (c : Option CmdWord) (s : State) : (setCmd c s).rem = s.rem := rfl
@[simp] theorem setCmd_ph (c : Option CmdWord) (s : State) : (setCmd c s).ph = s.ph := rfl
@[simp] theorem setCmd_blk (c : Option CmdWord) (s : State) : (setCmd c s).blk = s.blk := rfl
@[simp] theorem setCmd_padw (c : Option CmdWord) (s : State) : (setCmd c s).padw = s.padw := rfl
@[simp] theorem setCmd_buf (c : Option CmdWord) (s : State) : (setCmd c s).buf = s.buf := rfl
@[simp] theorem setCmd_status (c : Option CmdWord) (s : State) : (setCmd c s).status = s.status := rfl
@[simp] theorem setCmd_inContent (c : Option CmdWord) (s : State) : (setCmd c s).inContent = s.inContent := rfl
@[simp] theorem setCmd_inRc (c : Option CmdWord) (s : State) : (setCmd c s).inRc = s.inRc := rfl
@[simp] theorem setCmd_padContent (c : Option CmdWord) (s : State) : (setCmd c s).padContent = s.padContent := rfl
@[simp] theorem setCmd_padRc (c : Option CmdWord) (s : State) : (setCmd c s).padRc = s.padRc := rfl
@[simp] theorem setCmd_padWritten (c : Option CmdWord) (s : State) : (setCmd c s).padWritten = s.padWritten := rfl
@[simp] theorem setCmd_outWritten (c : Option CmdWord) (s : State) : (setCmd c s).outWritten = s.outWritten := rfl
@[simp] theorem setCmd_psAnswers (c : Option CmdWord) (s : State) : (setCmd c s).psAnswers = s.psAnswers := rfl
@[simp] theorem setCmd_inAcks (c : Option CmdWord) (s : State) : (setCmd c s).inAcks = s.inAcks := rfl
@[simp] theorem setCmd_padRdAcks (c : Option CmdWord) (s : State) : (setCmd c s).padRdAcks = s.padRdAcks := rfl
@[simp] theorem setCmd_padWrAcks (c : Option CmdWord) (s : State) : (setCmd c s).padWrAcks = s.padWrAcks := rfl
@[simp] theorem setCmd_outAcks (c : Option CmdWord) (s : State) : (setCmd c s).outAcks = s.outAcks := rfl
@[simp] theorem setCmd_cmd (c : Option CmdWord) (s : State) : (setCmd c s).cmd = c := rfl
@[simp] theorem setCmd_inputs (c : Option CmdWord) (s : State) : (setCmd c s).inputs = s.inputs := rfl
@[simp] theorem setCmd_history (c : Option CmdWord) (s : State) : (setCmd c s).history = s.history := rfl
@[simp] theorem setCmd_free (c : Option CmdWord) (s : State) : (setCmd c s).free = s.free := rfl

@[simp] theorem setInputs_lenw (l : List Input) (s : State) : (setInputs l s).lenw = s.lenw := rfl
@[simp] theorem setInputs_op (l : List Input) (s : State) : (setInputs l s).op = s.op := rfl
@[simp] theorem setInputs_len (l : List Input) (s : State) : (setInputs l s).len = s.len := rfl
@[simp] theorem setInputs_plen (l : List Input) (s : State) : (setInputs l s).plen = s.plen := rfl
@[simp] theorem setInputs_fb (l : List Input) (s : State) : (setInputs l s).fb = s.fb := rfl
@[simp] theorem setInputs_rem (l : List Input) (s : State) : (setInputs l s).rem = s.rem := rfl
@[simp] theorem setInputs_ph (l : List Input) (s : State) : (setInputs l s).ph = s.ph := rfl
@[simp] theorem setInputs_blk (l : List Input) (s : State) : (setInputs l s).blk = s.blk := rfl
@[simp] theorem setInputs_padw (l : List Input) (s : State) : (setInputs l s).padw = s.padw := rfl
@[simp] theorem setInputs_buf (l : List Input) (s : State) : (setInputs l s).buf = s.buf := rfl
@[simp] theorem setInputs_status (l : List Input) (s : State) : (setInputs l s).status = s.status := rfl
@[simp] theorem setInputs_inContent (l : List Input) (s : State) : (setInputs l s).inContent = s.inContent := rfl
@[simp] theorem setInputs_inRc (l : List Input) (s : State) : (setInputs l s).inRc = s.inRc := rfl
@[simp] theorem setInputs_padContent (l : List Input) (s : State) : (setInputs l s).padContent = s.padContent := rfl
@[simp] theorem setInputs_padRc (l : List Input) (s : State) : (setInputs l s).padRc = s.padRc := rfl
@[simp] theorem setInputs_padWritten (l : List Input) (s : State) : (setInputs l s).padWritten = s.padWritten := rfl
@[simp] theorem setInputs_outWritten (l : List Input) (s : State) : (setInputs l s).outWritten = s.outWritten := rfl
@[simp] theorem setInputs_psAnswers (l : List Input) (s : State) : (setInputs l s).psAnswers = s.psAnswers := rfl
@[simp] theorem setInputs_inAcks (l : List Input) (s : State) : (setInputs l s).inAcks = s.inAcks := rfl
@[simp] theorem setInputs_padRdAcks (l : List Input) (s : State) : (setInputs l s).padRdAcks = s.padRdAcks := rfl
@[simp] theorem setInputs_padWrAcks (l : List Input) (s : State) : (setInputs l s).padWrAcks = s.padWrAcks := rfl
@[simp] theorem setInputs_outAcks (l : List Input) (s : State) : (setInputs l s).outAcks = s.outAcks := rfl
@[simp] theorem setInputs_cmd (l : List Input) (s : State) : (setInputs l s).cmd = s.cmd := rfl
@[simp] theorem setInputs_inputs (l : List Input) (s : State) : (setInputs l s).inputs = l := rfl
@[simp] theorem setInputs_history (l : List Input) (s : State) : (setInputs l s).history = s.history := rfl
@[simp] theorem setInputs_free (l : List Input) (s : State) : (setInputs l s).free = s.free := rfl

@[simp] theorem setInContent_lenw (b : List Byte) (s : State) : (setInContent b s).lenw = s.lenw := rfl
@[simp] theorem setInContent_op (b : List Byte) (s : State) : (setInContent b s).op = s.op := rfl
@[simp] theorem setInContent_len (b : List Byte) (s : State) : (setInContent b s).len = s.len := rfl
@[simp] theorem setInContent_plen (b : List Byte) (s : State) : (setInContent b s).plen = s.plen := rfl
@[simp] theorem setInContent_fb (b : List Byte) (s : State) : (setInContent b s).fb = s.fb := rfl
@[simp] theorem setInContent_rem (b : List Byte) (s : State) : (setInContent b s).rem = s.rem := rfl
@[simp] theorem setInContent_ph (b : List Byte) (s : State) : (setInContent b s).ph = s.ph := rfl
@[simp] theorem setInContent_blk (b : List Byte) (s : State) : (setInContent b s).blk = s.blk := rfl
@[simp] theorem setInContent_padw (b : List Byte) (s : State) : (setInContent b s).padw = s.padw := rfl
@[simp] theorem setInContent_buf (b : List Byte) (s : State) : (setInContent b s).buf = s.buf := rfl
@[simp] theorem setInContent_status (b : List Byte) (s : State) : (setInContent b s).status = s.status := rfl
@[simp] theorem setInContent_inContent (b : List Byte) (s : State) : (setInContent b s).inContent = b := rfl
@[simp] theorem setInContent_inRc (b : List Byte) (s : State) : (setInContent b s).inRc = s.inRc := rfl
@[simp] theorem setInContent_padContent (b : List Byte) (s : State) : (setInContent b s).padContent = s.padContent := rfl
@[simp] theorem setInContent_padRc (b : List Byte) (s : State) : (setInContent b s).padRc = s.padRc := rfl
@[simp] theorem setInContent_padWritten (b : List Byte) (s : State) : (setInContent b s).padWritten = s.padWritten := rfl
@[simp] theorem setInContent_outWritten (b : List Byte) (s : State) : (setInContent b s).outWritten = s.outWritten := rfl
@[simp] theorem setInContent_psAnswers (b : List Byte) (s : State) : (setInContent b s).psAnswers = s.psAnswers := rfl
@[simp] theorem setInContent_inAcks (b : List Byte) (s : State) : (setInContent b s).inAcks = s.inAcks := rfl
@[simp] theorem setInContent_padRdAcks (b : List Byte) (s : State) : (setInContent b s).padRdAcks = s.padRdAcks := rfl
@[simp] theorem setInContent_padWrAcks (b : List Byte) (s : State) : (setInContent b s).padWrAcks = s.padWrAcks := rfl
@[simp] theorem setInContent_outAcks (b : List Byte) (s : State) : (setInContent b s).outAcks = s.outAcks := rfl
@[simp] theorem setInContent_cmd (b : List Byte) (s : State) : (setInContent b s).cmd = s.cmd := rfl
@[simp] theorem setInContent_inputs (b : List Byte) (s : State) : (setInContent b s).inputs = s.inputs := rfl
@[simp] theorem setInContent_history (b : List Byte) (s : State) : (setInContent b s).history = s.history := rfl
@[simp] theorem setInContent_free (b : List Byte) (s : State) : (setInContent b s).free = s.free := rfl

@[simp] theorem setPadContent_lenw (b : List Byte) (s : State) : (setPadContent b s).lenw = s.lenw := rfl
@[simp] theorem setPadContent_op (b : List Byte) (s : State) : (setPadContent b s).op = s.op := rfl
@[simp] theorem setPadContent_len (b : List Byte) (s : State) : (setPadContent b s).len = s.len := rfl
@[simp] theorem setPadContent_plen (b : List Byte) (s : State) : (setPadContent b s).plen = s.plen := rfl
@[simp] theorem setPadContent_fb (b : List Byte) (s : State) : (setPadContent b s).fb = s.fb := rfl
@[simp] theorem setPadContent_rem (b : List Byte) (s : State) : (setPadContent b s).rem = s.rem := rfl
@[simp] theorem setPadContent_ph (b : List Byte) (s : State) : (setPadContent b s).ph = s.ph := rfl
@[simp] theorem setPadContent_blk (b : List Byte) (s : State) : (setPadContent b s).blk = s.blk := rfl
@[simp] theorem setPadContent_padw (b : List Byte) (s : State) : (setPadContent b s).padw = s.padw := rfl
@[simp] theorem setPadContent_buf (b : List Byte) (s : State) : (setPadContent b s).buf = s.buf := rfl
@[simp] theorem setPadContent_status (b : List Byte) (s : State) : (setPadContent b s).status = s.status := rfl
@[simp] theorem setPadContent_inContent (b : List Byte) (s : State) : (setPadContent b s).inContent = s.inContent := rfl
@[simp] theorem setPadContent_inRc (b : List Byte) (s : State) : (setPadContent b s).inRc = s.inRc := rfl
@[simp] theorem setPadContent_padContent (b : List Byte) (s : State) : (setPadContent b s).padContent = b := rfl
@[simp] theorem setPadContent_padRc (b : List Byte) (s : State) : (setPadContent b s).padRc = s.padRc := rfl
@[simp] theorem setPadContent_padWritten (b : List Byte) (s : State) : (setPadContent b s).padWritten = s.padWritten := rfl
@[simp] theorem setPadContent_outWritten (b : List Byte) (s : State) : (setPadContent b s).outWritten = s.outWritten := rfl
@[simp] theorem setPadContent_psAnswers (b : List Byte) (s : State) : (setPadContent b s).psAnswers = s.psAnswers := rfl
@[simp] theorem setPadContent_inAcks (b : List Byte) (s : State) : (setPadContent b s).inAcks = s.inAcks := rfl
@[simp] theorem setPadContent_padRdAcks (b : List Byte) (s : State) : (setPadContent b s).padRdAcks = s.padRdAcks := rfl
@[simp] theorem setPadContent_padWrAcks (b : List Byte) (s : State) : (setPadContent b s).padWrAcks = s.padWrAcks := rfl
@[simp] theorem setPadContent_outAcks (b : List Byte) (s : State) : (setPadContent b s).outAcks = s.outAcks := rfl
@[simp] theorem setPadContent_cmd (b : List Byte) (s : State) : (setPadContent b s).cmd = s.cmd := rfl
@[simp] theorem setPadContent_inputs (b : List Byte) (s : State) : (setPadContent b s).inputs = s.inputs := rfl
@[simp] theorem setPadContent_history (b : List Byte) (s : State) : (setPadContent b s).history = s.history := rfl
@[simp] theorem setPadContent_free (b : List Byte) (s : State) : (setPadContent b s).free = s.free := rfl

@[simp] theorem setPsAnswers_lenw (l : List PsAnswer) (s : State) : (setPsAnswers l s).lenw = s.lenw := rfl
@[simp] theorem setPsAnswers_op (l : List PsAnswer) (s : State) : (setPsAnswers l s).op = s.op := rfl
@[simp] theorem setPsAnswers_len (l : List PsAnswer) (s : State) : (setPsAnswers l s).len = s.len := rfl
@[simp] theorem setPsAnswers_plen (l : List PsAnswer) (s : State) : (setPsAnswers l s).plen = s.plen := rfl
@[simp] theorem setPsAnswers_fb (l : List PsAnswer) (s : State) : (setPsAnswers l s).fb = s.fb := rfl
@[simp] theorem setPsAnswers_rem (l : List PsAnswer) (s : State) : (setPsAnswers l s).rem = s.rem := rfl
@[simp] theorem setPsAnswers_ph (l : List PsAnswer) (s : State) : (setPsAnswers l s).ph = s.ph := rfl
@[simp] theorem setPsAnswers_blk (l : List PsAnswer) (s : State) : (setPsAnswers l s).blk = s.blk := rfl
@[simp] theorem setPsAnswers_padw (l : List PsAnswer) (s : State) : (setPsAnswers l s).padw = s.padw := rfl
@[simp] theorem setPsAnswers_buf (l : List PsAnswer) (s : State) : (setPsAnswers l s).buf = s.buf := rfl
@[simp] theorem setPsAnswers_status (l : List PsAnswer) (s : State) : (setPsAnswers l s).status = s.status := rfl
@[simp] theorem setPsAnswers_inContent (l : List PsAnswer) (s : State) : (setPsAnswers l s).inContent = s.inContent := rfl
@[simp] theorem setPsAnswers_inRc (l : List PsAnswer) (s : State) : (setPsAnswers l s).inRc = s.inRc := rfl
@[simp] theorem setPsAnswers_padContent (l : List PsAnswer) (s : State) : (setPsAnswers l s).padContent = s.padContent := rfl
@[simp] theorem setPsAnswers_padRc (l : List PsAnswer) (s : State) : (setPsAnswers l s).padRc = s.padRc := rfl
@[simp] theorem setPsAnswers_padWritten (l : List PsAnswer) (s : State) : (setPsAnswers l s).padWritten = s.padWritten := rfl
@[simp] theorem setPsAnswers_outWritten (l : List PsAnswer) (s : State) : (setPsAnswers l s).outWritten = s.outWritten := rfl
@[simp] theorem setPsAnswers_psAnswers (l : List PsAnswer) (s : State) : (setPsAnswers l s).psAnswers = l := rfl
@[simp] theorem setPsAnswers_inAcks (l : List PsAnswer) (s : State) : (setPsAnswers l s).inAcks = s.inAcks := rfl
@[simp] theorem setPsAnswers_padRdAcks (l : List PsAnswer) (s : State) : (setPsAnswers l s).padRdAcks = s.padRdAcks := rfl
@[simp] theorem setPsAnswers_padWrAcks (l : List PsAnswer) (s : State) : (setPsAnswers l s).padWrAcks = s.padWrAcks := rfl
@[simp] theorem setPsAnswers_outAcks (l : List PsAnswer) (s : State) : (setPsAnswers l s).outAcks = s.outAcks := rfl
@[simp] theorem setPsAnswers_cmd (l : List PsAnswer) (s : State) : (setPsAnswers l s).cmd = s.cmd := rfl
@[simp] theorem setPsAnswers_inputs (l : List PsAnswer) (s : State) : (setPsAnswers l s).inputs = s.inputs := rfl
@[simp] theorem setPsAnswers_history (l : List PsAnswer) (s : State) : (setPsAnswers l s).history = s.history := rfl
@[simp] theorem setPsAnswers_free (l : List PsAnswer) (s : State) : (setPsAnswers l s).free = s.free := rfl

@[simp] theorem setInAcks_lenw (a : Acks) (s : State) : (setInAcks a s).lenw = s.lenw := rfl
@[simp] theorem setInAcks_op (a : Acks) (s : State) : (setInAcks a s).op = s.op := rfl
@[simp] theorem setInAcks_len (a : Acks) (s : State) : (setInAcks a s).len = s.len := rfl
@[simp] theorem setInAcks_plen (a : Acks) (s : State) : (setInAcks a s).plen = s.plen := rfl
@[simp] theorem setInAcks_fb (a : Acks) (s : State) : (setInAcks a s).fb = s.fb := rfl
@[simp] theorem setInAcks_rem (a : Acks) (s : State) : (setInAcks a s).rem = s.rem := rfl
@[simp] theorem setInAcks_ph (a : Acks) (s : State) : (setInAcks a s).ph = s.ph := rfl
@[simp] theorem setInAcks_blk (a : Acks) (s : State) : (setInAcks a s).blk = s.blk := rfl
@[simp] theorem setInAcks_padw (a : Acks) (s : State) : (setInAcks a s).padw = s.padw := rfl
@[simp] theorem setInAcks_buf (a : Acks) (s : State) : (setInAcks a s).buf = s.buf := rfl
@[simp] theorem setInAcks_status (a : Acks) (s : State) : (setInAcks a s).status = s.status := rfl
@[simp] theorem setInAcks_inContent (a : Acks) (s : State) : (setInAcks a s).inContent = s.inContent := rfl
@[simp] theorem setInAcks_inRc (a : Acks) (s : State) : (setInAcks a s).inRc = s.inRc := rfl
@[simp] theorem setInAcks_padContent (a : Acks) (s : State) : (setInAcks a s).padContent = s.padContent := rfl
@[simp] theorem setInAcks_padRc (a : Acks) (s : State) : (setInAcks a s).padRc = s.padRc := rfl
@[simp] theorem setInAcks_padWritten (a : Acks) (s : State) : (setInAcks a s).padWritten = s.padWritten := rfl
@[simp] theorem setInAcks_outWritten (a : Acks) (s : State) : (setInAcks a s).outWritten = s.outWritten := rfl
@[simp] theorem setInAcks_psAnswers (a : Acks) (s : State) : (setInAcks a s).psAnswers = s.psAnswers := rfl
@[simp] theorem setInAcks_inAcks (a : Acks) (s : State) : (setInAcks a s).inAcks = a := rfl
@[simp] theorem setInAcks_padRdAcks (a : Acks) (s : State) : (setInAcks a s).padRdAcks = s.padRdAcks := rfl
@[simp] theorem setInAcks_padWrAcks (a : Acks) (s : State) : (setInAcks a s).padWrAcks = s.padWrAcks := rfl
@[simp] theorem setInAcks_outAcks (a : Acks) (s : State) : (setInAcks a s).outAcks = s.outAcks := rfl
@[simp] theorem setInAcks_cmd (a : Acks) (s : State) : (setInAcks a s).cmd = s.cmd := rfl
@[simp] theorem setInAcks_inputs (a : Acks) (s : State) : (setInAcks a s).inputs = s.inputs := rfl
@[simp] theorem setInAcks_history (a : Acks) (s : State) : (setInAcks a s).history = s.history := rfl
@[simp] theorem setInAcks_free (a : Acks) (s : State) : (setInAcks a s).free = s.free := rfl

@[simp] theorem setPadRdAcks_lenw (a : Acks) (s : State) : (setPadRdAcks a s).lenw = s.lenw := rfl
@[simp] theorem setPadRdAcks_op (a : Acks) (s : State) : (setPadRdAcks a s).op = s.op := rfl
@[simp] theorem setPadRdAcks_len (a : Acks) (s : State) : (setPadRdAcks a s).len = s.len := rfl
@[simp] theorem setPadRdAcks_plen (a : Acks) (s : State) : (setPadRdAcks a s).plen = s.plen := rfl
@[simp] theorem setPadRdAcks_fb (a : Acks) (s : State) : (setPadRdAcks a s).fb = s.fb := rfl
@[simp] theorem setPadRdAcks_rem (a : Acks) (s : State) : (setPadRdAcks a s).rem = s.rem := rfl
@[simp] theorem setPadRdAcks_ph (a : Acks) (s : State) : (setPadRdAcks a s).ph = s.ph := rfl
@[simp] theorem setPadRdAcks_blk (a : Acks) (s : State) : (setPadRdAcks a s).blk = s.blk := rfl
@[simp] theorem setPadRdAcks_padw (a : Acks) (s : State) : (setPadRdAcks a s).padw = s.padw := rfl
@[simp] theorem setPadRdAcks_buf (a : Acks) (s : State) : (setPadRdAcks a s).buf = s.buf := rfl
@[simp] theorem setPadRdAcks_status (a : Acks) (s : State) : (setPadRdAcks a s).status = s.status := rfl
@[simp] theorem setPadRdAcks_inContent (a : Acks) (s : State) : (setPadRdAcks a s).inContent = s.inContent := rfl
@[simp] theorem setPadRdAcks_inRc (a : Acks) (s : State) : (setPadRdAcks a s).inRc = s.inRc := rfl
@[simp] theorem setPadRdAcks_padContent (a : Acks) (s : State) : (setPadRdAcks a s).padContent = s.padContent := rfl
@[simp] theorem setPadRdAcks_padRc (a : Acks) (s : State) : (setPadRdAcks a s).padRc = s.padRc := rfl
@[simp] theorem setPadRdAcks_padWritten (a : Acks) (s : State) : (setPadRdAcks a s).padWritten = s.padWritten := rfl
@[simp] theorem setPadRdAcks_outWritten (a : Acks) (s : State) : (setPadRdAcks a s).outWritten = s.outWritten := rfl
@[simp] theorem setPadRdAcks_psAnswers (a : Acks) (s : State) : (setPadRdAcks a s).psAnswers = s.psAnswers := rfl
@[simp] theorem setPadRdAcks_inAcks (a : Acks) (s : State) : (setPadRdAcks a s).inAcks = s.inAcks := rfl
@[simp] theorem setPadRdAcks_padRdAcks (a : Acks) (s : State) : (setPadRdAcks a s).padRdAcks = a := rfl
@[simp] theorem setPadRdAcks_padWrAcks (a : Acks) (s : State) : (setPadRdAcks a s).padWrAcks = s.padWrAcks := rfl
@[simp] theorem setPadRdAcks_outAcks (a : Acks) (s : State) : (setPadRdAcks a s).outAcks = s.outAcks := rfl
@[simp] theorem setPadRdAcks_cmd (a : Acks) (s : State) : (setPadRdAcks a s).cmd = s.cmd := rfl
@[simp] theorem setPadRdAcks_inputs (a : Acks) (s : State) : (setPadRdAcks a s).inputs = s.inputs := rfl
@[simp] theorem setPadRdAcks_history (a : Acks) (s : State) : (setPadRdAcks a s).history = s.history := rfl
@[simp] theorem setPadRdAcks_free (a : Acks) (s : State) : (setPadRdAcks a s).free = s.free := rfl

@[simp] theorem setPadWrAcks_lenw (a : Acks) (s : State) : (setPadWrAcks a s).lenw = s.lenw := rfl
@[simp] theorem setPadWrAcks_op (a : Acks) (s : State) : (setPadWrAcks a s).op = s.op := rfl
@[simp] theorem setPadWrAcks_len (a : Acks) (s : State) : (setPadWrAcks a s).len = s.len := rfl
@[simp] theorem setPadWrAcks_plen (a : Acks) (s : State) : (setPadWrAcks a s).plen = s.plen := rfl
@[simp] theorem setPadWrAcks_fb (a : Acks) (s : State) : (setPadWrAcks a s).fb = s.fb := rfl
@[simp] theorem setPadWrAcks_rem (a : Acks) (s : State) : (setPadWrAcks a s).rem = s.rem := rfl
@[simp] theorem setPadWrAcks_ph (a : Acks) (s : State) : (setPadWrAcks a s).ph = s.ph := rfl
@[simp] theorem setPadWrAcks_blk (a : Acks) (s : State) : (setPadWrAcks a s).blk = s.blk := rfl
@[simp] theorem setPadWrAcks_padw (a : Acks) (s : State) : (setPadWrAcks a s).padw = s.padw := rfl
@[simp] theorem setPadWrAcks_buf (a : Acks) (s : State) : (setPadWrAcks a s).buf = s.buf := rfl
@[simp] theorem setPadWrAcks_status (a : Acks) (s : State) : (setPadWrAcks a s).status = s.status := rfl
@[simp] theorem setPadWrAcks_inContent (a : Acks) (s : State) : (setPadWrAcks a s).inContent = s.inContent := rfl
@[simp] theorem setPadWrAcks_inRc (a : Acks) (s : State) : (setPadWrAcks a s).inRc = s.inRc := rfl
@[simp] theorem setPadWrAcks_padContent (a : Acks) (s : State) : (setPadWrAcks a s).padContent = s.padContent := rfl
@[simp] theorem setPadWrAcks_padRc (a : Acks) (s : State) : (setPadWrAcks a s).padRc = s.padRc := rfl
@[simp] theorem setPadWrAcks_padWritten (a : Acks) (s : State) : (setPadWrAcks a s).padWritten = s.padWritten := rfl
@[simp] theorem setPadWrAcks_outWritten (a : Acks) (s : State) : (setPadWrAcks a s).outWritten = s.outWritten := rfl
@[simp] theorem setPadWrAcks_psAnswers (a : Acks) (s : State) : (setPadWrAcks a s).psAnswers = s.psAnswers := rfl
@[simp] theorem setPadWrAcks_inAcks (a : Acks) (s : State) : (setPadWrAcks a s).inAcks = s.inAcks := rfl
@[simp] theorem setPadWrAcks_padRdAcks (a : Acks) (s : State) : (setPadWrAcks a s).padRdAcks = s.padRdAcks := rfl
@[simp] theorem setPadWrAcks_padWrAcks (a : Acks) (s : State) : (setPadWrAcks a s).padWrAcks = a := rfl
@[simp] theorem setPadWrAcks_outAcks (a : Acks) (s : State) : (setPadWrAcks a s).outAcks = s.outAcks := rfl
@[simp] theorem setPadWrAcks_cmd (a : Acks) (s : State) : (setPadWrAcks a s).cmd = s.cmd := rfl
@[simp] theorem setPadWrAcks_inputs (a : Acks) (s : State) : (setPadWrAcks a s).inputs = s.inputs := rfl
@[simp] theorem setPadWrAcks_history (a : Acks) (s : State) : (setPadWrAcks a s).history = s.history := rfl
@[simp] theorem setPadWrAcks_free (a : Acks) (s : State) : (setPadWrAcks a s).free = s.free := rfl

@[simp] theorem setOutAcks_lenw (a : Acks) (s : State) : (setOutAcks a s).lenw = s.lenw := rfl
@[simp] theorem setOutAcks_op (a : Acks) (s : State) : (setOutAcks a s).op = s.op := rfl
@[simp] theorem setOutAcks_len (a : Acks) (s : State) : (setOutAcks a s).len = s.len := rfl
@[simp] theorem setOutAcks_plen (a : Acks) (s : State) : (setOutAcks a s).plen = s.plen := rfl
@[simp] theorem setOutAcks_fb (a : Acks) (s : State) : (setOutAcks a s).fb = s.fb := rfl
@[simp] theorem setOutAcks_rem (a : Acks) (s : State) : (setOutAcks a s).rem = s.rem := rfl
@[simp] theorem setOutAcks_ph (a : Acks) (s : State) : (setOutAcks a s).ph = s.ph := rfl
@[simp] theorem setOutAcks_blk (a : Acks) (s : State) : (setOutAcks a s).blk = s.blk := rfl
@[simp] theorem setOutAcks_padw (a : Acks) (s : State) : (setOutAcks a s).padw = s.padw := rfl
@[simp] theorem setOutAcks_buf (a : Acks) (s : State) : (setOutAcks a s).buf = s.buf := rfl
@[simp] theorem setOutAcks_status (a : Acks) (s : State) : (setOutAcks a s).status = s.status := rfl
@[simp] theorem setOutAcks_inContent (a : Acks) (s : State) : (setOutAcks a s).inContent = s.inContent := rfl
@[simp] theorem setOutAcks_inRc (a : Acks) (s : State) : (setOutAcks a s).inRc = s.inRc := rfl
@[simp] theorem setOutAcks_padContent (a : Acks) (s : State) : (setOutAcks a s).padContent = s.padContent := rfl
@[simp] theorem setOutAcks_padRc (a : Acks) (s : State) : (setOutAcks a s).padRc = s.padRc := rfl
@[simp] theorem setOutAcks_padWritten (a : Acks) (s : State) : (setOutAcks a s).padWritten = s.padWritten := rfl
@[simp] theorem setOutAcks_outWritten (a : Acks) (s : State) : (setOutAcks a s).outWritten = s.outWritten := rfl
@[simp] theorem setOutAcks_psAnswers (a : Acks) (s : State) : (setOutAcks a s).psAnswers = s.psAnswers := rfl
@[simp] theorem setOutAcks_inAcks (a : Acks) (s : State) : (setOutAcks a s).inAcks = s.inAcks := rfl
@[simp] theorem setOutAcks_padRdAcks (a : Acks) (s : State) : (setOutAcks a s).padRdAcks = s.padRdAcks := rfl
@[simp] theorem setOutAcks_padWrAcks (a : Acks) (s : State) : (setOutAcks a s).padWrAcks = s.padWrAcks := rfl
@[simp] theorem setOutAcks_outAcks (a : Acks) (s : State) : (setOutAcks a s).outAcks = a := rfl
@[simp] theorem setOutAcks_cmd (a : Acks) (s : State) : (setOutAcks a s).cmd = s.cmd := rfl
@[simp] theorem setOutAcks_inputs (a : Acks) (s : State) : (setOutAcks a s).inputs = s.inputs := rfl
@[simp] theorem setOutAcks_history (a : Acks) (s : State) : (setOutAcks a s).history = s.history := rfl
@[simp] theorem setOutAcks_free (a : Acks) (s : State) : (setOutAcks a s).free = s.free := rfl

@[simp] theorem setFree_lenw (n : Nat) (s : State) : (setFree n s).lenw = s.lenw := rfl
@[simp] theorem setFree_op (n : Nat) (s : State) : (setFree n s).op = s.op := rfl
@[simp] theorem setFree_len (n : Nat) (s : State) : (setFree n s).len = s.len := rfl
@[simp] theorem setFree_plen (n : Nat) (s : State) : (setFree n s).plen = s.plen := rfl
@[simp] theorem setFree_fb (n : Nat) (s : State) : (setFree n s).fb = s.fb := rfl
@[simp] theorem setFree_rem (n : Nat) (s : State) : (setFree n s).rem = s.rem := rfl
@[simp] theorem setFree_ph (n : Nat) (s : State) : (setFree n s).ph = s.ph := rfl
@[simp] theorem setFree_blk (n : Nat) (s : State) : (setFree n s).blk = s.blk := rfl
@[simp] theorem setFree_padw (n : Nat) (s : State) : (setFree n s).padw = s.padw := rfl
@[simp] theorem setFree_buf (n : Nat) (s : State) : (setFree n s).buf = s.buf := rfl
@[simp] theorem setFree_status (n : Nat) (s : State) : (setFree n s).status = s.status := rfl
@[simp] theorem setFree_inContent (n : Nat) (s : State) : (setFree n s).inContent = s.inContent := rfl
@[simp] theorem setFree_inRc (n : Nat) (s : State) : (setFree n s).inRc = s.inRc := rfl
@[simp] theorem setFree_padContent (n : Nat) (s : State) : (setFree n s).padContent = s.padContent := rfl
@[simp] theorem setFree_padRc (n : Nat) (s : State) : (setFree n s).padRc = s.padRc := rfl
@[simp] theorem setFree_padWritten (n : Nat) (s : State) : (setFree n s).padWritten = s.padWritten := rfl
@[simp] theorem setFree_outWritten (n : Nat) (s : State) : (setFree n s).outWritten = s.outWritten := rfl
@[simp] theorem setFree_psAnswers (n : Nat) (s : State) : (setFree n s).psAnswers = s.psAnswers := rfl
@[simp] theorem setFree_inAcks (n : Nat) (s : State) : (setFree n s).inAcks = s.inAcks := rfl
@[simp] theorem setFree_padRdAcks (n : Nat) (s : State) : (setFree n s).padRdAcks = s.padRdAcks := rfl
@[simp] theorem setFree_padWrAcks (n : Nat) (s : State) : (setFree n s).padWrAcks = s.padWrAcks := rfl
@[simp] theorem setFree_outAcks (n : Nat) (s : State) : (setFree n s).outAcks = s.outAcks := rfl
@[simp] theorem setFree_cmd (n : Nat) (s : State) : (setFree n s).cmd = s.cmd := rfl
@[simp] theorem setFree_inputs (n : Nat) (s : State) : (setFree n s).inputs = s.inputs := rfl
@[simp] theorem setFree_history (n : Nat) (s : State) : (setFree n s).history = s.history := rfl
@[simp] theorem setFree_free (n : Nat) (s : State) : (setFree n s).free = n := rfl

@[simp] theorem record_lenw (e : Event) (s : State) : (record e s).lenw = s.lenw := rfl
@[simp] theorem record_op (e : Event) (s : State) : (record e s).op = s.op := rfl
@[simp] theorem record_len (e : Event) (s : State) : (record e s).len = s.len := rfl
@[simp] theorem record_plen (e : Event) (s : State) : (record e s).plen = s.plen := rfl
@[simp] theorem record_fb (e : Event) (s : State) : (record e s).fb = s.fb := rfl
@[simp] theorem record_rem (e : Event) (s : State) : (record e s).rem = s.rem := rfl
@[simp] theorem record_ph (e : Event) (s : State) : (record e s).ph = s.ph := rfl
@[simp] theorem record_blk (e : Event) (s : State) : (record e s).blk = s.blk := rfl
@[simp] theorem record_padw (e : Event) (s : State) : (record e s).padw = s.padw := rfl
@[simp] theorem record_buf (e : Event) (s : State) : (record e s).buf = s.buf := rfl
@[simp] theorem record_status (e : Event) (s : State) : (record e s).status = s.status := rfl
@[simp] theorem record_inContent (e : Event) (s : State) : (record e s).inContent = s.inContent := rfl
@[simp] theorem record_inRc (e : Event) (s : State) : (record e s).inRc = s.inRc := rfl
@[simp] theorem record_padContent (e : Event) (s : State) : (record e s).padContent = s.padContent := rfl
@[simp] theorem record_padRc (e : Event) (s : State) : (record e s).padRc = s.padRc := rfl
@[simp] theorem record_padWritten (e : Event) (s : State) : (record e s).padWritten = s.padWritten := rfl
@[simp] theorem record_outWritten (e : Event) (s : State) : (record e s).outWritten = s.outWritten := rfl
@[simp] theorem record_psAnswers (e : Event) (s : State) : (record e s).psAnswers = s.psAnswers := rfl
@[simp] theorem record_inAcks (e : Event) (s : State) : (record e s).inAcks = s.inAcks := rfl
@[simp] theorem record_padRdAcks (e : Event) (s : State) : (record e s).padRdAcks = s.padRdAcks := rfl
@[simp] theorem record_padWrAcks (e : Event) (s : State) : (record e s).padWrAcks = s.padWrAcks := rfl
@[simp] theorem record_outAcks (e : Event) (s : State) : (record e s).outAcks = s.outAcks := rfl
@[simp] theorem record_cmd (e : Event) (s : State) : (record e s).cmd = s.cmd := rfl
@[simp] theorem record_inputs (e : Event) (s : State) : (record e s).inputs = s.inputs := rfl
@[simp] theorem record_history (e : Event) (s : State) : (record e s).history = s.history ++ [e] := rfl
@[simp] theorem record_free (e : Event) (s : State) : (record e s).free = s.free := rfl

@[simp] theorem raise_lenw (k : Failure) (s : State) : (raise k s).lenw = s.lenw := rfl
@[simp] theorem raise_op (k : Failure) (s : State) : (raise k s).op = s.op := rfl
@[simp] theorem raise_len (k : Failure) (s : State) : (raise k s).len = s.len := rfl
@[simp] theorem raise_plen (k : Failure) (s : State) : (raise k s).plen = s.plen := rfl
@[simp] theorem raise_fb (k : Failure) (s : State) : (raise k s).fb = s.fb := rfl
@[simp] theorem raise_rem (k : Failure) (s : State) : (raise k s).rem = s.rem := rfl
@[simp] theorem raise_ph (k : Failure) (s : State) : (raise k s).ph = .done := rfl
@[simp] theorem raise_blk (k : Failure) (s : State) : (raise k s).blk = s.blk := rfl
@[simp] theorem raise_padw (k : Failure) (s : State) : (raise k s).padw = bytes8 (Config.padwAfterEnd s.free) := rfl
@[simp] theorem raise_buf (k : Failure) (s : State) : (raise k s).buf = bytes8 (Config.bufAfterEnd s.free) := rfl
@[simp] theorem raise_status (k : Failure) (s : State) : (raise k s).status = .failed k := rfl
@[simp] theorem raise_inContent (k : Failure) (s : State) : (raise k s).inContent = s.inContent := rfl
@[simp] theorem raise_inRc (k : Failure) (s : State) : (raise k s).inRc = s.inRc := rfl
@[simp] theorem raise_padContent (k : Failure) (s : State) : (raise k s).padContent = s.padContent := rfl
@[simp] theorem raise_padRc (k : Failure) (s : State) : (raise k s).padRc = s.padRc := rfl
@[simp] theorem raise_padWritten (k : Failure) (s : State) : (raise k s).padWritten = s.padWritten := rfl
@[simp] theorem raise_outWritten (k : Failure) (s : State) : (raise k s).outWritten = s.outWritten := rfl
@[simp] theorem raise_psAnswers (k : Failure) (s : State) : (raise k s).psAnswers = s.psAnswers := rfl
@[simp] theorem raise_inAcks (k : Failure) (s : State) : (raise k s).inAcks = s.inAcks := rfl
@[simp] theorem raise_padRdAcks (k : Failure) (s : State) : (raise k s).padRdAcks = s.padRdAcks := rfl
@[simp] theorem raise_padWrAcks (k : Failure) (s : State) : (raise k s).padWrAcks = s.padWrAcks := rfl
@[simp] theorem raise_outAcks (k : Failure) (s : State) : (raise k s).outAcks = s.outAcks := rfl
@[simp] theorem raise_cmd (k : Failure) (s : State) : (raise k s).cmd = s.cmd := rfl
@[simp] theorem raise_inputs (k : Failure) (s : State) : (raise k s).inputs = s.inputs := rfl
@[simp] theorem raise_history (k : Failure) (s : State) : (raise k s).history = s.history ++ [.finish (.failed k)] := rfl
@[simp] theorem raise_free (k : Failure) (s : State) : (raise k s).free = s.free + 1 := rfl

@[simp] theorem finishOk_lenw (s : State) : (finishOk s).lenw = s.lenw := rfl
@[simp] theorem finishOk_op (s : State) : (finishOk s).op = s.op := rfl
@[simp] theorem finishOk_len (s : State) : (finishOk s).len = s.len := rfl
@[simp] theorem finishOk_plen (s : State) : (finishOk s).plen = s.plen := rfl
@[simp] theorem finishOk_fb (s : State) : (finishOk s).fb = s.fb := rfl
@[simp] theorem finishOk_rem (s : State) : (finishOk s).rem = s.rem := rfl
@[simp] theorem finishOk_ph (s : State) : (finishOk s).ph = .done := rfl
@[simp] theorem finishOk_blk (s : State) : (finishOk s).blk = s.blk := rfl
@[simp] theorem finishOk_padw (s : State) : (finishOk s).padw = bytes8 (Config.padwAfterEnd s.free) := rfl
@[simp] theorem finishOk_buf (s : State) : (finishOk s).buf = bytes8 (Config.bufAfterEnd s.free) := rfl
@[simp] theorem finishOk_status (s : State) : (finishOk s).status = .ok := rfl
@[simp] theorem finishOk_inContent (s : State) : (finishOk s).inContent = s.inContent := rfl
@[simp] theorem finishOk_inRc (s : State) : (finishOk s).inRc = s.inRc := rfl
@[simp] theorem finishOk_padContent (s : State) : (finishOk s).padContent = s.padContent := rfl
@[simp] theorem finishOk_padRc (s : State) : (finishOk s).padRc = s.padRc := rfl
@[simp] theorem finishOk_padWritten (s : State) : (finishOk s).padWritten = s.padWritten := rfl
@[simp] theorem finishOk_outWritten (s : State) : (finishOk s).outWritten = s.outWritten := rfl
@[simp] theorem finishOk_psAnswers (s : State) : (finishOk s).psAnswers = s.psAnswers := rfl
@[simp] theorem finishOk_inAcks (s : State) : (finishOk s).inAcks = s.inAcks := rfl
@[simp] theorem finishOk_padRdAcks (s : State) : (finishOk s).padRdAcks = s.padRdAcks := rfl
@[simp] theorem finishOk_padWrAcks (s : State) : (finishOk s).padWrAcks = s.padWrAcks := rfl
@[simp] theorem finishOk_outAcks (s : State) : (finishOk s).outAcks = s.outAcks := rfl
@[simp] theorem finishOk_cmd (s : State) : (finishOk s).cmd = s.cmd := rfl
@[simp] theorem finishOk_inputs (s : State) : (finishOk s).inputs = s.inputs := rfl
@[simp] theorem finishOk_history (s : State) : (finishOk s).history = s.history ++ [.finish .ok] := rfl
@[simp] theorem finishOk_free (s : State) : (finishOk s).free = s.free + 1 := rfl

@[simp] theorem acceptEncrypt_lenw (n : Int) (s : State) : (acceptEncrypt n s).lenw = s.lenw := rfl
@[simp] theorem acceptEncrypt_op (n : Int) (s : State) : (acceptEncrypt n s).op = .encrypt := rfl
@[simp] theorem acceptEncrypt_len (n : Int) (s : State) : (acceptEncrypt n s).len = n := rfl
@[simp] theorem acceptEncrypt_plen (n : Int) (s : State) : (acceptEncrypt n s).plen = s.plen := rfl
@[simp] theorem acceptEncrypt_fb (n : Int) (s : State) : (acceptEncrypt n s).fb = s.fb := rfl
@[simp] theorem acceptEncrypt_rem (n : Int) (s : State) : (acceptEncrypt n s).rem = s.rem := rfl
@[simp] theorem acceptEncrypt_ph (n : Int) (s : State) : (acceptEncrypt n s).ph = .validate := rfl
@[simp] theorem acceptEncrypt_blk (n : Int) (s : State) : (acceptEncrypt n s).blk = s.blk := rfl
@[simp] theorem acceptEncrypt_padw (n : Int) (s : State) : (acceptEncrypt n s).padw = s.padw := rfl
@[simp] theorem acceptEncrypt_buf (n : Int) (s : State) : (acceptEncrypt n s).buf = s.buf := rfl
@[simp] theorem acceptEncrypt_status (n : Int) (s : State) : (acceptEncrypt n s).status = s.status := rfl
@[simp] theorem acceptEncrypt_inContent (n : Int) (s : State) : (acceptEncrypt n s).inContent = s.inContent := rfl
@[simp] theorem acceptEncrypt_inRc (n : Int) (s : State) : (acceptEncrypt n s).inRc = 0 := rfl
@[simp] theorem acceptEncrypt_padContent (n : Int) (s : State) : (acceptEncrypt n s).padContent = s.padContent := rfl
@[simp] theorem acceptEncrypt_padRc (n : Int) (s : State) : (acceptEncrypt n s).padRc = s.padRc := rfl
@[simp] theorem acceptEncrypt_padWritten (n : Int) (s : State) : (acceptEncrypt n s).padWritten = [] := rfl
@[simp] theorem acceptEncrypt_outWritten (n : Int) (s : State) : (acceptEncrypt n s).outWritten = [] := rfl
@[simp] theorem acceptEncrypt_psAnswers (n : Int) (s : State) : (acceptEncrypt n s).psAnswers = s.psAnswers := rfl
@[simp] theorem acceptEncrypt_inAcks (n : Int) (s : State) : (acceptEncrypt n s).inAcks = s.inAcks := rfl
@[simp] theorem acceptEncrypt_padRdAcks (n : Int) (s : State) : (acceptEncrypt n s).padRdAcks = s.padRdAcks := rfl
@[simp] theorem acceptEncrypt_padWrAcks (n : Int) (s : State) : (acceptEncrypt n s).padWrAcks = s.padWrAcks := rfl
@[simp] theorem acceptEncrypt_outAcks (n : Int) (s : State) : (acceptEncrypt n s).outAcks = s.outAcks := rfl
@[simp] theorem acceptEncrypt_cmd (n : Int) (s : State) : (acceptEncrypt n s).cmd = none := rfl
@[simp] theorem acceptEncrypt_inputs (n : Int) (s : State) : (acceptEncrypt n s).inputs = s.inputs := rfl
@[simp] theorem acceptEncrypt_history (n : Int) (s : State) : (acceptEncrypt n s).history = [.start .encrypt, .sizeQ .IN n] := rfl
@[simp] theorem acceptEncrypt_free (n : Int) (s : State) : (acceptEncrypt n s).free = s.free := rfl

@[simp] theorem acceptDecrypt_lenw (n m : Int) (s : State) : (acceptDecrypt n m s).lenw = s.lenw := rfl
@[simp] theorem acceptDecrypt_op (n m : Int) (s : State) : (acceptDecrypt n m s).op = .decrypt := rfl
@[simp] theorem acceptDecrypt_len (n m : Int) (s : State) : (acceptDecrypt n m s).len = n := rfl
@[simp] theorem acceptDecrypt_plen (n m : Int) (s : State) : (acceptDecrypt n m s).plen = m := rfl
@[simp] theorem acceptDecrypt_fb (n m : Int) (s : State) : (acceptDecrypt n m s).fb = s.fb := rfl
@[simp] theorem acceptDecrypt_rem (n m : Int) (s : State) : (acceptDecrypt n m s).rem = s.rem := rfl
@[simp] theorem acceptDecrypt_ph (n m : Int) (s : State) : (acceptDecrypt n m s).ph = .validate := rfl
@[simp] theorem acceptDecrypt_blk (n m : Int) (s : State) : (acceptDecrypt n m s).blk = s.blk := rfl
@[simp] theorem acceptDecrypt_padw (n m : Int) (s : State) : (acceptDecrypt n m s).padw = s.padw := rfl
@[simp] theorem acceptDecrypt_buf (n m : Int) (s : State) : (acceptDecrypt n m s).buf = s.buf := rfl
@[simp] theorem acceptDecrypt_status (n m : Int) (s : State) : (acceptDecrypt n m s).status = s.status := rfl
@[simp] theorem acceptDecrypt_inContent (n m : Int) (s : State) : (acceptDecrypt n m s).inContent = s.inContent := rfl
@[simp] theorem acceptDecrypt_inRc (n m : Int) (s : State) : (acceptDecrypt n m s).inRc = 0 := rfl
@[simp] theorem acceptDecrypt_padContent (n m : Int) (s : State) : (acceptDecrypt n m s).padContent = s.padContent := rfl
@[simp] theorem acceptDecrypt_padRc (n m : Int) (s : State) : (acceptDecrypt n m s).padRc = 0 := rfl
@[simp] theorem acceptDecrypt_padWritten (n m : Int) (s : State) : (acceptDecrypt n m s).padWritten = s.padWritten := rfl
@[simp] theorem acceptDecrypt_outWritten (n m : Int) (s : State) : (acceptDecrypt n m s).outWritten = [] := rfl
@[simp] theorem acceptDecrypt_psAnswers (n m : Int) (s : State) : (acceptDecrypt n m s).psAnswers = s.psAnswers := rfl
@[simp] theorem acceptDecrypt_inAcks (n m : Int) (s : State) : (acceptDecrypt n m s).inAcks = s.inAcks := rfl
@[simp] theorem acceptDecrypt_padRdAcks (n m : Int) (s : State) : (acceptDecrypt n m s).padRdAcks = s.padRdAcks := rfl
@[simp] theorem acceptDecrypt_padWrAcks (n m : Int) (s : State) : (acceptDecrypt n m s).padWrAcks = s.padWrAcks := rfl
@[simp] theorem acceptDecrypt_outAcks (n m : Int) (s : State) : (acceptDecrypt n m s).outAcks = s.outAcks := rfl
@[simp] theorem acceptDecrypt_cmd (n m : Int) (s : State) : (acceptDecrypt n m s).cmd = none := rfl
@[simp] theorem acceptDecrypt_inputs (n m : Int) (s : State) : (acceptDecrypt n m s).inputs = s.inputs := rfl
@[simp] theorem acceptDecrypt_history (n m : Int) (s : State) : (acceptDecrypt n m s).history = [.start .decrypt, .sizeQ .IN n, .sizeQ .PAD m] := rfl
@[simp] theorem acceptDecrypt_free (n m : Int) (s : State) : (acceptDecrypt n m s).free = s.free := rfl

@[simp] theorem consumeIn_lenw (n : Nat) (s : State) : (consumeIn n s).lenw = s.lenw := rfl
@[simp] theorem consumeIn_op (n : Nat) (s : State) : (consumeIn n s).op = s.op := rfl
@[simp] theorem consumeIn_len (n : Nat) (s : State) : (consumeIn n s).len = s.len := rfl
@[simp] theorem consumeIn_plen (n : Nat) (s : State) : (consumeIn n s).plen = s.plen := rfl
@[simp] theorem consumeIn_fb (n : Nat) (s : State) : (consumeIn n s).fb = s.fb := rfl
@[simp] theorem consumeIn_rem (n : Nat) (s : State) : (consumeIn n s).rem = s.rem := rfl
@[simp] theorem consumeIn_ph (n : Nat) (s : State) : (consumeIn n s).ph = s.ph := rfl
@[simp] theorem consumeIn_blk (n : Nat) (s : State) : (consumeIn n s).blk = s.blk := rfl
@[simp] theorem consumeIn_padw (n : Nat) (s : State) : (consumeIn n s).padw = s.padw := rfl
@[simp] theorem consumeIn_buf (n : Nat) (s : State) : (consumeIn n s).buf = s.buf := rfl
@[simp] theorem consumeIn_status (n : Nat) (s : State) : (consumeIn n s).status = s.status := rfl
@[simp] theorem consumeIn_inContent (n : Nat) (s : State) : (consumeIn n s).inContent = s.inContent := rfl
@[simp] theorem consumeIn_inRc (n : Nat) (s : State) : (consumeIn n s).inRc = s.inRc + (s.inBytes n).length := rfl
@[simp] theorem consumeIn_padContent (n : Nat) (s : State) : (consumeIn n s).padContent = s.padContent := rfl
@[simp] theorem consumeIn_padRc (n : Nat) (s : State) : (consumeIn n s).padRc = s.padRc := rfl
@[simp] theorem consumeIn_padWritten (n : Nat) (s : State) : (consumeIn n s).padWritten = s.padWritten := rfl
@[simp] theorem consumeIn_outWritten (n : Nat) (s : State) : (consumeIn n s).outWritten = s.outWritten := rfl
@[simp] theorem consumeIn_psAnswers (n : Nat) (s : State) : (consumeIn n s).psAnswers = s.psAnswers := rfl
@[simp] theorem consumeIn_inAcks (n : Nat) (s : State) : (consumeIn n s).inAcks = s.inAcks := rfl
@[simp] theorem consumeIn_padRdAcks (n : Nat) (s : State) : (consumeIn n s).padRdAcks = s.padRdAcks := rfl
@[simp] theorem consumeIn_padWrAcks (n : Nat) (s : State) : (consumeIn n s).padWrAcks = s.padWrAcks := rfl
@[simp] theorem consumeIn_outAcks (n : Nat) (s : State) : (consumeIn n s).outAcks = s.outAcks := rfl
@[simp] theorem consumeIn_cmd (n : Nat) (s : State) : (consumeIn n s).cmd = s.cmd := rfl
@[simp] theorem consumeIn_inputs (n : Nat) (s : State) : (consumeIn n s).inputs = s.inputs := rfl
@[simp] theorem consumeIn_history (n : Nat) (s : State) : (consumeIn n s).history = s.history := rfl
@[simp] theorem consumeIn_free (n : Nat) (s : State) : (consumeIn n s).free = s.free := rfl

@[simp] theorem consumePad_lenw (n : Nat) (s : State) : (consumePad n s).lenw = s.lenw := rfl
@[simp] theorem consumePad_op (n : Nat) (s : State) : (consumePad n s).op = s.op := rfl
@[simp] theorem consumePad_len (n : Nat) (s : State) : (consumePad n s).len = s.len := rfl
@[simp] theorem consumePad_plen (n : Nat) (s : State) : (consumePad n s).plen = s.plen := rfl
@[simp] theorem consumePad_fb (n : Nat) (s : State) : (consumePad n s).fb = s.fb := rfl
@[simp] theorem consumePad_rem (n : Nat) (s : State) : (consumePad n s).rem = s.rem := rfl
@[simp] theorem consumePad_ph (n : Nat) (s : State) : (consumePad n s).ph = s.ph := rfl
@[simp] theorem consumePad_blk (n : Nat) (s : State) : (consumePad n s).blk = s.blk := rfl
@[simp] theorem consumePad_padw (n : Nat) (s : State) : (consumePad n s).padw = s.padw := rfl
@[simp] theorem consumePad_buf (n : Nat) (s : State) : (consumePad n s).buf = s.buf := rfl
@[simp] theorem consumePad_status (n : Nat) (s : State) : (consumePad n s).status = s.status := rfl
@[simp] theorem consumePad_inContent (n : Nat) (s : State) : (consumePad n s).inContent = s.inContent := rfl
@[simp] theorem consumePad_inRc (n : Nat) (s : State) : (consumePad n s).inRc = s.inRc := rfl
@[simp] theorem consumePad_padContent (n : Nat) (s : State) : (consumePad n s).padContent = s.padContent := rfl
@[simp] theorem consumePad_padRc (n : Nat) (s : State) : (consumePad n s).padRc = s.padRc + (s.padBytes n).length := rfl
@[simp] theorem consumePad_padWritten (n : Nat) (s : State) : (consumePad n s).padWritten = s.padWritten := rfl
@[simp] theorem consumePad_outWritten (n : Nat) (s : State) : (consumePad n s).outWritten = s.outWritten := rfl
@[simp] theorem consumePad_psAnswers (n : Nat) (s : State) : (consumePad n s).psAnswers = s.psAnswers := rfl
@[simp] theorem consumePad_inAcks (n : Nat) (s : State) : (consumePad n s).inAcks = s.inAcks := rfl
@[simp] theorem consumePad_padRdAcks (n : Nat) (s : State) : (consumePad n s).padRdAcks = s.padRdAcks := rfl
@[simp] theorem consumePad_padWrAcks (n : Nat) (s : State) : (consumePad n s).padWrAcks = s.padWrAcks := rfl
@[simp] theorem consumePad_outAcks (n : Nat) (s : State) : (consumePad n s).outAcks = s.outAcks := rfl
@[simp] theorem consumePad_cmd (n : Nat) (s : State) : (consumePad n s).cmd = s.cmd := rfl
@[simp] theorem consumePad_inputs (n : Nat) (s : State) : (consumePad n s).inputs = s.inputs := rfl
@[simp] theorem consumePad_history (n : Nat) (s : State) : (consumePad n s).history = s.history := rfl
@[simp] theorem consumePad_free (n : Nat) (s : State) : (consumePad n s).free = s.free := rfl

@[simp] theorem appendOut_lenw (v : List Byte) (s : State) : (appendOut v s).lenw = s.lenw := rfl
@[simp] theorem appendOut_op (v : List Byte) (s : State) : (appendOut v s).op = s.op := rfl
@[simp] theorem appendOut_len (v : List Byte) (s : State) : (appendOut v s).len = s.len := rfl
@[simp] theorem appendOut_plen (v : List Byte) (s : State) : (appendOut v s).plen = s.plen := rfl
@[simp] theorem appendOut_fb (v : List Byte) (s : State) : (appendOut v s).fb = s.fb := rfl
@[simp] theorem appendOut_rem (v : List Byte) (s : State) : (appendOut v s).rem = s.rem := rfl
@[simp] theorem appendOut_ph (v : List Byte) (s : State) : (appendOut v s).ph = s.ph := rfl
@[simp] theorem appendOut_blk (v : List Byte) (s : State) : (appendOut v s).blk = s.blk := rfl
@[simp] theorem appendOut_padw (v : List Byte) (s : State) : (appendOut v s).padw = s.padw := rfl
@[simp] theorem appendOut_buf (v : List Byte) (s : State) : (appendOut v s).buf = s.buf := rfl
@[simp] theorem appendOut_status (v : List Byte) (s : State) : (appendOut v s).status = s.status := rfl
@[simp] theorem appendOut_inContent (v : List Byte) (s : State) : (appendOut v s).inContent = s.inContent := rfl
@[simp] theorem appendOut_inRc (v : List Byte) (s : State) : (appendOut v s).inRc = s.inRc := rfl
@[simp] theorem appendOut_padContent (v : List Byte) (s : State) : (appendOut v s).padContent = s.padContent := rfl
@[simp] theorem appendOut_padRc (v : List Byte) (s : State) : (appendOut v s).padRc = s.padRc := rfl
@[simp] theorem appendOut_padWritten (v : List Byte) (s : State) : (appendOut v s).padWritten = s.padWritten := rfl
@[simp] theorem appendOut_outWritten (v : List Byte) (s : State) : (appendOut v s).outWritten = s.outWritten ++ v := rfl
@[simp] theorem appendOut_psAnswers (v : List Byte) (s : State) : (appendOut v s).psAnswers = s.psAnswers := rfl
@[simp] theorem appendOut_inAcks (v : List Byte) (s : State) : (appendOut v s).inAcks = s.inAcks := rfl
@[simp] theorem appendOut_padRdAcks (v : List Byte) (s : State) : (appendOut v s).padRdAcks = s.padRdAcks := rfl
@[simp] theorem appendOut_padWrAcks (v : List Byte) (s : State) : (appendOut v s).padWrAcks = s.padWrAcks := rfl
@[simp] theorem appendOut_outAcks (v : List Byte) (s : State) : (appendOut v s).outAcks = s.outAcks := rfl
@[simp] theorem appendOut_cmd (v : List Byte) (s : State) : (appendOut v s).cmd = s.cmd := rfl
@[simp] theorem appendOut_inputs (v : List Byte) (s : State) : (appendOut v s).inputs = s.inputs := rfl
@[simp] theorem appendOut_history (v : List Byte) (s : State) : (appendOut v s).history = s.history := rfl
@[simp] theorem appendOut_free (v : List Byte) (s : State) : (appendOut v s).free = s.free := rfl

@[simp] theorem appendPad_lenw (v : List Byte) (s : State) : (appendPad v s).lenw = s.lenw := rfl
@[simp] theorem appendPad_op (v : List Byte) (s : State) : (appendPad v s).op = s.op := rfl
@[simp] theorem appendPad_len (v : List Byte) (s : State) : (appendPad v s).len = s.len := rfl
@[simp] theorem appendPad_plen (v : List Byte) (s : State) : (appendPad v s).plen = s.plen := rfl
@[simp] theorem appendPad_fb (v : List Byte) (s : State) : (appendPad v s).fb = s.fb := rfl
@[simp] theorem appendPad_rem (v : List Byte) (s : State) : (appendPad v s).rem = s.rem := rfl
@[simp] theorem appendPad_ph (v : List Byte) (s : State) : (appendPad v s).ph = s.ph := rfl
@[simp] theorem appendPad_blk (v : List Byte) (s : State) : (appendPad v s).blk = s.blk := rfl
@[simp] theorem appendPad_padw (v : List Byte) (s : State) : (appendPad v s).padw = s.padw := rfl
@[simp] theorem appendPad_buf (v : List Byte) (s : State) : (appendPad v s).buf = s.buf := rfl
@[simp] theorem appendPad_status (v : List Byte) (s : State) : (appendPad v s).status = s.status := rfl
@[simp] theorem appendPad_inContent (v : List Byte) (s : State) : (appendPad v s).inContent = s.inContent := rfl
@[simp] theorem appendPad_inRc (v : List Byte) (s : State) : (appendPad v s).inRc = s.inRc := rfl
@[simp] theorem appendPad_padContent (v : List Byte) (s : State) : (appendPad v s).padContent = s.padContent := rfl
@[simp] theorem appendPad_padRc (v : List Byte) (s : State) : (appendPad v s).padRc = s.padRc := rfl
@[simp] theorem appendPad_padWritten (v : List Byte) (s : State) : (appendPad v s).padWritten = s.padWritten ++ v := rfl
@[simp] theorem appendPad_outWritten (v : List Byte) (s : State) : (appendPad v s).outWritten = s.outWritten := rfl
@[simp] theorem appendPad_psAnswers (v : List Byte) (s : State) : (appendPad v s).psAnswers = s.psAnswers := rfl
@[simp] theorem appendPad_inAcks (v : List Byte) (s : State) : (appendPad v s).inAcks = s.inAcks := rfl
@[simp] theorem appendPad_padRdAcks (v : List Byte) (s : State) : (appendPad v s).padRdAcks = s.padRdAcks := rfl
@[simp] theorem appendPad_padWrAcks (v : List Byte) (s : State) : (appendPad v s).padWrAcks = s.padWrAcks := rfl
@[simp] theorem appendPad_outAcks (v : List Byte) (s : State) : (appendPad v s).outAcks = s.outAcks := rfl
@[simp] theorem appendPad_cmd (v : List Byte) (s : State) : (appendPad v s).cmd = s.cmd := rfl
@[simp] theorem appendPad_inputs (v : List Byte) (s : State) : (appendPad v s).inputs = s.inputs := rfl
@[simp] theorem appendPad_history (v : List Byte) (s : State) : (appendPad v s).history = s.history := rfl
@[simp] theorem appendPad_free (v : List Byte) (s : State) : (appendPad v s).free = s.free := rfl

@[simp] theorem consumeAnswer_lenw (s : State) : (consumeAnswer s).lenw = s.lenw := rfl
@[simp] theorem consumeAnswer_op (s : State) : (consumeAnswer s).op = s.op := rfl
@[simp] theorem consumeAnswer_len (s : State) : (consumeAnswer s).len = s.len := rfl
@[simp] theorem consumeAnswer_plen (s : State) : (consumeAnswer s).plen = s.plen := rfl
@[simp] theorem consumeAnswer_fb (s : State) : (consumeAnswer s).fb = s.fb := rfl
@[simp] theorem consumeAnswer_rem (s : State) : (consumeAnswer s).rem = s.rem := rfl
@[simp] theorem consumeAnswer_ph (s : State) : (consumeAnswer s).ph = s.ph := rfl
@[simp] theorem consumeAnswer_blk (s : State) : (consumeAnswer s).blk = s.blk := rfl
@[simp] theorem consumeAnswer_padw (s : State) : (consumeAnswer s).padw = s.padw := rfl
@[simp] theorem consumeAnswer_buf (s : State) : (consumeAnswer s).buf = s.buf := rfl
@[simp] theorem consumeAnswer_status (s : State) : (consumeAnswer s).status = s.status := rfl
@[simp] theorem consumeAnswer_inContent (s : State) : (consumeAnswer s).inContent = s.inContent := rfl
@[simp] theorem consumeAnswer_inRc (s : State) : (consumeAnswer s).inRc = s.inRc := rfl
@[simp] theorem consumeAnswer_padContent (s : State) : (consumeAnswer s).padContent = s.padContent := rfl
@[simp] theorem consumeAnswer_padRc (s : State) : (consumeAnswer s).padRc = s.padRc := rfl
@[simp] theorem consumeAnswer_padWritten (s : State) : (consumeAnswer s).padWritten = s.padWritten := rfl
@[simp] theorem consumeAnswer_outWritten (s : State) : (consumeAnswer s).outWritten = s.outWritten := rfl
@[simp] theorem consumeAnswer_psAnswers (s : State) : (consumeAnswer s).psAnswers = s.psAnswers.tail := rfl
@[simp] theorem consumeAnswer_inAcks (s : State) : (consumeAnswer s).inAcks = s.inAcks := rfl
@[simp] theorem consumeAnswer_padRdAcks (s : State) : (consumeAnswer s).padRdAcks = s.padRdAcks := rfl
@[simp] theorem consumeAnswer_padWrAcks (s : State) : (consumeAnswer s).padWrAcks = s.padWrAcks := rfl
@[simp] theorem consumeAnswer_outAcks (s : State) : (consumeAnswer s).outAcks = s.outAcks := rfl
@[simp] theorem consumeAnswer_cmd (s : State) : (consumeAnswer s).cmd = s.cmd := rfl
@[simp] theorem consumeAnswer_inputs (s : State) : (consumeAnswer s).inputs = s.inputs := rfl
@[simp] theorem consumeAnswer_history (s : State) : (consumeAnswer s).history = s.history := rfl
@[simp] theorem consumeAnswer_free (s : State) : (consumeAnswer s).free = s.free := rfl

@[simp] theorem split_lenw (s : State) : (split s).lenw = s.lenw := rfl
@[simp] theorem split_op (s : State) : (split s).op = s.op := rfl
@[simp] theorem split_len (s : State) : (split s).len = s.len := rfl
@[simp] theorem split_plen (s : State) : (split s).plen = s.plen := rfl
@[simp] theorem split_fb (s : State) : (split s).fb = fullBlocks s.len.toNat := rfl
@[simp] theorem split_rem (s : State) : (split s).rem = remainder s.len.toNat := rfl
@[simp] theorem split_ph (s : State) : (split s).ph = .padget := rfl
@[simp] theorem split_blk (s : State) : (split s).blk = 0 := rfl
@[simp] theorem split_padw (s : State) : (split s).padw = s.padw := rfl
@[simp] theorem split_buf (s : State) : (split s).buf = s.buf := rfl
@[simp] theorem split_status (s : State) : (split s).status = s.status := rfl
@[simp] theorem split_inContent (s : State) : (split s).inContent = s.inContent := rfl
@[simp] theorem split_inRc (s : State) : (split s).inRc = s.inRc := rfl
@[simp] theorem split_padContent (s : State) : (split s).padContent = s.padContent := rfl
@[simp] theorem split_padRc (s : State) : (split s).padRc = s.padRc := rfl
@[simp] theorem split_padWritten (s : State) : (split s).padWritten = s.padWritten := rfl
@[simp] theorem split_outWritten (s : State) : (split s).outWritten = s.outWritten := rfl
@[simp] theorem split_psAnswers (s : State) : (split s).psAnswers = s.psAnswers := rfl
@[simp] theorem split_inAcks (s : State) : (split s).inAcks = s.inAcks := rfl
@[simp] theorem split_padRdAcks (s : State) : (split s).padRdAcks = s.padRdAcks := rfl
@[simp] theorem split_padWrAcks (s : State) : (split s).padWrAcks = s.padWrAcks := rfl
@[simp] theorem split_outAcks (s : State) : (split s).outAcks = s.outAcks := rfl
@[simp] theorem split_cmd (s : State) : (split s).cmd = s.cmd := rfl
@[simp] theorem split_inputs (s : State) : (split s).inputs = s.inputs := rfl
@[simp] theorem split_history (s : State) : (split s).history = s.history := rfl
@[simp] theorem split_free (s : State) : (split s).free = s.free := rfl

@[simp] theorem resetBlock_lenw (s : State) : (resetBlock s).lenw = s.lenw := rfl
@[simp] theorem resetBlock_op (s : State) : (resetBlock s).op = State.reset.op := rfl
@[simp] theorem resetBlock_len (s : State) : (resetBlock s).len = State.reset.len := rfl
@[simp] theorem resetBlock_plen (s : State) : (resetBlock s).plen = State.reset.plen := rfl
@[simp] theorem resetBlock_fb (s : State) : (resetBlock s).fb = State.reset.fb := rfl
@[simp] theorem resetBlock_rem (s : State) : (resetBlock s).rem = State.reset.rem := rfl
@[simp] theorem resetBlock_ph (s : State) : (resetBlock s).ph = State.reset.ph := rfl
@[simp] theorem resetBlock_blk (s : State) : (resetBlock s).blk = State.reset.blk := rfl
@[simp] theorem resetBlock_padw (s : State) : (resetBlock s).padw = State.reset.padw := rfl
@[simp] theorem resetBlock_buf (s : State) : (resetBlock s).buf = State.reset.buf := rfl
@[simp] theorem resetBlock_status (s : State) : (resetBlock s).status = State.reset.status := rfl
@[simp] theorem resetBlock_inContent (s : State) : (resetBlock s).inContent = s.inContent := rfl
@[simp] theorem resetBlock_inRc (s : State) : (resetBlock s).inRc = s.inRc := rfl
@[simp] theorem resetBlock_padContent (s : State) : (resetBlock s).padContent = s.padContent := rfl
@[simp] theorem resetBlock_padRc (s : State) : (resetBlock s).padRc = s.padRc := rfl
@[simp] theorem resetBlock_padWritten (s : State) : (resetBlock s).padWritten = s.padWritten := rfl
@[simp] theorem resetBlock_outWritten (s : State) : (resetBlock s).outWritten = s.outWritten := rfl
@[simp] theorem resetBlock_psAnswers (s : State) : (resetBlock s).psAnswers = s.psAnswers := rfl
@[simp] theorem resetBlock_inAcks (s : State) : (resetBlock s).inAcks = s.inAcks := rfl
@[simp] theorem resetBlock_padRdAcks (s : State) : (resetBlock s).padRdAcks = s.padRdAcks := rfl
@[simp] theorem resetBlock_padWrAcks (s : State) : (resetBlock s).padWrAcks = s.padWrAcks := rfl
@[simp] theorem resetBlock_outAcks (s : State) : (resetBlock s).outAcks = s.outAcks := rfl
@[simp] theorem resetBlock_cmd (s : State) : (resetBlock s).cmd = s.cmd := rfl
@[simp] theorem resetBlock_inputs (s : State) : (resetBlock s).inputs = s.inputs := rfl
@[simp] theorem resetBlock_history (s : State) : (resetBlock s).history = s.history := rfl
@[simp] theorem resetBlock_free (s : State) : (resetBlock s).free = s.free := rfl

end Sys2Proof.Machine
end

