-- ==== Sys2Proof/Laws/Ops.lean ====
section
/-! SUPPORT. For each shared operation, once, all that it can answer. -/

namespace Sys2Proof.Machine

theorem readSlice_length (c : List Byte) (rc n : Nat) : (readSlice c rc n).length = min n (c.length - rc) := by
  simp [readSlice]

theorem inBytes_length_le (s : State) (n : Nat) : (s.inBytes n).length ≤ n := by
  simp only [State.inBytes, readSlice_length]; omega

theorem padBytes_length_le (s : State) (n : Nat) : (s.padBytes n).length ≤ n := by
  simp only [State.padBytes, readSlice_length]; omega

@[simp] theorem use_always : Acks.use .always = some .always := rfl

/-- The state after a read of `IN` that endpoint state `a` follows (R33). -/
def afterReadIn (off n : Nat) (a : Acks) (s : State) : State :=
  record (.read .IN off n (s.inBytes n)) (setInAcks a (consumeIn n s))

/-- The state after a read of `PAD` that endpoint state `a` follows (R33). -/
def afterReadPad (off n : Nat) (a : Acks) (s : State) : State :=
  record (.read .PAD off n (s.padBytes n)) (setPadRdAcks a (consumePad n s))

/-- The state after a write of `OUT` that endpoint state `a` follows (R34). -/
def afterWriteOut (off : Nat) (v : List Byte) (a : Acks) (s : State) : State :=
  record (.write .OUT off v) (setOutAcks a (appendOut v s))

/-- The state after a write of `PAD` that endpoint state `a` follows (R34). -/
def afterWritePad (off : Nat) (v : List Byte) (a : Acks) (s : State) : State :=
  record (.write .PAD off v) (setPadWrAcks a (appendPad v s))

/-- The state after a draw answered `a` (R65). -/
def afterDraw (a : PsAnswer) (s : State) : State := record (.draw a) (consumeAnswer s)

/-! ### One lemma per field of the five states above -/

@[simp] theorem afterReadIn_lenw (off n : Nat) (a : Acks) (s : State) :
    (afterReadIn off n a s).lenw = s.lenw := rfl
@[simp] theorem afterReadIn_op (off n : Nat) (a : Acks) (s : State) :
    (afterReadIn off n a s).op = s.op := rfl
@[simp] theorem afterReadIn_len (off n : Nat) (a : Acks) (s : State) :
    (afterReadIn off n a s).len = s.len := rfl
@[simp] theorem afterReadIn_plen (off n : Nat) (a : Acks) (s : State) :
    (afterReadIn off n a s).plen = s.plen := rfl
@[simp] theorem afterReadIn_fb (off n : Nat) (a : Acks) (s : State) :
    (afterReadIn off n a s).fb = s.fb := rfl
@[simp] theorem afterReadIn_rem (off n : Nat) (a : Acks) (s : State) :
    (afterReadIn off n a s).rem = s.rem := rfl
@[simp] theorem afterReadIn_ph (off n : Nat) (a : Acks) (s : State) :
    (afterReadIn off n a s).ph = s.ph := rfl
@[simp] theorem afterReadIn_blk (off n : Nat) (a : Acks) (s : State) :
    (afterReadIn off n a s).blk = s.blk := rfl
@[simp] theorem afterReadIn_padw (off n : Nat) (a : Acks) (s : State) :
    (afterReadIn off n a s).padw = s.padw := rfl
@[simp] theorem afterReadIn_buf (off n : Nat) (a : Acks) (s : State) :
    (afterReadIn off n a s).buf = s.buf := rfl
@[simp] theorem afterReadIn_status (off n : Nat) (a : Acks) (s : State) :
    (afterReadIn off n a s).status = s.status := rfl
@[simp] theorem afterReadIn_inContent (off n : Nat) (a : Acks) (s : State) :
    (afterReadIn off n a s).inContent = s.inContent := rfl
@[simp] theorem afterReadIn_inRc (off n : Nat) (a : Acks) (s : State) :
    (afterReadIn off n a s).inRc = s.inRc + (s.inBytes n).length := rfl
@[simp] theorem afterReadIn_padContent (off n : Nat) (a : Acks) (s : State) :
    (afterReadIn off n a s).padContent = s.padContent := rfl
@[simp] theorem afterReadIn_padRc (off n : Nat) (a : Acks) (s : State) :
    (afterReadIn off n a s).padRc = s.padRc := rfl
@[simp] theorem afterReadIn_padWritten (off n : Nat) (a : Acks) (s : State) :
    (afterReadIn off n a s).padWritten = s.padWritten := rfl
@[simp] theorem afterReadIn_outWritten (off n : Nat) (a : Acks) (s : State) :
    (afterReadIn off n a s).outWritten = s.outWritten := rfl
@[simp] theorem afterReadIn_psAnswers (off n : Nat) (a : Acks) (s : State) :
    (afterReadIn off n a s).psAnswers = s.psAnswers := rfl
@[simp] theorem afterReadIn_inAcks (off n : Nat) (a : Acks) (s : State) :
    (afterReadIn off n a s).inAcks = a := rfl
@[simp] theorem afterReadIn_padRdAcks (off n : Nat) (a : Acks) (s : State) :
    (afterReadIn off n a s).padRdAcks = s.padRdAcks := rfl
@[simp] theorem afterReadIn_padWrAcks (off n : Nat) (a : Acks) (s : State) :
    (afterReadIn off n a s).padWrAcks = s.padWrAcks := rfl
@[simp] theorem afterReadIn_outAcks (off n : Nat) (a : Acks) (s : State) :
    (afterReadIn off n a s).outAcks = s.outAcks := rfl
@[simp] theorem afterReadIn_cmd (off n : Nat) (a : Acks) (s : State) :
    (afterReadIn off n a s).cmd = s.cmd := rfl
@[simp] theorem afterReadIn_inputs (off n : Nat) (a : Acks) (s : State) :
    (afterReadIn off n a s).inputs = s.inputs := rfl
@[simp] theorem afterReadIn_history (off n : Nat) (a : Acks) (s : State) :
    (afterReadIn off n a s).history = s.history ++ [.read .IN off n (s.inBytes n)] := rfl
@[simp] theorem afterReadIn_free (off n : Nat) (a : Acks) (s : State) :
    (afterReadIn off n a s).free = s.free := rfl

@[simp] theorem afterReadPad_lenw (off n : Nat) (a : Acks) (s : State) :
    (afterReadPad off n a s).lenw = s.lenw := rfl
@[simp] theorem afterReadPad_op (off n : Nat) (a : Acks) (s : State) :
    (afterReadPad off n a s).op = s.op := rfl
@[simp] theorem afterReadPad_len (off n : Nat) (a : Acks) (s : State) :
    (afterReadPad off n a s).len = s.len := rfl
@[simp] theorem afterReadPad_plen (off n : Nat) (a : Acks) (s : State) :
    (afterReadPad off n a s).plen = s.plen := rfl
@[simp] theorem afterReadPad_fb (off n : Nat) (a : Acks) (s : State) :
    (afterReadPad off n a s).fb = s.fb := rfl
@[simp] theorem afterReadPad_rem (off n : Nat) (a : Acks) (s : State) :
    (afterReadPad off n a s).rem = s.rem := rfl
@[simp] theorem afterReadPad_ph (off n : Nat) (a : Acks) (s : State) :
    (afterReadPad off n a s).ph = s.ph := rfl
@[simp] theorem afterReadPad_blk (off n : Nat) (a : Acks) (s : State) :
    (afterReadPad off n a s).blk = s.blk := rfl
@[simp] theorem afterReadPad_padw (off n : Nat) (a : Acks) (s : State) :
    (afterReadPad off n a s).padw = s.padw := rfl
@[simp] theorem afterReadPad_buf (off n : Nat) (a : Acks) (s : State) :
    (afterReadPad off n a s).buf = s.buf := rfl
@[simp] theorem afterReadPad_status (off n : Nat) (a : Acks) (s : State) :
    (afterReadPad off n a s).status = s.status := rfl
@[simp] theorem afterReadPad_inContent (off n : Nat) (a : Acks) (s : State) :
    (afterReadPad off n a s).inContent = s.inContent := rfl
@[simp] theorem afterReadPad_inRc (off n : Nat) (a : Acks) (s : State) :
    (afterReadPad off n a s).inRc = s.inRc := rfl
@[simp] theorem afterReadPad_padContent (off n : Nat) (a : Acks) (s : State) :
    (afterReadPad off n a s).padContent = s.padContent := rfl
@[simp] theorem afterReadPad_padRc (off n : Nat) (a : Acks) (s : State) :
    (afterReadPad off n a s).padRc = s.padRc + (s.padBytes n).length := rfl
@[simp] theorem afterReadPad_padWritten (off n : Nat) (a : Acks) (s : State) :
    (afterReadPad off n a s).padWritten = s.padWritten := rfl
@[simp] theorem afterReadPad_outWritten (off n : Nat) (a : Acks) (s : State) :
    (afterReadPad off n a s).outWritten = s.outWritten := rfl
@[simp] theorem afterReadPad_psAnswers (off n : Nat) (a : Acks) (s : State) :
    (afterReadPad off n a s).psAnswers = s.psAnswers := rfl
@[simp] theorem afterReadPad_inAcks (off n : Nat) (a : Acks) (s : State) :
    (afterReadPad off n a s).inAcks = s.inAcks := rfl
@[simp] theorem afterReadPad_padRdAcks (off n : Nat) (a : Acks) (s : State) :
    (afterReadPad off n a s).padRdAcks = a := rfl
@[simp] theorem afterReadPad_padWrAcks (off n : Nat) (a : Acks) (s : State) :
    (afterReadPad off n a s).padWrAcks = s.padWrAcks := rfl
@[simp] theorem afterReadPad_outAcks (off n : Nat) (a : Acks) (s : State) :
    (afterReadPad off n a s).outAcks = s.outAcks := rfl
@[simp] theorem afterReadPad_cmd (off n : Nat) (a : Acks) (s : State) :
    (afterReadPad off n a s).cmd = s.cmd := rfl
@[simp] theorem afterReadPad_inputs (off n : Nat) (a : Acks) (s : State) :
    (afterReadPad off n a s).inputs = s.inputs := rfl
@[simp] theorem afterReadPad_history (off n : Nat) (a : Acks) (s : State) :
    (afterReadPad off n a s).history = s.history ++ [.read .PAD off n (s.padBytes n)] := rfl
@[simp] theorem afterReadPad_free (off n : Nat) (a : Acks) (s : State) :
    (afterReadPad off n a s).free = s.free := rfl

@[simp] theorem afterWriteOut_lenw (off : Nat) (v : List Byte) (a : Acks) (s : State) :
    (afterWriteOut off v a s).lenw = s.lenw := rfl
@[simp] theorem afterWriteOut_op (off : Nat) (v : List Byte) (a : Acks) (s : State) :
    (afterWriteOut off v a s).op = s.op := rfl
@[simp] theorem afterWriteOut_len (off : Nat) (v : List Byte) (a : Acks) (s : State) :
    (afterWriteOut off v a s).len = s.len := rfl
@[simp] theorem afterWriteOut_plen (off : Nat) (v : List Byte) (a : Acks) (s : State) :
    (afterWriteOut off v a s).plen = s.plen := rfl
@[simp] theorem afterWriteOut_fb (off : Nat) (v : List Byte) (a : Acks) (s : State) :
    (afterWriteOut off v a s).fb = s.fb := rfl
@[simp] theorem afterWriteOut_rem (off : Nat) (v : List Byte) (a : Acks) (s : State) :
    (afterWriteOut off v a s).rem = s.rem := rfl
@[simp] theorem afterWriteOut_ph (off : Nat) (v : List Byte) (a : Acks) (s : State) :
    (afterWriteOut off v a s).ph = s.ph := rfl
@[simp] theorem afterWriteOut_blk (off : Nat) (v : List Byte) (a : Acks) (s : State) :
    (afterWriteOut off v a s).blk = s.blk := rfl
@[simp] theorem afterWriteOut_padw (off : Nat) (v : List Byte) (a : Acks) (s : State) :
    (afterWriteOut off v a s).padw = s.padw := rfl
@[simp] theorem afterWriteOut_buf (off : Nat) (v : List Byte) (a : Acks) (s : State) :
    (afterWriteOut off v a s).buf = s.buf := rfl
@[simp] theorem afterWriteOut_status (off : Nat) (v : List Byte) (a : Acks) (s : State) :
    (afterWriteOut off v a s).status = s.status := rfl
@[simp] theorem afterWriteOut_inContent (off : Nat) (v : List Byte) (a : Acks) (s : State) :
    (afterWriteOut off v a s).inContent = s.inContent := rfl
@[simp] theorem afterWriteOut_inRc (off : Nat) (v : List Byte) (a : Acks) (s : State) :
    (afterWriteOut off v a s).inRc = s.inRc := rfl
@[simp] theorem afterWriteOut_padContent (off : Nat) (v : List Byte) (a : Acks) (s : State) :
    (afterWriteOut off v a s).padContent = s.padContent := rfl
@[simp] theorem afterWriteOut_padRc (off : Nat) (v : List Byte) (a : Acks) (s : State) :
    (afterWriteOut off v a s).padRc = s.padRc := rfl
@[simp] theorem afterWriteOut_padWritten (off : Nat) (v : List Byte) (a : Acks) (s : State) :
    (afterWriteOut off v a s).padWritten = s.padWritten := rfl
@[simp] theorem afterWriteOut_outWritten (off : Nat) (v : List Byte) (a : Acks) (s : State) :
    (afterWriteOut off v a s).outWritten = s.outWritten ++ v := rfl
@[simp] theorem afterWriteOut_psAnswers (off : Nat) (v : List Byte) (a : Acks) (s : State) :
    (afterWriteOut off v a s).psAnswers = s.psAnswers := rfl
@[simp] theorem afterWriteOut_inAcks (off : Nat) (v : List Byte) (a : Acks) (s : State) :
    (afterWriteOut off v a s).inAcks = s.inAcks := rfl
@[simp] theorem afterWriteOut_padRdAcks (off : Nat) (v : List Byte) (a : Acks) (s : State) :
    (afterWriteOut off v a s).padRdAcks = s.padRdAcks := rfl
@[simp] theorem afterWriteOut_padWrAcks (off : Nat) (v : List Byte) (a : Acks) (s : State) :
    (afterWriteOut off v a s).padWrAcks = s.padWrAcks := rfl
@[simp] theorem afterWriteOut_outAcks (off : Nat) (v : List Byte) (a : Acks) (s : State) :
    (afterWriteOut off v a s).outAcks = a := rfl
@[simp] theorem afterWriteOut_cmd (off : Nat) (v : List Byte) (a : Acks) (s : State) :
    (afterWriteOut off v a s).cmd = s.cmd := rfl
@[simp] theorem afterWriteOut_inputs (off : Nat) (v : List Byte) (a : Acks) (s : State) :
    (afterWriteOut off v a s).inputs = s.inputs := rfl
@[simp] theorem afterWriteOut_history (off : Nat) (v : List Byte) (a : Acks) (s : State) :
    (afterWriteOut off v a s).history = s.history ++ [.write .OUT off v] := rfl
@[simp] theorem afterWriteOut_free (off : Nat) (v : List Byte) (a : Acks) (s : State) :
    (afterWriteOut off v a s).free = s.free := rfl

@[simp] theorem afterWritePad_lenw (off : Nat) (v : List Byte) (a : Acks) (s : State) :
    (afterWritePad off v a s).lenw = s.lenw := rfl
@[simp] theorem afterWritePad_op (off : Nat) (v : List Byte) (a : Acks) (s : State) :
    (afterWritePad off v a s).op = s.op := rfl
@[simp] theorem afterWritePad_len (off : Nat) (v : List Byte) (a : Acks) (s : State) :
    (afterWritePad off v a s).len = s.len := rfl
@[simp] theorem afterWritePad_plen (off : Nat) (v : List Byte) (a : Acks) (s : State) :
    (afterWritePad off v a s).plen = s.plen := rfl
@[simp] theorem afterWritePad_fb (off : Nat) (v : List Byte) (a : Acks) (s : State) :
    (afterWritePad off v a s).fb = s.fb := rfl
@[simp] theorem afterWritePad_rem (off : Nat) (v : List Byte) (a : Acks) (s : State) :
    (afterWritePad off v a s).rem = s.rem := rfl
@[simp] theorem afterWritePad_ph (off : Nat) (v : List Byte) (a : Acks) (s : State) :
    (afterWritePad off v a s).ph = s.ph := rfl
@[simp] theorem afterWritePad_blk (off : Nat) (v : List Byte) (a : Acks) (s : State) :
    (afterWritePad off v a s).blk = s.blk := rfl
@[simp] theorem afterWritePad_padw (off : Nat) (v : List Byte) (a : Acks) (s : State) :
    (afterWritePad off v a s).padw = s.padw := rfl
@[simp] theorem afterWritePad_buf (off : Nat) (v : List Byte) (a : Acks) (s : State) :
    (afterWritePad off v a s).buf = s.buf := rfl
@[simp] theorem afterWritePad_status (off : Nat) (v : List Byte) (a : Acks) (s : State) :
    (afterWritePad off v a s).status = s.status := rfl
@[simp] theorem afterWritePad_inContent (off : Nat) (v : List Byte) (a : Acks) (s : State) :
    (afterWritePad off v a s).inContent = s.inContent := rfl
@[simp] theorem afterWritePad_inRc (off : Nat) (v : List Byte) (a : Acks) (s : State) :
    (afterWritePad off v a s).inRc = s.inRc := rfl
@[simp] theorem afterWritePad_padContent (off : Nat) (v : List Byte) (a : Acks) (s : State) :
    (afterWritePad off v a s).padContent = s.padContent := rfl
@[simp] theorem afterWritePad_padRc (off : Nat) (v : List Byte) (a : Acks) (s : State) :
    (afterWritePad off v a s).padRc = s.padRc := rfl
@[simp] theorem afterWritePad_padWritten (off : Nat) (v : List Byte) (a : Acks) (s : State) :
    (afterWritePad off v a s).padWritten = s.padWritten ++ v := rfl
@[simp] theorem afterWritePad_outWritten (off : Nat) (v : List Byte) (a : Acks) (s : State) :
    (afterWritePad off v a s).outWritten = s.outWritten := rfl
@[simp] theorem afterWritePad_psAnswers (off : Nat) (v : List Byte) (a : Acks) (s : State) :
    (afterWritePad off v a s).psAnswers = s.psAnswers := rfl
@[simp] theorem afterWritePad_inAcks (off : Nat) (v : List Byte) (a : Acks) (s : State) :
    (afterWritePad off v a s).inAcks = s.inAcks := rfl
@[simp] theorem afterWritePad_padRdAcks (off : Nat) (v : List Byte) (a : Acks) (s : State) :
    (afterWritePad off v a s).padRdAcks = s.padRdAcks := rfl
@[simp] theorem afterWritePad_padWrAcks (off : Nat) (v : List Byte) (a : Acks) (s : State) :
    (afterWritePad off v a s).padWrAcks = a := rfl
@[simp] theorem afterWritePad_outAcks (off : Nat) (v : List Byte) (a : Acks) (s : State) :
    (afterWritePad off v a s).outAcks = s.outAcks := rfl
@[simp] theorem afterWritePad_cmd (off : Nat) (v : List Byte) (a : Acks) (s : State) :
    (afterWritePad off v a s).cmd = s.cmd := rfl
@[simp] theorem afterWritePad_inputs (off : Nat) (v : List Byte) (a : Acks) (s : State) :
    (afterWritePad off v a s).inputs = s.inputs := rfl
@[simp] theorem afterWritePad_history (off : Nat) (v : List Byte) (a : Acks) (s : State) :
    (afterWritePad off v a s).history = s.history ++ [.write .PAD off v] := rfl
@[simp] theorem afterWritePad_free (off : Nat) (v : List Byte) (a : Acks) (s : State) :
    (afterWritePad off v a s).free = s.free := rfl

@[simp] theorem afterDraw_lenw (a : PsAnswer) (s : State) :
    (afterDraw a s).lenw = s.lenw := rfl
@[simp] theorem afterDraw_op (a : PsAnswer) (s : State) :
    (afterDraw a s).op = s.op := rfl
@[simp] theorem afterDraw_len (a : PsAnswer) (s : State) :
    (afterDraw a s).len = s.len := rfl
@[simp] theorem afterDraw_plen (a : PsAnswer) (s : State) :
    (afterDraw a s).plen = s.plen := rfl
@[simp] theorem afterDraw_fb (a : PsAnswer) (s : State) :
    (afterDraw a s).fb = s.fb := rfl
@[simp] theorem afterDraw_rem (a : PsAnswer) (s : State) :
    (afterDraw a s).rem = s.rem := rfl
@[simp] theorem afterDraw_ph (a : PsAnswer) (s : State) :
    (afterDraw a s).ph = s.ph := rfl
@[simp] theorem afterDraw_blk (a : PsAnswer) (s : State) :
    (afterDraw a s).blk = s.blk := rfl
@[simp] theorem afterDraw_padw (a : PsAnswer) (s : State) :
    (afterDraw a s).padw = s.padw := rfl
@[simp] theorem afterDraw_buf (a : PsAnswer) (s : State) :
    (afterDraw a s).buf = s.buf := rfl
@[simp] theorem afterDraw_status (a : PsAnswer) (s : State) :
    (afterDraw a s).status = s.status := rfl
@[simp] theorem afterDraw_inContent (a : PsAnswer) (s : State) :
    (afterDraw a s).inContent = s.inContent := rfl
@[simp] theorem afterDraw_inRc (a : PsAnswer) (s : State) :
    (afterDraw a s).inRc = s.inRc := rfl
@[simp] theorem afterDraw_padContent (a : PsAnswer) (s : State) :
    (afterDraw a s).padContent = s.padContent := rfl
@[simp] theorem afterDraw_padRc (a : PsAnswer) (s : State) :
    (afterDraw a s).padRc = s.padRc := rfl
@[simp] theorem afterDraw_padWritten (a : PsAnswer) (s : State) :
    (afterDraw a s).padWritten = s.padWritten := rfl
@[simp] theorem afterDraw_outWritten (a : PsAnswer) (s : State) :
    (afterDraw a s).outWritten = s.outWritten := rfl
@[simp] theorem afterDraw_psAnswers (a : PsAnswer) (s : State) :
    (afterDraw a s).psAnswers = s.psAnswers.tail := rfl
@[simp] theorem afterDraw_inAcks (a : PsAnswer) (s : State) :
    (afterDraw a s).inAcks = s.inAcks := rfl
@[simp] theorem afterDraw_padRdAcks (a : PsAnswer) (s : State) :
    (afterDraw a s).padRdAcks = s.padRdAcks := rfl
@[simp] theorem afterDraw_padWrAcks (a : PsAnswer) (s : State) :
    (afterDraw a s).padWrAcks = s.padWrAcks := rfl
@[simp] theorem afterDraw_outAcks (a : PsAnswer) (s : State) :
    (afterDraw a s).outAcks = s.outAcks := rfl
@[simp] theorem afterDraw_cmd (a : PsAnswer) (s : State) :
    (afterDraw a s).cmd = s.cmd := rfl
@[simp] theorem afterDraw_inputs (a : PsAnswer) (s : State) :
    (afterDraw a s).inputs = s.inputs := rfl
@[simp] theorem afterDraw_history (a : PsAnswer) (s : State) :
    (afterDraw a s).history = s.history ++ [.draw a] := rfl
@[simp] theorem afterDraw_free (a : PsAnswer) (s : State) :
    (afterDraw a s).free = s.free := rfl

theorem memReadIn_eq (off n : Nat) (s : State) :
    memReadIn off n s = s.inAcks.use.map fun a => (s.inBytes n, afterReadIn off n a s) := rfl

theorem memReadPad_eq (off n : Nat) (s : State) :
    memReadPad off n s = s.padRdAcks.use.map fun a => (s.padBytes n, afterReadPad off n a s) := rfl

theorem memWriteOut_eq (off : Nat) (v : List Byte) (s : State) :
    memWriteOut off v s = s.outAcks.use.map fun a => afterWriteOut off v a s := rfl

theorem memWritePad_eq (off : Nat) (v : List Byte) (s : State) :
    memWritePad off v s = s.padWrAcks.use.map fun a => afterWritePad off v a s := rfl

/-- All that a draw can be (R65, R150). -/
theorem draw_cases (s : State) :
    (s.psAnswers = [] ∧ draw s = none) ∨
      ∃ a l, s.psAnswers = a :: l ∧ draw s = some (a, afterDraw a s) := by
  unfold draw
  cases h : s.psAnswers with
  | nil => exact .inl ⟨rfl, rfl⟩
  | cons a l => exact .inr ⟨a, l, rfl, rfl⟩

/-- All that the gate of `ENCRYPT` can answer (R85). -/
theorem validateEncrypt_cases (s : State) :
    ((s.len ≤ 0 ∨ maxlen s.lenw < s.len) ∧ validateEncrypt s = raise .invalidSize s) ∨
      (1 ≤ s.len ∧ s.len ≤ maxlen s.lenw ∧ validateEncrypt s = goto .split s) := by
  unfold validateEncrypt
  split
  · exact .inl ⟨by assumption, rfl⟩
  · exact .inr ⟨by omega, by omega, rfl⟩

/-- All that the gate of `DECRYPT` can answer (R85). -/
theorem validateDecrypt_cases (s : State) :
    ((s.len ≤ 0 ∨ s.plen ≤ 0 ∨ maxlen s.lenw < s.len ∨ maxlen s.lenw < s.plen) ∧
        validateDecrypt s = raise .invalidSize s) ∨
      (1 ≤ s.len ∧ s.len ≤ maxlen s.lenw ∧ 1 ≤ s.plen ∧ s.plen ≤ maxlen s.lenw ∧ s.len ≠ s.plen ∧
        validateDecrypt s = raise .sizeMismatch s) ∨
      (1 ≤ s.len ∧ s.len ≤ maxlen s.lenw ∧ s.plen = s.len ∧ validateDecrypt s = goto .split s) := by
  unfold validateDecrypt
  split
  · exact .inl ⟨by assumption, rfl⟩
  · split
    · exact .inr (.inl ⟨by omega, by omega, by omega, by omega, by assumption, rfl⟩)
    · exact .inr (.inr ⟨by omega, by omega, by omega, rfl⟩)

/-- All that `PADGET` of `ENCRYPT` can come to (R68). -/
theorem padgetEncrypt_cases (s : State) :
    (s.psAnswers = [] ∧ padgetEncrypt s = .stays) ∨
      (∃ l, s.psAnswers = .fail :: l ∧ padgetEncrypt s = .to (raise .entropyUnavailable (afterDraw .fail s))) ∨
      (∃ w l, s.psAnswers = .ok w :: l ∧
        padgetEncrypt s = .to (goto .padput (loadPadw (bytes8 w) (afterDraw (.ok w) s)))) := by
  unfold padgetEncrypt
  rcases draw_cases s with ⟨h, hd⟩ | ⟨a, l, h, hd⟩ <;> rw [hd]
  · exact .inl ⟨h, rfl⟩
  · cases a with
    | fail => exact .inr (.inl ⟨l, h, rfl⟩)
    | ok w => exact .inr (.inr ⟨w, l, h, rfl⟩)

/-- All that `PADGET` of `DECRYPT` can come to, in a block of `n` bytes (R68). -/
theorem padgetDecrypt_cases {s : State} {n : Nat} (hn : s.blockLen s.blk = some n) :
    (s.padRdAcks.use = none ∧ padgetDecrypt s = .stays) ∨
      ∃ a, s.padRdAcks.use = some a ∧
        (((s.padBytes n).length < n ∧
            padgetDecrypt s = .to (raise .shortRead (afterReadPad (blockOff s.blk) n a s))) ∨
          ((s.padBytes n).length = n ∧
            padgetDecrypt s =
              .to (goto .dataget (loadPadw (s.padBytes n) (afterReadPad (blockOff s.blk) n a s))))) := by
  unfold padgetDecrypt
  rw [hn]
  simp only [memReadPad_eq]
  have hle := padBytes_length_le s n
  cases h : s.padRdAcks.use with
  | none => exact .inl ⟨rfl, rfl⟩
  | some a =>
    refine .inr ⟨a, rfl, ?_⟩
    by_cases hb : (s.padBytes n).length < n
    · exact .inl ⟨hb, by simp [hb]⟩
    · exact .inr ⟨by omega, by simp [hb]⟩

/-- All that `PADPUT` can come to, in a block of `n` bytes whose pad lanes hold values (R102). -/
theorem padput_cases {s : State} {n : Nat} (hn : s.blockLen s.blk = some n) (hp : n ≤ s.padw.length) :
    (s.padWrAcks.use = none ∧ padput s = .stays) ∨
      ∃ a, s.padWrAcks.use = some a ∧
        padput s = .to (goto .dataget (afterWritePad (blockOff s.blk) (s.padw.take n) a s)) := by
  unfold padput
  simp only [hn, lanes_of_le _ _ hp, memWritePad_eq]
  cases h : s.padWrAcks.use with
  | none => exact .inl ⟨rfl, rfl⟩
  | some a => exact .inr ⟨a, rfl, rfl⟩

/-- All that `DATAGET` can come to, in a block of `n` bytes (R92). -/
theorem dataget_cases {s : State} {n : Nat} (hn : s.blockLen s.blk = some n) :
    (s.inAcks.use = none ∧ dataget s = .stays) ∨
      ∃ a, s.inAcks.use = some a ∧
        (((s.inBytes n).length < n ∧ dataget s = .to (raise .shortRead (afterReadIn (blockOff s.blk) n a s))) ∨
          ((s.inBytes n).length = n ∧
            dataget s = .to (goto .dataput (loadBuf (s.inBytes n) (afterReadIn (blockOff s.blk) n a s))))) := by
  unfold dataget
  rw [hn]
  simp only [memReadIn_eq]
  have hle := inBytes_length_le s n
  cases h : s.inAcks.use with
  | none => exact .inl ⟨rfl, rfl⟩
  | some a =>
    refine .inr ⟨a, rfl, ?_⟩
    by_cases hb : (s.inBytes n).length < n
    · exact .inl ⟨hb, by simp [hb]⟩
    · exact .inr ⟨by omega, by simp [hb]⟩

/-- All that `DATAPUT` can come to, in a block of `n` bytes whose lanes hold values (R93). -/
theorem dataput_cases {s : State} {n : Nat} (hn : s.blockLen s.blk = some n) (hb : n ≤ s.buf.length)
    (hp : n ≤ s.padw.length) :
    (s.outAcks.use = none ∧ dataput s = .stays) ∨
      ∃ a, s.outAcks.use = some a ∧
        dataput s =
          .to (nextBlock (afterWriteOut (blockOff s.blk) (xorBytes (s.buf.take n) (s.padw.take n)) a s)) := by
  unfold dataput
  simp only [hn, xdp_of_le _ _ _ hb hp, memWriteOut_eq]
  cases h : s.outAcks.use with
  | none => exact .inl ⟨rfl, rfl⟩
  | some a => exact .inr ⟨a, rfl, rfl⟩

/-- All that the end of `DATAPUT` can be (R93). -/
theorem nextBlock_cases (s : State) :
    (s.more (s.blk + 1) = true ∧ nextBlock s = goto .padget (bumpBlk s)) ∨
      (s.more (s.blk + 1) = false ∧ nextBlock s = finishOk (bumpBlk s)) := by
  unfold nextBlock
  cases h : s.more (s.blk + 1) <;> simp

/-- What the other side can do to the environment at a reset: it moves cursors, takes an answer or adds written bytes,
and leaves all else (R141). -/
theorem performRequested_keeps (s : State) :
    (performRequested s).lenw = s.lenw ∧ (performRequested s).inContent = s.inContent ∧
      (performRequested s).padContent = s.padContent ∧ (performRequested s).cmd = s.cmd ∧
      (performRequested s).inputs = s.inputs ∧ (performRequested s).history = s.history ∧
      s.outWritten <+: (performRequested s).outWritten ∧ s.padWritten <+: (performRequested s).padWritten := by
  unfold performRequested
  split <;> try simp
  · cases lanes s.padw _ <;> simp
  · cases xdp s.buf s.padw _ <;> simp

end Sys2Proof.Machine
end

