-- ==== Sys2Proof/Laws/Run.lean ====
section
/-! SUPPORT. What a transition can do from a consistent state, and what iterating transitions gives. -/

namespace Sys2Proof.Machine

/-! ## One transition -/

theorem advance_encrypt {s : State} (h : s.op = .encrypt) : advance s = advanceEncrypt s := by simp [advance, h]

theorem advance_decrypt {s : State} (h : s.op = .decrypt) : advance s = advanceDecrypt s := by simp [advance, h]

theorem advance_idle {s : State} (h : s.ph = .idle) : advance s = .stays := by
  cases ho : s.op <;> simp [advance, ho, advanceEncrypt, advanceDecrypt, h]

theorem advance_done {s : State} (h : s.ph = .done) : advance s = .stays := by
  cases ho : s.op <;> simp [advance, ho, advanceEncrypt, advanceDecrypt, h]

theorem advance_split {s : State} (h : s.ph = .split) : advance s = .to (split s) := by
  cases ho : s.op <;> simp [advance, ho, advanceEncrypt, advanceDecrypt, h]

theorem advance_dataget {s : State} (h : s.ph = .dataget) : advance s = dataget s := by
  cases ho : s.op <;> simp [advance, ho, advanceEncrypt, advanceDecrypt, h]

theorem advance_dataput {s : State} (h : s.ph = .dataput) : advance s = dataput s := by
  cases ho : s.op <;> simp [advance, ho, advanceEncrypt, advanceDecrypt, h]

theorem advance_validate_encrypt {s : State} (ho : s.op = .encrypt) (h : s.ph = .validate) :
    advance s = .to (validateEncrypt s) := by simp [advance, ho, advanceEncrypt, h]

theorem advance_validate_decrypt {s : State} (ho : s.op = .decrypt) (h : s.ph = .validate) :
    advance s = .to (validateDecrypt s) := by simp [advance, ho, advanceDecrypt, h]

theorem advance_padget_encrypt {s : State} (ho : s.op = .encrypt) (h : s.ph = .padget) :
    advance s = padgetEncrypt s := by simp [advance, ho, advanceEncrypt, h]

theorem advance_padget_decrypt {s : State} (ho : s.op = .decrypt) (h : s.ph = .padget) :
    advance s = padgetDecrypt s := by simp [advance, ho, advanceDecrypt, h]

theorem advance_padput {s : State} (ho : s.op = .encrypt) (h : s.ph = .padput) : advance s = padput s := by
  simp [advance, ho, advanceEncrypt, h]

theorem ready_iff (s : State) : s.ready = true ↔ s.ph = .idle ∨ s.ph = .done := by
  cases h : s.ph <;> simp [State.ready, h]

theorem advance_ready {s : State} (h : s.ready = true) : advance s = .stays := by
  rcases (ready_iff s).1 h with h | h
  · exact advance_idle h
  · exact advance_done h

/-! ## Transitions keep the state consistent, and count down -/

/-- A bound on the transitions that are still to come, by phase (R96). -/
def State.togo (s : State) : Nat :=
  match s.ph with
  | .idle | .done => 0
  | .validate => 4 * totalBlocks s.len.toNat + 2
  | .split => 4 * totalBlocks s.len.toNat + 1
  | .padget => 4 * (totalBlocks s.len.toNat - s.blk)
  | .padput => 4 * (totalBlocks s.len.toNat - s.blk) - 1
  | .dataget => 4 * (totalBlocks s.len.toNat - s.blk) - 2
  | .dataput => 4 * (totalBlocks s.len.toNat - s.blk) - 3

theorem togo_le_fuel (s : State) : s.togo ≤ s.fuel := by
  have h := totalBlocks_eq s.len.toNat
  unfold State.togo State.fuel
  split <;> omega

theorem consistent_of_ready {s : State} (h : s.ready = true) : s.Consistent := by
  rcases (ready_iff s).1 h with h | h <;> simp [State.Consistent, h, Phase.inBlock]

theorem consistent_done {s : State} (h : s.ph = .done) : s.Consistent :=
  consistent_of_ready ((ready_iff s).2 (.inr h))

/-- In a block phase of a consistent state the block has `blockSize LEN BLK` bytes, and it lies inside the length. -/
theorem inBlock_size {s : State} {n : Nat} (hb : s.InBlock n) (hn : s.blockLen s.blk = some n) :
    8 * s.blk < s.len.toNat ∧ n = blockSize s.len.toNat s.blk := by
  obtain ⟨hf, hr, -⟩ := hb
  have hm := (more_iff_blockLen s s.blk).2 ⟨n, hn⟩
  rw [more_split hf hr] at hm
  have hi : 8 * s.blk < s.len.toNat := by simpa using hm
  exact ⟨hi, by simpa [blockLen_split hf hr _ hi, eq_comm] using hn⟩

/-- In a block phase of a consistent state the block exists (R89). -/
theorem blk_lt_totalBlocks {s : State} (hc : s.Consistent) (h : s.ph.inBlock = true) :
    s.blk < totalBlocks s.len.toNat := by
  obtain ⟨-, n, hn, hb⟩ := hc.2.2 h
  exact (lt_totalBlocks _ _).2 (inBlock_size hb hn).1

theorem consistent_validate (s : State) (h : s.ph = .validate) (hu : s.Untouched) : s.Consistent := by
  refine ⟨fun _ => hu, fun h' => ?_, fun h' => ?_⟩
  · rw [h] at h'; cases h'
  · rw [h] at h'; cases h'

theorem consistent_split (s : State) (h : s.ph = .split) (hu : s.Untouched) (hp : s.Passed) : s.Consistent := by
  refine ⟨fun h' => ?_, fun _ => ⟨hu, hp⟩, fun h' => ?_⟩
  · rw [h] at h'; cases h'
  · rw [h] at h'; cases h'

theorem consistent_inBlock (s : State) (n : Nat) (h : s.ph.inBlock = true) (hp : s.Passed)
    (hn : s.blockLen s.blk = some n) (hb : s.InBlock n) : s.Consistent := by
  refine ⟨fun h' => ?_, fun h' => ?_, fun _ => ⟨hp, n, hn, hb⟩⟩
  · rw [h'] at h; cases h
  · rw [h'] at h; cases h

/-- A transition that stays inside the block leaves these registers as they are. -/
def State.SameBlock (s t : State) : Prop :=
  t.lenw = s.lenw ∧ t.op = s.op ∧ t.len = s.len ∧ t.plen = s.plen ∧ t.fb = s.fb ∧ t.rem = s.rem ∧ t.blk = s.blk

theorem passed_congr {s t : State} (h1 : t.lenw = s.lenw) (h2 : t.op = s.op) (h3 : t.len = s.len)
    (h4 : t.plen = s.plen) (hp : s.Passed) : t.Passed := by
  simpa only [State.Passed, h1, h2, h3, h4] using hp

theorem consistent_sameBlock {s t : State} (n : Nat) (e : s.SameBlock t) (h : t.ph.inBlock = true) (hp : s.Passed)
    (hn : s.blockLen s.blk = some n) (hb : t.InBlock n) : t.Consistent := by
  obtain ⟨e1, e2, e3, e4, e5, e6, e7⟩ := e
  exact consistent_inBlock t n h (passed_congr e1 e2 e3 e4 hp) (by rw [blockLen_congr e5 e6, e7]; exact hn) hb

/-- The transition table from a consistent state (R90): the block waits, or goes to a consistent state that is nearer
to the end of the operation; it never stops. -/
theorem advance_consistent {s : State} (h : s.Consistent) :
    advance s = .stays ∨ ∃ t, advance s = .to t ∧ t.Consistent ∧ t.togo < s.togo := by
  obtain ⟨hv, hs, hb⟩ := h
  cases hph : s.ph with
  | idle => exact .inl (advance_idle hph)
  | done => exact .inl (advance_done hph)
  | validate =>
    right
    have hu := hv hph
    cases ho : s.op with
    | encrypt =>
      refine ⟨_, advance_validate_encrypt ho hph, ?_⟩
      rcases validateEncrypt_cases s with ⟨-, h⟩ | ⟨h1, h2, h⟩ <;> rw [h]
      · exact ⟨consistent_done rfl, by simp [State.togo, hph]⟩
      · exact ⟨consistent_split _ rfl hu ⟨h1, h2, by simp [ho]⟩, by simp [State.togo, hph]⟩
    | decrypt =>
      refine ⟨_, advance_validate_decrypt ho hph, ?_⟩
      rcases validateDecrypt_cases s with ⟨-, h⟩ | ⟨-, -, -, -, -, h⟩ | ⟨h1, h2, h3, h⟩ <;> rw [h]
      · exact ⟨consistent_done rfl, by simp [State.togo, hph]⟩
      · exact ⟨consistent_done rfl, by simp [State.togo, hph]⟩
      · exact ⟨consistent_split _ rfl hu ⟨h1, h2, fun _ => h3⟩, by simp [State.togo, hph]⟩
  | split =>
    right
    obtain ⟨⟨h1, h2, h3, h4⟩, hp⟩ := hs hph
    refine ⟨_, advance_split hph, ?_, by simp [State.togo, hph]⟩
    have hl : 8 * 0 < s.len.toNat := by have := hp.1; omega
    refine consistent_inBlock _ _ rfl (passed_congr (s := s) rfl rfl rfl rfl hp)
      (blockLen_split (n := s.len.toNat) rfl rfl _ hl) ?_
    refine ⟨rfl, rfl, by simp [h2], by simp [h1], ?_, by simp, by simp, by simp⟩
    cases ho : s.op <;> simp [State.padCursor, ho, h3, h4]
  | padget =>
    obtain ⟨hp, n, hn, hi⟩ := hb (by rw [hph]; rfl)
    obtain ⟨hlt, hsz⟩ := inBlock_size hi hn
    obtain ⟨hf, hr, how, hic, hpc, hpp, hpl, hbl⟩ := hi
    have hT := (lt_totalBlocks _ _).2 hlt
    simp only [hph] at hic hpc
    cases ho : s.op with
    | encrypt =>
      rw [advance_padget_encrypt ho hph]
      rcases padgetEncrypt_cases s with ⟨-, h⟩ | ⟨l, -, h⟩ | ⟨w, l, -, h⟩ <;> rw [h]
      · exact .inl rfl
      · exact .inr ⟨_, rfl, consistent_done rfl, by simp [State.togo, hph]; omega⟩
      · refine .inr ⟨_, rfl, ?_, by simp [State.togo, hph]; omega⟩
        refine consistent_sameBlock n (s := s) (by simp [State.SameBlock]) rfl hp hn
          ⟨by simpa using hf, by simpa using hr, by simpa using how, by simpa using hic, ?_, by simp [ho], ?_, by simp⟩
        · simpa [State.padCursor, ho] using hpc
        · have := (blockLen_bounds hn).2
          simpa using this
    | decrypt =>
      rw [advance_padget_decrypt ho hph]
      rcases padgetDecrypt_cases hn with ⟨-, h⟩ | ⟨a, -, ⟨-, h⟩ | ⟨hl, h⟩⟩ <;> rw [h]
      · exact .inl rfl
      · exact .inr ⟨_, rfl, consistent_done rfl, by simp [State.togo, hph]; omega⟩
      · refine .inr ⟨_, rfl, ?_, by simp [State.togo, hph]; omega⟩
        refine consistent_sameBlock n (s := s) (by simp [State.SameBlock]) rfl hp hn
          ⟨by simpa using hf, by simpa using hr, by simpa using how, by simpa using hic, ?_, by simp, ?_, by simp⟩
        · simpa [State.padCursor, ho, hl] using hpc
        · simp [hl]
  | padput =>
    obtain ⟨hp, n, hn, hi⟩ := hb (by rw [hph]; rfl)
    obtain ⟨hlt, hsz⟩ := inBlock_size hi hn
    obtain ⟨hf, hr, how, hic, hpc, hpp, hpl, hbl⟩ := hi
    have hT := (lt_totalBlocks _ _).2 hlt
    have ho := hpp hph
    have hpl := hpl (by simp [hph])
    simp only [hph] at hic hpc
    rw [advance_padput ho hph]
    rcases padput_cases hn hpl with ⟨-, h⟩ | ⟨a, -, h⟩ <;> rw [h]
    · exact .inl rfl
    · refine .inr ⟨_, rfl, ?_, by simp [State.togo, hph]; omega⟩
      refine consistent_sameBlock n (s := s) (by simp [State.SameBlock]) rfl hp hn
        ⟨by simpa using hf, by simpa using hr, by simpa using how, by simpa using hic, ?_, by simp, by simpa using hpl,
          by simp⟩
      simpa [State.padCursor, ho, hpl] using hpc
  | dataget =>
    obtain ⟨hp, n, hn, hi⟩ := hb (by rw [hph]; rfl)
    obtain ⟨hlt, hsz⟩ := inBlock_size hi hn
    obtain ⟨hf, hr, how, hic, hpc, hpp, hpl, hbl⟩ := hi
    have hT := (lt_totalBlocks _ _).2 hlt
    have hpl := hpl (by simp [hph])
    simp only [hph] at hic hpc
    rw [advance_dataget hph]
    rcases dataget_cases hn with ⟨-, h⟩ | ⟨a, -, ⟨-, h⟩ | ⟨hl, h⟩⟩ <;> rw [h]
    · exact .inl rfl
    · exact .inr ⟨_, rfl, consistent_done rfl, by simp [State.togo, hph]; omega⟩
    · refine .inr ⟨_, rfl, ?_, by simp [State.togo, hph]; omega⟩
      refine consistent_sameBlock n (s := s) (by simp [State.SameBlock]) rfl hp hn
        ⟨by simpa using hf, by simpa using hr, by simpa using how, ?_, ?_, by simp, by simpa using hpl, by simp [hl]⟩
      · simpa [hl] using hic
      · cases ho : s.op <;> simpa [State.padCursor, ho] using hpc
  | dataput =>
    obtain ⟨hp, n, hn, hi⟩ := hb (by rw [hph]; rfl)
    obtain ⟨hlt, hsz⟩ := inBlock_size hi hn
    obtain ⟨hf, hr, how, hic, hpc, hpp, hpl, hbl⟩ := hi
    have hT := (lt_totalBlocks _ _).2 hlt
    have hpl := hpl (by simp [hph])
    have hbl := hbl hph
    simp only [hph] at hic hpc
    rw [advance_dataput hph]
    rcases dataput_cases hn hbl hpl with ⟨-, h⟩ | ⟨a, -, h⟩ <;> rw [h]
    · exact .inl rfl
    · refine .inr ⟨_, rfl, ?_⟩
      generalize hu : afterWriteOut (blockOff s.blk) (xorBytes (s.buf.take n) (s.padw.take n)) a s = u
      have e1 : u.fb = fullBlocks s.len.toNat := by rw [← hu]; exact hf
      have e2 : u.rem = remainder s.len.toNat := by rw [← hu]; exact hr
      have e3 : u.blk = s.blk := by rw [← hu]; rfl
      have e4 : u.len = s.len := by rw [← hu]; rfl
      have e5 : u.outWritten.length = 8 * s.blk + n := by rw [← hu]; simp [how, hbl, hpl]
      have e6 : u.inRc = 8 * s.blk + n := by rw [← hu]; simpa using hic
      have e7 : u.padCursor = 8 * s.blk + n := by
        have : u.padCursor = s.padCursor := by rw [← hu]; rfl
        rw [this]; simpa using hpc
      have e8 : u.Passed := by rw [← hu]; exact passed_congr (s := s) rfl rfl rfl rfl hp
      rcases nextBlock_cases u with ⟨hm, h⟩ | ⟨hm, h⟩ <;> rw [h]
      · rw [more_split e1 e2, e3] at hm
        have hlt' : 8 * (s.blk + 1) < s.len.toNat := by simpa using hm
        have h8 : n = 8 := by rw [hsz, blockSize_eq]; omega
        subst h8
        have hT' := (lt_totalBlocks _ _).2 hlt'
        have hlt'' : 8 * (u.blk + 1) < s.len.toNat := by rw [e3]; exact hlt'
        refine ⟨consistent_inBlock (goto .padget (bumpBlk u)) _ rfl (passed_congr (s := u) rfl rfl rfl rfl e8)
          (blockLen_split (n := s.len.toNat) (s := goto .padget (bumpBlk u)) e1 e2 _ hlt'')
          ⟨by simpa [e4] using e1, by simpa [e4] using e2, by simp [e5, e3]; omega, by simp [e6, e3]; omega, ?_,
            by simp, by simp, by simp⟩, ?_⟩
        · have : (goto .padget (bumpBlk u)).padCursor = u.padCursor := rfl
          rw [this, e7]; simp [e3]; omega
        · simp [State.togo, hph, e3, e4]; omega
      · exact ⟨consistent_done rfl, by simp [State.togo, hph]; omega⟩

/-! ## Iterated transitions -/

/-- The state after `k` transitions, where the block has that many (R90). -/
def advanceN : Nat → State → Option State
  | 0, s => some s
  | k + 1, s =>
    match advance s with
    | .to t => advanceN k t
    | _ => none

theorem advanceN_succ {s t : State} (h : advance s = .to t) (k : Nat) : advanceN (k + 1) s = advanceN k t := by
  simp [advanceN, h]

theorem advanceN_add {k m : Nat} {s t : State} (h : advanceN k s = some t) : advanceN (k + m) s = advanceN m t := by
  induction k generalizing s with
  | zero => simp only [advanceN, Option.some.injEq] at h; subst h; simp
  | succ k ih =>
    rw [Nat.add_right_comm]
    simp only [advanceN] at h ⊢
    split at h
    · exact ih h
    · cases h

theorem runOn_stays {s : State} (h : advance s = .stays) (m : Nat) : runOn m s = .next s := by
  cases m <;> simp [runOn, h]

theorem runOn_advanceN {k m : Nat} {s t : State} (h : advanceN k s = some t) : runOn (k + m) s = runOn m t := by
  induction k generalizing s with
  | zero => simp only [advanceN, Option.some.injEq] at h; subst h; simp
  | succ k ih =>
    rw [Nat.add_right_comm]
    simp only [advanceN] at h
    simp only [runOn]
    split at h
    · next hu => rw [hu]; exact ih h
    · cases h

/-- From a consistent state at most `togo` transitions follow, and they keep it consistent (R96). -/
theorem advanceN_consistent {k : Nat} {s t : State} (hs : s.Consistent) (h : advanceN k s = some t) :
    t.Consistent ∧ k + t.togo ≤ s.togo := by
  induction k generalizing s with
  | zero => simp only [advanceN, Option.some.injEq] at h; subst h; exact ⟨hs, by omega⟩
  | succ k ih =>
    simp only [advanceN] at h
    rcases advance_consistent hs with hu | ⟨u, hu, hc, hlt⟩
    · rw [hu] at h; cases h
    · rw [hu] at h
      obtain ⟨h1, h2⟩ := ih hc h
      exact ⟨h1, by omega⟩

/-- The running of an operation from a consistent state goes to the first state in which the block has no transition. -/
theorem resume_eq {k : Nat} {s t : State} (hs : s.Consistent) (h : advanceN k s = some t) (ht : advance t = .stays) :
    resume s = .next t := by
  have h1 := (advanceN_consistent hs h).2
  have h2 := togo_le_fuel s
  obtain ⟨m, hm⟩ : ∃ m, s.fuel = k + m := ⟨s.fuel - k, by omega⟩
  rw [resume, hm, runOn_advanceN h, runOn_stays ht]

/-- There is such a state (R96: an operation ends, or waits, after a bounded number of transitions). -/
theorem exists_stays {s : State} (hs : s.Consistent) :
    ∃ k t, advanceN k s = some t ∧ advance t = .stays ∧ t.Consistent := by
  generalize hm : s.togo = m
  induction m using Nat.strong_induction_on generalizing s with
  | _ m ih =>
    subst hm
    rcases advance_consistent hs with hu | ⟨u, hu, hc, hlt⟩
    · exact ⟨0, s, rfl, hu, hs⟩
    · obtain ⟨k, t, h1, h2, h3⟩ := ih _ hlt hc rfl
      exact ⟨k + 1, t, by rw [advanceN_succ hu, h1], h2, h3⟩

theorem resume_consistent {s : State} (hs : s.Consistent) :
    ∃ t, resume s = .next t ∧ t.Consistent ∧ advance t = .stays := by
  obtain ⟨k, t, h1, h2, h3⟩ := exists_stays hs
  exact ⟨t, resume_eq hs h1 h2, h3, h2⟩

theorem accept_consistent (i : Instr) (s : State) : (accept i s).Consistent := by
  cases i <;> exact consistent_validate _ rfl ⟨rfl, rfl, by simp [accept], by simp [accept]⟩

theorem exec_ready {s : State} (h : s.ready = true) (i : Instr) : exec i s = resume (accept i s) := by
  cases i <;> simp [exec, execEncrypt, execDecrypt, accept, h]

theorem exec_busy {s : State} (h : s.ready = false) (i : Instr) : exec i s = .next s := by
  cases i <;> simp [exec, execEncrypt, execDecrypt, h]

/-- A command's meaning is the transitions from its acceptance to the first state in which the block has none. -/
theorem exec_eq {k : Nat} {i : Instr} {s t : State} (h : s.ready = true) (hk : advanceN k (accept i s) = some t)
    (ht : advance t = .stays) : exec i s = .next t := by
  rw [exec_ready h, resume_eq (accept_consistent i s) hk ht]

/-- The induction over a run, once: what every transition keeps holds where the run ends. -/
theorem runOn_keeps (P : State → Prop) (hP : ∀ s t, P s → advance s = .to t → P t) {k : Nat} {s t : State}
    (hs : P s) (h : runOn k s = .next t) : P t := by
  induction k generalizing s with
  | zero => simp only [runOn, Host.Outcome.next.injEq] at h; exact h ▸ hs
  | succ k ih =>
    simp only [runOn] at h
    split at h
    · next u hu => exact ih (hP _ _ hs hu) h
    · simp only [Host.Outcome.next.injEq] at h; exact h ▸ hs
    · cases h

theorem resume_keeps (P : State → Prop) (hP : ∀ s t, P s → advance s = .to t → P t) {s t : State}
    (hs : P s) (h : resume s = .next t) : P t := runOn_keeps P hP hs h

/-! ## All that a transition can be, from any state -/

/-- The rows of R90 in which something is done, with their actions. -/
inductive Transition (s : State) : State → Prop
  | gateFails (k : Failure) (h : s.ph = .validate) (hk : k = .invalidSize ∨ k = .sizeMismatch) :
      Transition s (raise k s)
  | gatePasses (h : s.ph = .validate) : Transition s (goto .split s)
  | splits (h : s.ph = .split) : Transition s (split s)
  | drawFails (l : List PsAnswer) (ho : s.op = .encrypt) (h : s.ph = .padget) (ha : s.psAnswers = .fail :: l) :
      Transition s (raise .entropyUnavailable (afterDraw .fail s))
  | draws (w : Word64) (l : List PsAnswer) (ho : s.op = .encrypt) (h : s.ph = .padget)
      (ha : s.psAnswers = .ok w :: l) : Transition s (goto .padput (loadPadw (bytes8 w) (afterDraw (.ok w) s)))
  | padShort (n : Nat) (a : Acks) (ho : s.op = .decrypt) (h : s.ph = .padget) (hn : s.blockLen s.blk = some n)
      (ha : s.padRdAcks.use = some a) (hb : (s.padBytes n).length < n) :
      Transition s (raise .shortRead (afterReadPad (blockOff s.blk) n a s))
  | padRead (n : Nat) (a : Acks) (ho : s.op = .decrypt) (h : s.ph = .padget) (hn : s.blockLen s.blk = some n)
      (ha : s.padRdAcks.use = some a) (hb : (s.padBytes n).length = n) :
      Transition s (goto .dataget (loadPadw (s.padBytes n) (afterReadPad (blockOff s.blk) n a s)))
  | padWrite (n : Nat) (a : Acks) (ho : s.op = .encrypt) (h : s.ph = .padput) (hn : s.blockLen s.blk = some n)
      (ha : s.padWrAcks.use = some a) (hp : n ≤ s.padw.length) :
      Transition s (goto .dataget (afterWritePad (blockOff s.blk) (s.padw.take n) a s))
  | dataShort (n : Nat) (a : Acks) (h : s.ph = .dataget) (hn : s.blockLen s.blk = some n)
      (ha : s.inAcks.use = some a) (hb : (s.inBytes n).length < n) :
      Transition s (raise .shortRead (afterReadIn (blockOff s.blk) n a s))
  | dataRead (n : Nat) (a : Acks) (h : s.ph = .dataget) (hn : s.blockLen s.blk = some n)
      (ha : s.inAcks.use = some a) (hb : (s.inBytes n).length = n) :
      Transition s (goto .dataput (loadBuf (s.inBytes n) (afterReadIn (blockOff s.blk) n a s)))
  | dataWrite (n : Nat) (a : Acks) (h : s.ph = .dataput) (hn : s.blockLen s.blk = some n)
      (ha : s.outAcks.use = some a) (hb : n ≤ s.buf.length) (hp : n ≤ s.padw.length)
      (hm : s.more (s.blk + 1) = true) :
      Transition s
        (goto .padget
          (bumpBlk (afterWriteOut (blockOff s.blk) (xorBytes (s.buf.take n) (s.padw.take n)) a s)))
  | lastWrite (n : Nat) (a : Acks) (h : s.ph = .dataput) (hn : s.blockLen s.blk = some n)
      (ha : s.outAcks.use = some a) (hb : n ≤ s.buf.length) (hp : n ≤ s.padw.length)
      (hm : s.more (s.blk + 1) = false) :
      Transition s
        (finishOk
          (bumpBlk (afterWriteOut (blockOff s.blk) (xorBytes (s.buf.take n) (s.padw.take n)) a s)))

theorem dataget_transition {s t : State} (hp : s.ph = .dataget) (h : dataget s = .to t) : Transition s t := by
  cases hn : s.blockLen s.blk with
  | none => simp [dataget, hn] at h
  | some n =>
    rcases dataget_cases hn with ⟨-, hd⟩ | ⟨a, ha, ⟨hb, hd⟩ | ⟨hb, hd⟩⟩ <;> rw [hd] at h <;> cases h
    · exact .dataShort n a hp hn ha hb
    · exact .dataRead n a hp hn ha hb

theorem dataput_transition {s t : State} (hp : s.ph = .dataput) (h : dataput s = .to t) : Transition s t := by
  cases hn : s.blockLen s.blk with
  | none => simp [dataput, hn] at h
  | some n =>
    by_cases hb : n ≤ s.buf.length ∧ n ≤ s.padw.length
    · rcases dataput_cases hn hb.1 hb.2 with ⟨-, hd⟩ | ⟨a, ha, hd⟩ <;> rw [hd] at h <;> cases h
      generalize hu : afterWriteOut _ _ _ s = u
      have hm : u.more (u.blk + 1) = s.more (s.blk + 1) := by rw [← hu]; rfl
      rcases nextBlock_cases u with ⟨hx, hy⟩ | ⟨hx, hy⟩ <;> rw [hy, ← hu]
      · exact .dataWrite n a hp hn ha hb.1 hb.2 (hm ▸ hx)
      · exact .lastWrite n a hp hn ha hb.1 hb.2 (hm ▸ hx)
    · have hx : xdp s.buf s.padw n = none := by
        cases hx : xdp s.buf s.padw n with
        | none => rfl
        | some x => exact absurd ((xdp_eq_some _ _ _ _).1 hx) (by tauto)
      simp [dataput, hn, hx] at h

theorem padput_transition {s t : State} (ho : s.op = .encrypt) (hp : s.ph = .padput) (h : padput s = .to t) :
    Transition s t := by
  cases hn : s.blockLen s.blk with
  | none => simp [padput, hn] at h
  | some n =>
    by_cases hl : n ≤ s.padw.length
    · rcases padput_cases hn hl with ⟨-, hd⟩ | ⟨a, ha, hd⟩ <;> rw [hd] at h <;> cases h
      exact .padWrite n a ho hp hn ha hl
    · simp [padput, hn, lanes, hl] at h

theorem padgetDecrypt_transition {s t : State} (ho : s.op = .decrypt) (hp : s.ph = .padget)
    (h : padgetDecrypt s = .to t) : Transition s t := by
  cases hn : s.blockLen s.blk with
  | none => simp [padgetDecrypt, hn] at h
  | some n =>
    rcases padgetDecrypt_cases hn with ⟨-, hd⟩ | ⟨a, ha, ⟨hb, hd⟩ | ⟨hb, hd⟩⟩ <;> rw [hd] at h <;> cases h
    · exact .padShort n a ho hp hn ha hb
    · exact .padRead n a ho hp hn ha hb

/-- If the block takes a transition, it is one of these (R90). -/
theorem advance_transition {s t : State} (h : advance s = .to t) : Transition s t := by
  cases hp : s.ph with
  | idle => rw [advance_idle hp] at h; cases h
  | done => rw [advance_done hp] at h; cases h
  | split => rw [advance_split hp] at h; cases h; exact .splits hp
  | dataget => rw [advance_dataget hp] at h; exact dataget_transition hp h
  | dataput => rw [advance_dataput hp] at h; exact dataput_transition hp h
  | validate =>
    cases ho : s.op with
    | encrypt =>
      rw [advance_validate_encrypt ho hp] at h
      rcases validateEncrypt_cases s with ⟨-, hd⟩ | ⟨-, -, hd⟩ <;> rw [hd] at h <;> cases h
      · exact .gateFails _ hp (.inl rfl)
      · exact .gatePasses hp
    | decrypt =>
      rw [advance_validate_decrypt ho hp] at h
      rcases validateDecrypt_cases s with ⟨-, hd⟩ | ⟨-, -, -, -, -, hd⟩ | ⟨-, -, -, hd⟩ <;> rw [hd] at h <;> cases h
      · exact .gateFails _ hp (.inl rfl)
      · exact .gateFails _ hp (.inr rfl)
      · exact .gatePasses hp
  | padget =>
    cases ho : s.op with
    | encrypt =>
      rw [advance_padget_encrypt ho hp] at h
      rcases padgetEncrypt_cases s with ⟨-, hd⟩ | ⟨l, ha, hd⟩ | ⟨w, l, ha, hd⟩ <;> rw [hd] at h <;> cases h
      · exact .drawFails l ho hp ha
      · exact .draws w l ho hp ha
    | decrypt => rw [advance_padget_decrypt ho hp] at h; exact padgetDecrypt_transition ho hp h
  | padput =>
    cases ho : s.op with
    | encrypt => rw [advance_padput ho hp] at h; exact padput_transition ho hp h
    | decrypt => simp [advance, ho, advanceDecrypt, hp] at h

/-- What a transition of either operation leaves as it was, from any state (R10, R14, R20, R44). -/
theorem advance_keeps {s t : State} (h : advance s = .to t) :
    t.lenw = s.lenw ∧ t.op = s.op ∧ t.len = s.len ∧ t.plen = s.plen ∧ t.inContent = s.inContent ∧
      t.padContent = s.padContent ∧ t.cmd = s.cmd ∧ t.inputs = s.inputs := by
  cases advance_transition h <;> simp

/-- A transition of `ENCRYPT` does not touch the pad's read side (R21). -/
theorem advance_keeps_encrypt {s t : State} (h : advance s = .to t) (ho : s.op = .encrypt) :
    t.padRc = s.padRc ∧ t.padRdAcks = s.padRdAcks := by
  cases advance_transition h <;> simp_all

/-- A transition of `DECRYPT` draws nothing and does not write the pad (R67, R115). -/
theorem advance_keeps_decrypt {s t : State} (h : advance s = .to t) (ho : s.op = .decrypt) :
    t.psAnswers = s.psAnswers ∧ t.padWritten = s.padWritten ∧ t.padWrAcks = s.padWrAcks := by
  cases advance_transition h <;> simp_all

/-- What has been written stays written (R20, R94). -/
theorem advance_appends {s t : State} (h : advance s = .to t) :
    s.outWritten <+: t.outWritten ∧ s.padWritten <+: t.padWritten ∧ s.history <+: t.history := by
  cases advance_transition h <;> simp

/-- An endpoint that acknowledges every request goes on doing so. -/
theorem advance_acked {s t : State} (h : advance s = .to t) (ha : s.Acked) : t.Acked := by
  obtain ⟨h1, h2, h3, h4⟩ := ha
  cases advance_transition h <;> simp_all [State.Acked]

end Sys2Proof.Machine
end

