-- ==== Sys2Proof/Laws/Commute.lean ====
section
/-! SUPPORT. The command pins and the schedule are out of every transition's reach: setting either commutes with each
operation and with the transition itself (R44, R84). -/

namespace Sys2Proof.Machine

/-- What a move becomes when the state it goes to is changed. -/
def Move.map (f : State → State) : Move → Move
  | .to s => .to (f s)
  | .stays => .stays
  | .stuck e => .stuck e

theorem map_to (f : State → State) (s : State) : (Move.to s).map f = .to (f s) := rfl

/-! ## The command pins -/

theorem goto_setCmd (p : Phase) (c : Option CmdWord) (s : State) :
    goto p (setCmd c s) = setCmd c (goto p s) := rfl

theorem loadPadw_setCmd (p : List Byte) (c : Option CmdWord) (s : State) :
    loadPadw p (setCmd c s) = setCmd c (loadPadw p s) := rfl

theorem loadBuf_setCmd (p : List Byte) (c : Option CmdWord) (s : State) :
    loadBuf p (setCmd c s) = setCmd c (loadBuf p s) := rfl

theorem bumpBlk_setCmd (c : Option CmdWord) (s : State) :
    bumpBlk (setCmd c s) = setCmd c (bumpBlk s) := rfl

theorem endWith_setCmd (v : Status) (c : Option CmdWord) (s : State) :
    endWith v (setCmd c s) = setCmd c (endWith v s) := rfl

theorem record_setCmd (e : Event) (c : Option CmdWord) (s : State) :
    record e (setCmd c s) = setCmd c (record e s) := rfl

theorem consumeAnswer_setCmd (c : Option CmdWord) (s : State) :
    consumeAnswer (setCmd c s) = setCmd c (consumeAnswer s) := rfl

theorem split_setCmd (c : Option CmdWord) (s : State) :
    split (setCmd c s) = setCmd c (split s) := rfl

theorem setInAcks_setCmd (k : Acks) (c : Option CmdWord) (s : State) :
    setInAcks k (setCmd c s) = setCmd c (setInAcks k s) := rfl

theorem setPadRdAcks_setCmd (k : Acks) (c : Option CmdWord) (s : State) :
    setPadRdAcks k (setCmd c s) = setCmd c (setPadRdAcks k s) := rfl

theorem setPadWrAcks_setCmd (k : Acks) (c : Option CmdWord) (s : State) :
    setPadWrAcks k (setCmd c s) = setCmd c (setPadWrAcks k s) := rfl

theorem setOutAcks_setCmd (k : Acks) (c : Option CmdWord) (s : State) :
    setOutAcks k (setCmd c s) = setCmd c (setOutAcks k s) := rfl

theorem consumeIn_setCmd (n : Nat) (c : Option CmdWord) (s : State) :
    consumeIn n (setCmd c s) = setCmd c (consumeIn n s) := rfl

theorem consumePad_setCmd (n : Nat) (c : Option CmdWord) (s : State) :
    consumePad n (setCmd c s) = setCmd c (consumePad n s) := rfl

theorem appendOut_setCmd (x : List Byte) (c : Option CmdWord) (s : State) :
    appendOut x (setCmd c s) = setCmd c (appendOut x s) := rfl

theorem appendPad_setCmd (x : List Byte) (c : Option CmdWord) (s : State) :
    appendPad x (setCmd c s) = setCmd c (appendPad x s) := rfl

theorem blockLen_setCmd (c : Option CmdWord) (s : State) (b : Nat) : (setCmd c s).blockLen b = s.blockLen b := rfl

theorem more_setCmd (c : Option CmdWord) (s : State) (b : Nat) : (setCmd c s).more b = s.more b := rfl

theorem inBytes_setCmd (c : Option CmdWord) (s : State) (n : Nat) : (setCmd c s).inBytes n = s.inBytes n := rfl

theorem padBytes_setCmd (c : Option CmdWord) (s : State) (n : Nat) : (setCmd c s).padBytes n = s.padBytes n := rfl

theorem raise_setCmd (k : Failure) (c : Option CmdWord) (s : State) :
    raise k (setCmd c s) = setCmd c (raise k s) := by
  simp only [raise, endWith_setCmd, record_setCmd]

theorem finishOk_setCmd (c : Option CmdWord) (s : State) :
    finishOk (setCmd c s) = setCmd c (finishOk s) := by
  simp only [finishOk, endWith_setCmd, record_setCmd]

theorem afterReadIn_setCmd (off n : Nat) (k : Acks) (c : Option CmdWord) (s : State) :
    afterReadIn off n k (setCmd c s) = setCmd c (afterReadIn off n k s) := by
  simp only [afterReadIn, consumeIn_setCmd, setInAcks_setCmd, record_setCmd, inBytes_setCmd]

theorem afterReadPad_setCmd (off n : Nat) (k : Acks) (c : Option CmdWord) (s : State) :
    afterReadPad off n k (setCmd c s) = setCmd c (afterReadPad off n k s) := by
  simp only [afterReadPad, consumePad_setCmd, setPadRdAcks_setCmd, record_setCmd, padBytes_setCmd]

theorem afterWriteOut_setCmd (off : Nat) (x : List Byte) (k : Acks) (c : Option CmdWord) (s : State) :
    afterWriteOut off x k (setCmd c s) = setCmd c (afterWriteOut off x k s) := by
  simp only [afterWriteOut, appendOut_setCmd, setOutAcks_setCmd, record_setCmd]

theorem afterWritePad_setCmd (off : Nat) (x : List Byte) (k : Acks) (c : Option CmdWord) (s : State) :
    afterWritePad off x k (setCmd c s) = setCmd c (afterWritePad off x k s) := by
  simp only [afterWritePad, appendPad_setCmd, setPadWrAcks_setCmd, record_setCmd]

theorem afterDraw_setCmd (d : PsAnswer) (c : Option CmdWord) (s : State) :
    afterDraw d (setCmd c s) = setCmd c (afterDraw d s) := by
  simp only [afterDraw, consumeAnswer_setCmd, record_setCmd]

theorem dataget_setCmd (c : Option CmdWord) (s : State) :
    dataget (setCmd c s) = (dataget s).map (setCmd c) := by
  simp only [dataget, blockLen_setCmd, setCmd_blk, memReadIn_eq, setCmd_inAcks, inBytes_setCmd]
  cases s.blockLen s.blk with
  | none => rfl
  | some n =>
    dsimp only
    cases s.inAcks.use with
    | none => rfl
    | some k =>
      simp only [Option.map_some, afterReadIn_setCmd, raise_setCmd, loadBuf_setCmd, goto_setCmd, apply_ite (Move.map (setCmd c)),
        map_to]

theorem nextBlock_setCmd (c : Option CmdWord) (s : State) :
    nextBlock (setCmd c s) = setCmd c (nextBlock s) := by
  simp only [nextBlock, more_setCmd, setCmd_blk, bumpBlk_setCmd, goto_setCmd, finishOk_setCmd, apply_ite (setCmd c)]

theorem dataput_setCmd (c : Option CmdWord) (s : State) :
    dataput (setCmd c s) = (dataput s).map (setCmd c) := by
  simp only [dataput, blockLen_setCmd, setCmd_blk, memWriteOut_eq, setCmd_outAcks, setCmd_buf, setCmd_padw]
  cases s.blockLen s.blk with
  | none => rfl
  | some n =>
    dsimp only
    cases xdp s.buf s.padw n with
    | none => rfl
    | some x =>
      dsimp only
      cases s.outAcks.use with
      | none => rfl
      | some k => simp only [Option.map_some, afterWriteOut_setCmd, nextBlock_setCmd, Move.map]

theorem padput_setCmd (c : Option CmdWord) (s : State) :
    padput (setCmd c s) = (padput s).map (setCmd c) := by
  simp only [padput, blockLen_setCmd, setCmd_blk, memWritePad_eq, setCmd_padWrAcks, setCmd_padw]
  cases s.blockLen s.blk with
  | none => rfl
  | some n =>
    dsimp only
    cases lanes s.padw n with
    | none => rfl
    | some x =>
      dsimp only
      cases s.padWrAcks.use with
      | none => rfl
      | some k => simp only [Option.map_some, afterWritePad_setCmd, goto_setCmd, Move.map]

theorem padgetDecrypt_setCmd (c : Option CmdWord) (s : State) :
    padgetDecrypt (setCmd c s) = (padgetDecrypt s).map (setCmd c) := by
  simp only [padgetDecrypt, blockLen_setCmd, setCmd_blk, memReadPad_eq, setCmd_padRdAcks, padBytes_setCmd]
  cases s.blockLen s.blk with
  | none => rfl
  | some n =>
    dsimp only
    cases s.padRdAcks.use with
    | none => rfl
    | some k =>
      simp only [Option.map_some, afterReadPad_setCmd, raise_setCmd, loadPadw_setCmd, goto_setCmd,
        apply_ite (Move.map (setCmd c)), map_to]

theorem padgetEncrypt_setCmd (c : Option CmdWord) (s : State) :
    padgetEncrypt (setCmd c s) = (padgetEncrypt s).map (setCmd c) := by
  simp only [padgetEncrypt, draw, setCmd_psAnswers]
  cases s.psAnswers with
  | nil => rfl
  | cons d _ =>
    cases d <;>
      simp only [record_setCmd, consumeAnswer_setCmd, raise_setCmd, loadPadw_setCmd, goto_setCmd, Move.map]

theorem validateEncrypt_setCmd (c : Option CmdWord) (s : State) :
    validateEncrypt (setCmd c s) = setCmd c (validateEncrypt s) := by
  simp only [validateEncrypt, setCmd_len, setCmd_lenw, raise_setCmd, goto_setCmd, apply_ite (setCmd c)]

theorem validateDecrypt_setCmd (c : Option CmdWord) (s : State) :
    validateDecrypt (setCmd c s) = setCmd c (validateDecrypt s) := by
  simp only [validateDecrypt, setCmd_len, setCmd_plen, setCmd_lenw, raise_setCmd, goto_setCmd, apply_ite (setCmd c)]

/-- A transition of R90 neither looks at it nor touches it. -/
theorem advance_setCmd (c : Option CmdWord) (s : State) : advance (setCmd c s) = (advance s).map (setCmd c) := by
  cases ho : s.op <;> cases hp : s.ph <;>
    simp only [advance, advanceEncrypt, advanceDecrypt, setCmd_op, setCmd_ph, ho, hp, dataget_setCmd, dataput_setCmd,
      padput_setCmd, padgetDecrypt_setCmd, padgetEncrypt_setCmd, split_setCmd, validateEncrypt_setCmd, validateDecrypt_setCmd,
      Move.map]

theorem runOn_setCmd (c : Option CmdWord) (k : Nat) (s t : State) (h : runOn k s = .next t) :
    runOn k (setCmd c s) = .next (setCmd c t) := by
  induction k generalizing s with
  | zero => simp only [runOn, Host.Outcome.next.injEq] at h ⊢; rw [h]
  | succ k ih =>
    simp only [runOn, advance_setCmd] at h ⊢
    cases hm : advance s <;> rw [hm] at h
    · exact ih _ h
    · cases h; rfl
    · cases h

/-! ## The schedule -/

theorem goto_setInputs (p : Phase) (l : List Input) (s : State) :
    goto p (setInputs l s) = setInputs l (goto p s) := rfl

theorem loadPadw_setInputs (p : List Byte) (l : List Input) (s : State) :
    loadPadw p (setInputs l s) = setInputs l (loadPadw p s) := rfl

theorem loadBuf_setInputs (p : List Byte) (l : List Input) (s : State) :
    loadBuf p (setInputs l s) = setInputs l (loadBuf p s) := rfl

theorem bumpBlk_setInputs (l : List Input) (s : State) :
    bumpBlk (setInputs l s) = setInputs l (bumpBlk s) := rfl

theorem endWith_setInputs (v : Status) (l : List Input) (s : State) :
    endWith v (setInputs l s) = setInputs l (endWith v s) := rfl

theorem record_setInputs (e : Event) (l : List Input) (s : State) :
    record e (setInputs l s) = setInputs l (record e s) := rfl

theorem consumeAnswer_setInputs (l : List Input) (s : State) :
    consumeAnswer (setInputs l s) = setInputs l (consumeAnswer s) := rfl

theorem split_setInputs (l : List Input) (s : State) :
    split (setInputs l s) = setInputs l (split s) := rfl

theorem setInAcks_setInputs (k : Acks) (l : List Input) (s : State) :
    setInAcks k (setInputs l s) = setInputs l (setInAcks k s) := rfl

theorem setPadRdAcks_setInputs (k : Acks) (l : List Input) (s : State) :
    setPadRdAcks k (setInputs l s) = setInputs l (setPadRdAcks k s) := rfl

theorem setPadWrAcks_setInputs (k : Acks) (l : List Input) (s : State) :
    setPadWrAcks k (setInputs l s) = setInputs l (setPadWrAcks k s) := rfl

theorem setOutAcks_setInputs (k : Acks) (l : List Input) (s : State) :
    setOutAcks k (setInputs l s) = setInputs l (setOutAcks k s) := rfl

theorem consumeIn_setInputs (n : Nat) (l : List Input) (s : State) :
    consumeIn n (setInputs l s) = setInputs l (consumeIn n s) := rfl

theorem consumePad_setInputs (n : Nat) (l : List Input) (s : State) :
    consumePad n (setInputs l s) = setInputs l (consumePad n s) := rfl

theorem appendOut_setInputs (x : List Byte) (l : List Input) (s : State) :
    appendOut x (setInputs l s) = setInputs l (appendOut x s) := rfl

theorem appendPad_setInputs (x : List Byte) (l : List Input) (s : State) :
    appendPad x (setInputs l s) = setInputs l (appendPad x s) := rfl

theorem blockLen_setInputs (l : List Input) (s : State) (b : Nat) : (setInputs l s).blockLen b = s.blockLen b := rfl

theorem more_setInputs (l : List Input) (s : State) (b : Nat) : (setInputs l s).more b = s.more b := rfl

theorem inBytes_setInputs (l : List Input) (s : State) (n : Nat) : (setInputs l s).inBytes n = s.inBytes n := rfl

theorem padBytes_setInputs (l : List Input) (s : State) (n : Nat) : (setInputs l s).padBytes n = s.padBytes n := rfl

theorem raise_setInputs (k : Failure) (l : List Input) (s : State) :
    raise k (setInputs l s) = setInputs l (raise k s) := by
  simp only [raise, endWith_setInputs, record_setInputs]

theorem finishOk_setInputs (l : List Input) (s : State) :
    finishOk (setInputs l s) = setInputs l (finishOk s) := by
  simp only [finishOk, endWith_setInputs, record_setInputs]

theorem afterReadIn_setInputs (off n : Nat) (k : Acks) (l : List Input) (s : State) :
    afterReadIn off n k (setInputs l s) = setInputs l (afterReadIn off n k s) := by
  simp only [afterReadIn, consumeIn_setInputs, setInAcks_setInputs, record_setInputs, inBytes_setInputs]

theorem afterReadPad_setInputs (off n : Nat) (k : Acks) (l : List Input) (s : State) :
    afterReadPad off n k (setInputs l s) = setInputs l (afterReadPad off n k s) := by
  simp only [afterReadPad, consumePad_setInputs, setPadRdAcks_setInputs, record_setInputs, padBytes_setInputs]

theorem afterWriteOut_setInputs (off : Nat) (x : List Byte) (k : Acks) (l : List Input) (s : State) :
    afterWriteOut off x k (setInputs l s) = setInputs l (afterWriteOut off x k s) := by
  simp only [afterWriteOut, appendOut_setInputs, setOutAcks_setInputs, record_setInputs]

theorem afterWritePad_setInputs (off : Nat) (x : List Byte) (k : Acks) (l : List Input) (s : State) :
    afterWritePad off x k (setInputs l s) = setInputs l (afterWritePad off x k s) := by
  simp only [afterWritePad, appendPad_setInputs, setPadWrAcks_setInputs, record_setInputs]

theorem afterDraw_setInputs (d : PsAnswer) (l : List Input) (s : State) :
    afterDraw d (setInputs l s) = setInputs l (afterDraw d s) := by
  simp only [afterDraw, consumeAnswer_setInputs, record_setInputs]

theorem dataget_setInputs (l : List Input) (s : State) :
    dataget (setInputs l s) = (dataget s).map (setInputs l) := by
  simp only [dataget, blockLen_setInputs, setInputs_blk, memReadIn_eq, setInputs_inAcks, inBytes_setInputs]
  cases s.blockLen s.blk with
  | none => rfl
  | some n =>
    dsimp only
    cases s.inAcks.use with
    | none => rfl
    | some k =>
      simp only [Option.map_some, afterReadIn_setInputs, raise_setInputs, loadBuf_setInputs, goto_setInputs, apply_ite (Move.map (setInputs l)),
        map_to]

theorem nextBlock_setInputs (l : List Input) (s : State) :
    nextBlock (setInputs l s) = setInputs l (nextBlock s) := by
  simp only [nextBlock, more_setInputs, setInputs_blk, bumpBlk_setInputs, goto_setInputs, finishOk_setInputs, apply_ite (setInputs l)]

theorem dataput_setInputs (l : List Input) (s : State) :
    dataput (setInputs l s) = (dataput s).map (setInputs l) := by
  simp only [dataput, blockLen_setInputs, setInputs_blk, memWriteOut_eq, setInputs_outAcks, setInputs_buf, setInputs_padw]
  cases s.blockLen s.blk with
  | none => rfl
  | some n =>
    dsimp only
    cases xdp s.buf s.padw n with
    | none => rfl
    | some x =>
      dsimp only
      cases s.outAcks.use with
      | none => rfl
      | some k => simp only [Option.map_some, afterWriteOut_setInputs, nextBlock_setInputs, Move.map]

theorem padput_setInputs (l : List Input) (s : State) :
    padput (setInputs l s) = (padput s).map (setInputs l) := by
  simp only [padput, blockLen_setInputs, setInputs_blk, memWritePad_eq, setInputs_padWrAcks, setInputs_padw]
  cases s.blockLen s.blk with
  | none => rfl
  | some n =>
    dsimp only
    cases lanes s.padw n with
    | none => rfl
    | some x =>
      dsimp only
      cases s.padWrAcks.use with
      | none => rfl
      | some k => simp only [Option.map_some, afterWritePad_setInputs, goto_setInputs, Move.map]

theorem padgetDecrypt_setInputs (l : List Input) (s : State) :
    padgetDecrypt (setInputs l s) = (padgetDecrypt s).map (setInputs l) := by
  simp only [padgetDecrypt, blockLen_setInputs, setInputs_blk, memReadPad_eq, setInputs_padRdAcks, padBytes_setInputs]
  cases s.blockLen s.blk with
  | none => rfl
  | some n =>
    dsimp only
    cases s.padRdAcks.use with
    | none => rfl
    | some k =>
      simp only [Option.map_some, afterReadPad_setInputs, raise_setInputs, loadPadw_setInputs, goto_setInputs,
        apply_ite (Move.map (setInputs l)), map_to]

theorem padgetEncrypt_setInputs (l : List Input) (s : State) :
    padgetEncrypt (setInputs l s) = (padgetEncrypt s).map (setInputs l) := by
  simp only [padgetEncrypt, draw, setInputs_psAnswers]
  cases s.psAnswers with
  | nil => rfl
  | cons d _ =>
    cases d <;>
      simp only [record_setInputs, consumeAnswer_setInputs, raise_setInputs, loadPadw_setInputs, goto_setInputs, Move.map]

theorem validateEncrypt_setInputs (l : List Input) (s : State) :
    validateEncrypt (setInputs l s) = setInputs l (validateEncrypt s) := by
  simp only [validateEncrypt, setInputs_len, setInputs_lenw, raise_setInputs, goto_setInputs, apply_ite (setInputs l)]

theorem validateDecrypt_setInputs (l : List Input) (s : State) :
    validateDecrypt (setInputs l s) = setInputs l (validateDecrypt s) := by
  simp only [validateDecrypt, setInputs_len, setInputs_plen, setInputs_lenw, raise_setInputs, goto_setInputs, apply_ite (setInputs l)]

/-- A transition of R90 neither looks at it nor touches it. -/
theorem advance_setInputs (l : List Input) (s : State) : advance (setInputs l s) = (advance s).map (setInputs l) := by
  cases ho : s.op <;> cases hp : s.ph <;>
    simp only [advance, advanceEncrypt, advanceDecrypt, setInputs_op, setInputs_ph, ho, hp, dataget_setInputs, dataput_setInputs,
      padput_setInputs, padgetDecrypt_setInputs, padgetEncrypt_setInputs, split_setInputs, validateEncrypt_setInputs, validateDecrypt_setInputs,
      Move.map]

theorem runOn_setInputs (l : List Input) (k : Nat) (s t : State) (h : runOn k s = .next t) :
    runOn k (setInputs l s) = .next (setInputs l t) := by
  induction k generalizing s with
  | zero => simp only [runOn, Host.Outcome.next.injEq] at h ⊢; rw [h]
  | succ k ih =>
    simp only [runOn, advance_setInputs] at h ⊢
    cases hm : advance s <;> rw [hm] at h
    · exact ih _ h
    · cases h; rfl
    · cases h

end Sys2Proof.Machine
end

