-- ==== Sys2Proof/Laws/Streams.lean ====
section
/-! SUPPORT. The byte sequences and event histories the statements speak of, block by block. -/

namespace Sys2Proof.Machine

@[simp] theorem padOf_nil : padOf [] = [] := rfl

@[simp] theorem padOf_append (ws vs : List Word64) : padOf (ws ++ vs) = padOf ws ++ padOf vs := by simp [padOf]

@[simp] theorem padOf_single (w : Word64) : padOf [w] = bytes8 w := by simp [padOf]

@[simp] theorem padOf_length (ws : List Word64) : (padOf ws).length = 8 * ws.length := by
  induction ws with
  | nil => rfl
  | cons w ws ih =>
    have : padOf (w :: ws) = bytes8 w ++ padOf ws := by simp [padOf]
    rw [this, List.length_append, ih, bytes8_length, List.length_cons]; omega

/-- Byte `j` of the pad stream is lane `j mod 8` of word `j div 8` (R54). -/
theorem padOf_get (ws : List Word64) (j : Nat) : (padOf ws)[j]? = (ws[j / 8]?).map (fun w => lane w (j % 8)) := by
  induction ws generalizing j with
  | nil => simp
  | cons w ws ih =>
    have hw : padOf (w :: ws) = bytes8 w ++ padOf ws := by simp [padOf]
    rw [hw]
    rcases Nat.lt_or_ge j 8 with h | h
    · rw [List.getElem?_append_left (by simpa using h), bytes8_get _ _ h, Nat.div_eq_of_lt h, Nat.mod_eq_of_lt h]
      simp
    · obtain ⟨k, rfl⟩ := Nat.exists_eq_add_of_le h
      rw [List.getElem?_append_right (by simp), bytes8_length, Nat.add_sub_cancel_left, ih]
      have h1 : (8 + k) / 8 = k / 8 + 1 := by omega
      have h2 : (8 + k) % 8 = k % 8 := by omega
      rw [h1, h2, List.getElem?_cons_succ]

@[simp] theorem transactions_nil : transactions [] = 0 := rfl

@[simp] theorem transactions_append (h k : List Event) : transactions (h ++ k) = transactions h + transactions k := by
  simp [transactions]

@[simp] theorem transactions_cons (e : Event) (h : List Event) :
    transactions (e :: h) = (if e.isTransaction then 1 else 0) + transactions h := by
  simp [transactions, List.countP_cons, Nat.add_comm]

@[simp] theorem encryptEvents_nil (p : List Byte) (n i : Nat) : encryptEvents p n i [] = [] := rfl

theorem encryptEvents_snoc (p : List Byte) (n i : Nat) (ws : List Word64) (w : Word64) :
    encryptEvents p n i (ws ++ [w]) = encryptEvents p n i ws ++ encryptBlockEvents p n (i + ws.length) w := by
  induction ws generalizing i with
  | nil => simp [encryptEvents]
  | cons v ws ih =>
    simp only [List.cons_append, encryptEvents, ih, List.append_assoc, List.length_cons]
    rw [Nat.add_right_comm, Nat.add_assoc]

theorem encryptEvents_transactions (p : List Byte) (n i : Nat) (ws : List Word64) :
    transactions (encryptEvents p n i ws) = 4 * ws.length := by
  induction ws generalizing i with
  | nil => rfl
  | cons w ws ih =>
    have h4 : transactions (encryptBlockEvents p n i w) = 4 := rfl
    have := ih (i + 1)
    simp only [transactions, encryptEvents, List.countP_append, List.length_cons] at this h4 ⊢
    omega

theorem decryptEvents_transactions (c k : List Byte) (n t : Nat) : transactions (decryptEvents c k n t) = 3 * t := by
  induction t with
  | zero => rfl
  | succ t ih =>
    have h3 : transactions (decryptBlockEvents c k n t) = 3 := rfl
    simp only [transactions, decryptEvents, List.countP_append] at ih h3 ⊢
    omega

/-- One block more of a stream and of its exclusive or with another (R78). -/
theorem xorBytes_take_block (a b : List Byte) (m n : Nat) (ha : m ≤ a.length) (hb : m ≤ b.length) :
    xorBytes (a.take (m + n)) (b.take (m + n)) =
      xorBytes (a.take m) (b.take m) ++ xorBytes ((a.drop m).take n) ((b.drop m).take n) := by
  rw [List.take_add, List.take_add, xorBytes_append]
  simp only [List.length_take]; omega

/-! ## The data read and the data write of a block, the same for both commands (R78, R92, R93) -/

/-- The state after the data read and the data write of a block of `n` bytes, endpoints acknowledging. -/
def afterData (n : Nat) (s : State) : State :=
  afterWriteOut (blockOff s.blk) (xorBytes (s.inBytes n) (s.padw.take n)) .always
    (goto .dataput (loadBuf (s.inBytes n) (afterReadIn (blockOff s.blk) n .always s)))

@[simp] theorem afterData_lenw (n : Nat) (s : State) :
    (afterData n s).lenw = s.lenw := by simp [afterData]
@[simp] theorem afterData_op (n : Nat) (s : State) :
    (afterData n s).op = s.op := by simp [afterData]
@[simp] theorem afterData_len (n : Nat) (s : State) :
    (afterData n s).len = s.len := by simp [afterData]
@[simp] theorem afterData_plen (n : Nat) (s : State) :
    (afterData n s).plen = s.plen := by simp [afterData]
@[simp] theorem afterData_fb (n : Nat) (s : State) :
    (afterData n s).fb = s.fb := by simp [afterData]
@[simp] theorem afterData_rem (n : Nat) (s : State) :
    (afterData n s).rem = s.rem := by simp [afterData]
@[simp] theorem afterData_ph (n : Nat) (s : State) :
    (afterData n s).ph = .dataput := by simp [afterData]
@[simp] theorem afterData_blk (n : Nat) (s : State) :
    (afterData n s).blk = s.blk := by simp [afterData]
@[simp] theorem afterData_padw (n : Nat) (s : State) :
    (afterData n s).padw = s.padw := by simp [afterData]
@[simp] theorem afterData_buf (n : Nat) (s : State) :
    (afterData n s).buf = s.inBytes n := by simp [afterData]
@[simp] theorem afterData_status (n : Nat) (s : State) :
    (afterData n s).status = s.status := by simp [afterData]
@[simp] theorem afterData_inContent (n : Nat) (s : State) :
    (afterData n s).inContent = s.inContent := by simp [afterData]
@[simp] theorem afterData_inRc (n : Nat) (s : State) :
    (afterData n s).inRc = s.inRc + (s.inBytes n).length := by simp [afterData]
@[simp] theorem afterData_padContent (n : Nat) (s : State) :
    (afterData n s).padContent = s.padContent := by simp [afterData]
@[simp] theorem afterData_padRc (n : Nat) (s : State) :
    (afterData n s).padRc = s.padRc := by simp [afterData]
@[simp] theorem afterData_padWritten (n : Nat) (s : State) :
    (afterData n s).padWritten = s.padWritten := by simp [afterData]
@[simp] theorem afterData_outWritten (n : Nat) (s : State) :
    (afterData n s).outWritten = s.outWritten ++ xorBytes (s.inBytes n) (s.padw.take n) := by simp [afterData]
@[simp] theorem afterData_psAnswers (n : Nat) (s : State) :
    (afterData n s).psAnswers = s.psAnswers := by simp [afterData]
@[simp] theorem afterData_inAcks (n : Nat) (s : State) :
    (afterData n s).inAcks = .always := by simp [afterData]
@[simp] theorem afterData_padRdAcks (n : Nat) (s : State) :
    (afterData n s).padRdAcks = s.padRdAcks := by simp [afterData]
@[simp] theorem afterData_padWrAcks (n : Nat) (s : State) :
    (afterData n s).padWrAcks = s.padWrAcks := by simp [afterData]
@[simp] theorem afterData_outAcks (n : Nat) (s : State) :
    (afterData n s).outAcks = .always := by simp [afterData]
@[simp] theorem afterData_cmd (n : Nat) (s : State) :
    (afterData n s).cmd = s.cmd := by simp [afterData]
@[simp] theorem afterData_inputs (n : Nat) (s : State) :
    (afterData n s).inputs = s.inputs := by simp [afterData]
@[simp] theorem afterData_history (n : Nat) (s : State) :
    (afterData n s).history = s.history ++ [.read .IN (blockOff s.blk) n (s.inBytes n)] ++
      [.write .OUT (blockOff s.blk) (xorBytes (s.inBytes n) (s.padw.take n))] := by simp [afterData]
@[simp] theorem afterData_free (n : Nat) (s : State) :
    (afterData n s).free = s.free := by simp [afterData]

theorem data_ok {s : State} {n : Nat} (hph : s.ph = .dataget) (hn : s.blockLen s.blk = some n)
    (hb : (s.inBytes n).length = n) (hp : n ≤ s.padw.length) (hi : s.inAcks = .always) (ho : s.outAcks = .always) :
    advanceN 2 s = some (nextBlock (afterData n s)) := by
  rcases dataget_cases hn with ⟨h, -⟩ | ⟨a, ha, ⟨h, -⟩ | ⟨-, hd⟩⟩
  · rw [hi] at h; cases h
  · omega
  rw [hi, use_always, Option.some.injEq] at ha
  subst ha
  have h1 := (advance_dataget hph).trans hd
  generalize hx : goto .dataput (loadBuf (s.inBytes n) (afterReadIn (blockOff s.blk) n .always s)) = x at h1
  have hkx : x.blk = s.blk := by simp [← hx]
  have hnx : x.blockLen x.blk = some n := by
    rw [blockLen_congr (s := s) (by simp [← hx]) (by simp [← hx]), hkx]
    exact hn
  have hbx : x.buf = s.inBytes n := by simp [← hx]
  have hpx : x.padw = s.padw := by simp [← hx]
  have hox : x.outAcks = .always := by simp [← hx, ho]
  have hphx : x.ph = .dataput := by simp [← hx]
  rcases dataput_cases hnx (by rw [hbx, hb]) (by rw [hpx]; exact hp) with ⟨h, -⟩ | ⟨a, ha, hd⟩
  · rw [hox] at h; cases h
  rw [hox, use_always, Option.some.injEq] at ha
  subst ha
  have h2 := (advance_dataput hphx).trans hd
  rw [advanceN_succ h1, advanceN_succ h2, hbx, hpx, hkx, List.take_of_length_le (Nat.le_of_eq hb), ← hx, afterData]
  simp only [advanceN]

theorem data_short {s : State} {n : Nat} (hph : s.ph = .dataget) (hn : s.blockLen s.blk = some n)
    (hb : (s.inBytes n).length < n) (hi : s.inAcks = .always) :
    advance s = .to (raise .shortRead (afterReadIn (blockOff s.blk) n .always s)) := by
  rw [advance_dataget hph]
  rcases dataget_cases hn with ⟨h, -⟩ | ⟨a, ha, ⟨-, hd⟩ | ⟨h, -⟩⟩
  · rw [hi] at h; cases h
  · rw [hi, use_always, Option.some.injEq] at ha
    rw [hd, ← ha]
  · omega

end Sys2Proof.Machine
end

