-- ==== Sys2Proof/Laws/Decrypt.lean ====
section
/-! SUPPORT. `DECRYPT` block by block: the loop invariant of R114, and how a run comes to the top of each block. -/

namespace Sys2Proof.Machine

/-- The state at the top of block `i` (R114: "at the top of the loop `rc(PAD) = rc(IN) = wc(OUT) = 8 * BLK`"). -/
structure DecryptTop (n : Nat) (c k : List Byte) (i : Nat) (t : State) : Prop where
  op : t.op = .decrypt
  ph : t.ph = .padget
  len : t.len = n
  plen : t.plen = n
  fb : t.fb = fullBlocks n
  rem : t.rem = remainder n
  blk : t.blk = i
  content : t.inContent = c
  pad : t.padContent = k
  rc : t.inRc = 8 * i
  padRc : t.padRc = 8 * i
  out : t.outWritten = xorBytes (c.take (8 * i)) (k.take (8 * i))
  history : t.history = [.start .decrypt, .sizeQ .IN n, .sizeQ .PAD n] ++ decryptEvents c k n i
  acked : t.Acked

/-- After the gate and the split the run stands at the top of block 0. -/
theorem decrypt_first {s : State} {n : Nat} (h1 : 1 ≤ n) (h2 : (n : Int) ≤ maxlen s.lenw) (ha : s.Acked) :
    ∃ t, advanceN 2 (acceptDecrypt n n s) = some t ∧ DecryptTop n s.inContent s.padContent 0 t := by
  have hv : advance (acceptDecrypt n n s) = .to (goto .split (acceptDecrypt n n s)) := by
    rw [advance_validate_decrypt rfl rfl]
    rcases validateDecrypt_cases (acceptDecrypt n n s) with ⟨h, -⟩ | ⟨-, -, -, -, h, -⟩ | ⟨-, -, -, h⟩
    · simp only [acceptDecrypt_len, acceptDecrypt_plen, acceptDecrypt_lenw] at h; omega
    · simp at h
    · rw [h]
  refine ⟨_, by rw [advanceN_succ hv, advanceN_succ (advance_split rfl)]; rfl, ?_⟩
  constructor <;> simp [xorBytes, decryptEvents, State.Acked]
  simpa [State.Acked] using ha

/-- A pad read that the pad stream fills. -/
theorem decrypt_pad {n : Nat} {c k : List Byte} {i : Nat} {t : State} (h : DecryptTop n c k i t) (hi : 8 * i < n)
    (hk : min n (8 * i + 8) ≤ k.length) :
    ∃ u, advance t = .to u ∧ u.op = .decrypt ∧ u.ph = .dataget ∧ u.len = n ∧ u.plen = n ∧ u.fb = fullBlocks n ∧
      u.rem = remainder n ∧ u.blk = i ∧ u.inContent = c ∧ u.padContent = k ∧ u.inRc = 8 * i ∧
      u.padRc = 8 * i + blockSize n i ∧ u.padw = (k.drop (8 * i)).take (blockSize n i) ∧
      u.outWritten = t.outWritten ∧
      u.history = t.history ++ [.read .PAD (blockOff i) (blockSize n i) ((k.drop (8 * i)).take (blockSize n i))] ∧
      u.Acked := by
  obtain ⟨hop, hph, hlen, hplen, hfb, hrem, hblk, hc, hkc, hrc, hpr, hout, hhist, hack⟩ := h
  have hn : t.blockLen t.blk = some (blockSize n i) := by rw [hblk]; exact blockLen_split hfb hrem _ hi
  have hb : t.padBytes (blockSize n i) = (k.drop (8 * i)).take (blockSize n i) := by
    simp [State.padBytes, readSlice, hkc, hpr]
  have hl : (t.padBytes (blockSize n i)).length = blockSize n i := by
    rw [hb, blockSize_eq]; simp only [List.length_take, List.length_drop]; omega
  rw [advance_padget_decrypt hop hph]
  obtain ⟨hk1, hk2, hk3, hk4⟩ := hack
  rcases padgetDecrypt_cases hn with ⟨h', -⟩ | ⟨a, ha, ⟨h', -⟩ | ⟨-, hd⟩⟩
  · rw [hk2] at h'; cases h'
  · omega
  rw [hk2, use_always, Option.some.injEq] at ha
  subst ha
  refine ⟨_, hd, ?_⟩
  rw [hb] at hl
  generalize (k.drop (8 * i)).take (blockSize n i) = b at hb hl
  simp [hop, hlen, hplen, hfb, hrem, hblk, hc, hkc, hrc, hpr, hb, hl, State.Acked, hk1, hk3, hk4]

/-- A block that both streams fill: to the top of the next block, or to `DONE`. -/
theorem decrypt_block {n : Nat} {c k : List Byte} {i : Nat} {t : State} (h : DecryptTop n c k i t) (hi : 8 * i < n)
    (hk : min n (8 * i + 8) ≤ k.length) (hc : min n (8 * i + 8) ≤ c.length) :
    ∃ u, advanceN 3 t = some u ∧
      ((8 * (i + 1) < n ∧ DecryptTop n c k (i + 1) u) ∨
        (n ≤ 8 * (i + 1) ∧ u.ph = .done ∧ u.status = .ok ∧ u.inRc = n ∧ u.padRc = n ∧
          u.outWritten = xorBytes (c.take n) (k.take n) ∧
          u.history = [.start .decrypt, .sizeQ .IN n, .sizeQ .PAD n] ++ decryptEvents c k n (i + 1) ++
            [.finish .ok])) := by
  obtain ⟨v, hv, hop, hph, hlen, hplen, hfb, hrem, hblk, hcc, hkc, hrc, hpr, hpw, hout, hhist, hack⟩ :=
    decrypt_pad h hi hk
  have hout' := h.out
  have hhist' := h.history
  generalize hN : blockSize n i = N at *
  have hNv : N = min 8 (n - 8 * i) := by rw [← hN, blockSize_eq]
  have hn : v.blockLen v.blk = some N := by rw [hblk, ← hN]; exact blockLen_split hfb hrem _ hi
  have hin : v.inBytes N = (c.drop (8 * i)).take N := by simp [State.inBytes, readSlice, hcc, hrc]
  have hinl : (v.inBytes N).length = N := by rw [hin]; simp only [List.length_take, List.length_drop]; omega
  have hpl : v.padw.length = N := by rw [hpw]; simp only [List.length_take, List.length_drop]; omega
  have hpt : v.padw.take N = (k.drop (8 * i)).take N := by
    rw [List.take_of_length_le (Nat.le_of_eq hpl), hpw]
  refine ⟨_, by rw [show (3 : Nat) = 2 + 1 from rfl, advanceN_succ hv]; exact data_ok hph hn hinl hpl.ge hack.1 hack.2.2.2, ?_⟩
  generalize hy : afterData N v = y
  have e1 : y.fb = fullBlocks n := by simp [← hy, hfb]
  have e2 : y.rem = remainder n := by simp [← hy, hrem]
  have e3 : y.blk = i := by simp [← hy, hblk]
  have e4 : y.inRc = 8 * i + N := by simp [← hy, hrc, hinl]
  have e5 : y.padRc = 8 * i + N := by simp [← hy, hpr]
  have e6 : y.outWritten = xorBytes (c.take (8 * i + N)) (k.take (8 * i + N)) := by
    rw [xorBytes_take_block _ _ _ _ (by omega) (by omega), ← hy, afterData_outWritten, hin, hpt, hout, hout']
  have e8 : y.history = [.start .decrypt, .sizeQ .IN n, .sizeQ .PAD n] ++ decryptEvents c k n (i + 1) := by
    rw [← hy, afterData_history, hin, hpt, hblk, hhist, hhist']
    simp [decryptEvents, decryptBlockEvents, blockBytesOf, hN]
  have e9 : y.Acked := by simp [← hy, State.Acked, hack.2.1, hack.2.2.1]
  have e10 : y.op = .decrypt := by simp [← hy, hop]
  have e11 : y.len = n := by simp [← hy, hlen]
  have e12 : y.plen = n := by simp [← hy, hplen]
  have e13 : y.inContent = c := by simp [← hy, hcc]
  have e14 : y.padContent = k := by simp [← hy, hkc]
  rcases nextBlock_cases y with ⟨hm, hz⟩ | ⟨hm, hz⟩ <;> rw [more_split e1 e2, e3] at hm <;> rw [hz]
  · left
    have hlt : 8 * (i + 1) < n := by simpa using hm
    have h8 : 8 * i + N = 8 * (i + 1) := by omega
    rw [h8] at e4 e5 e6
    exact ⟨hlt, by simp [e10], rfl, by simp [e11], by simp [e12], by simp [e1], by simp [e2], by simp [e3],
      by simp [e13], by simp [e14], by simp [e4], by simp [e5], by simp [e6], by simp [e8],
      by simpa [State.Acked] using e9⟩
  · right
    have hge : n ≤ 8 * (i + 1) := by simpa using hm
    have hsum : 8 * i + N = n := by omega
    rw [hsum] at e4 e5 e6
    exact ⟨hge, rfl, rfl, by simp [e4], by simp [e5], by simp [e6], by simp [e8]⟩

/-- The run comes to the top of every block that the streams reach. -/
theorem decrypt_tops {s : State} {n : Nat} (h1 : 1 ≤ n) (h2 : (n : Int) ≤ maxlen s.lenw) (ha : s.Acked) (i : Nat)
    (hn : 8 * i < n) (hc : 8 * i ≤ s.inContent.length) (hk : 8 * i ≤ s.padContent.length) :
    ∃ m t, advanceN m (acceptDecrypt n n s) = some t ∧ DecryptTop n s.inContent s.padContent i t := by
  induction i with
  | zero =>
    obtain ⟨t, h, ht⟩ := decrypt_first h1 h2 ha
    exact ⟨2, t, h, ht⟩
  | succ i ih =>
    obtain ⟨m, t, hm, ht⟩ := ih (by omega) (by omega) (by omega)
    obtain ⟨u, hu, ⟨-, h⟩ | ⟨h, -⟩⟩ := decrypt_block ht (by omega) (by omega) (by omega)
    · exact ⟨m + 3, u, by rw [advanceN_add hm, hu], h⟩
    · omega

end Sys2Proof.Machine
end

