-- ==== Sys2Proof/Laws/Encoding.lean ====
section
/-! SUPPORT. Small lemmas of format `Z`: the range of a size operand and its bit pattern (R53). -/

namespace Sys2Proof

theorem sizeFits_iff (l : Nat) (n : Int) : sizeFits l n = true ↔ -(2 : Int) ^ (l - 1) ≤ n ∧ n < (2 : Int) ^ (l - 1) := by
  simp [sizeFits]

theorem bitsOfSize_lt (l : Nat) (n : Int) : bitsOfSize l n < 2 ^ l := BitVec.isLt _

/-- A size that fits is the value of its pattern. -/
theorem sizeOfBits_bitsOfSize (l : Nat) (n : Int) (hl : Config.minLenw ≤ l) (h : sizeFits l n = true) :
    sizeOfBits l (bitsOfSize l n) = n := by
  have hl' : 5 ≤ l := hl
  obtain ⟨h1, h2⟩ := (sizeFits_iff l n).1 h
  unfold sizeOfBits bitsOfSize
  rw [BitVec.ofNat_toNat, BitVec.setWidth_eq, BitVec.toInt_ofInt]
  have h3 : ((2 ^ l : Nat) : Int) = 2 * 2 ^ (l - 1) := by
    push_cast
    rw [← pow_succ']
    congr 1
    omega
  exact Int.bmod_eq_of_le (by omega) (by omega)

/-- A pattern of `LENW` bits is that of its value. -/
theorem bitsOfSize_sizeOfBits (l z : Nat) (h : z < 2 ^ l) : bitsOfSize l (sizeOfBits l z) = z := by
  unfold sizeOfBits bitsOfSize
  rw [BitVec.ofInt_toInt, BitVec.toNat_ofNat, Nat.mod_eq_of_lt h]

theorem sizeFits_sizeOfBits (l z : Nat) : sizeFits l (sizeOfBits l z) = true :=
  (sizeFits_iff _ _).2 ⟨BitVec.le_toInt _, BitVec.toInt_lt⟩

end Sys2Proof
end

