-- ==== Sys2Proof/Laws/Encrypt.lean ====
section
/-! SUPPORT. `ENCRYPT` block by block: the loop invariant of R104, and how a run comes to the top of each block. -/

namespace Sys2Proof.Machine

/-- The state at the top of the block after the blocks that drew `ws` (R104: "the invariant that at the top of the
loop `wc(PAD) = wc(OUT) = rc(IN) = 8 * BLK`"), with the answers `rest` still to come. -/
structure EncryptTop (n : Nat) (p : List Byte) (ws : List Word64) (rest : List PsAnswer) (t : State) : Prop where
  op : t.op = .encrypt
  ph : t.ph = .padget
  len : t.len = n
  fb : t.fb = fullBlocks n
  rem : t.rem = remainder n
  blk : t.blk = ws.length
  content : t.inContent = p
  rc : t.inRc = 8 * ws.length
  pad : t.padWritten = padOf ws
  out : t.outWritten = xorBytes (p.take (8 * ws.length)) (padOf ws)
  answers : t.psAnswers = rest
  history : t.history = [.start .encrypt, .sizeQ .IN n] ++ encryptEvents p n 0 ws
  acked : t.Acked

/-- After the gate and the split the run stands at the top of block 0. -/
theorem encrypt_first {s : State} {n : Nat} (h1 : 1 ≤ n) (h2 : (n : Int) ≤ maxlen s.lenw) (ha : s.Acked) :
    ∃ t, advanceN 2 (acceptEncrypt n s) = some t ∧ EncryptTop n s.inContent [] s.psAnswers t := by
  have hv : advance (acceptEncrypt n s) = .to (goto .split (acceptEncrypt n s)) := by
    rw [advance_validate_encrypt rfl rfl]
    rcases validateEncrypt_cases (acceptEncrypt n s) with ⟨h, -⟩ | ⟨-, -, h⟩
    · simp only [acceptEncrypt_len, acceptEncrypt_lenw] at h; omega
    · rw [h]
  refine ⟨_, by rw [advanceN_succ hv, advanceN_succ (advance_split rfl)]; rfl, ?_⟩
  exact ⟨rfl, rfl, rfl, rfl, rfl, rfl, rfl, rfl, rfl, by simp [xorBytes], rfl, rfl, ha⟩

/-- The draw and the pad write of a block. -/
theorem encrypt_pad {n : Nat} {p : List Byte} {ws : List Word64} {w : Word64} {rest : List PsAnswer} {t : State}
    (h : EncryptTop n p ws (.ok w :: rest) t) (hi : 8 * ws.length < n) :
    ∃ u, advanceN 2 t = some u ∧ u.op = .encrypt ∧ u.ph = .dataget ∧ u.len = n ∧ u.fb = fullBlocks n ∧
      u.rem = remainder n ∧ u.blk = ws.length ∧ u.inContent = p ∧ u.inRc = 8 * ws.length ∧
      u.padw = bytes8 w ∧ u.padWritten = padOf ws ++ (bytes8 w).take (blockSize n ws.length) ∧
      u.outWritten = t.outWritten ∧ u.psAnswers = rest ∧
      u.history = t.history ++
        [.draw (.ok w), .write .PAD (blockOff ws.length) ((bytes8 w).take (blockSize n ws.length))] ∧
      u.Acked := by
  obtain ⟨hop, hph, hlen, hfb, hrem, hblk, hc, hrc, hpad, hout, hans, hhist, hack⟩ := h
  rcases padgetEncrypt_cases t with ⟨h, -⟩ | ⟨l, h, -⟩ | ⟨w', l, h, hd⟩ <;> rw [hans] at h <;> cases h
  have h1 := (advance_padget_encrypt hop hph).trans hd
  generalize hu : goto .padput (loadPadw (bytes8 w) (afterDraw (.ok w) t)) = u at h1
  have hn : u.blockLen u.blk = some (blockSize n ws.length) := by
    rw [← hu]
    change State.blockLen _ t.blk = _
    rw [hblk]
    exact blockLen_split hfb hrem _ hi
  have hb8 : blockSize n ws.length ≤ 8 := by rw [blockSize_eq]; omega
  have hl : blockSize n ws.length ≤ u.padw.length := by rw [← hu]; exact hb8
  have h2 := advance_padput (s := u) (by rw [← hu]; exact hop) (by rw [← hu]; rfl)
  rcases padput_cases hn hl with ⟨h, -⟩ | ⟨a, ha, hd2⟩
  · rw [← hu] at h; simp [hack.2.2.1] at h
  rw [hd2] at h2
  refine ⟨_, by rw [advanceN_succ h1, advanceN_succ h2]; rfl, ?_⟩
  have hau : u.padWrAcks = .always := by rw [← hu]; exact hack.2.2.1
  rw [hau, use_always, Option.some.injEq] at ha
  subst ha
  subst hu
  obtain ⟨hk1, hk2, hk3, hk4⟩ := hack
  simp [hop, hlen, hfb, hrem, hblk, hc, hrc, hpad, hans, State.Acked, hk1, hk2, hk4]

/-- The data read and the data write of a block that the stream fills: to the top of the next block, or to `DONE`. -/
theorem encrypt_block {n : Nat} {p : List Byte} {ws : List Word64} {w : Word64} {rest : List PsAnswer} {t : State}
    (h : EncryptTop n p ws (.ok w :: rest) t) (hi : 8 * ws.length < n) (hp : min n (8 * ws.length + 8) ≤ p.length) :
    ∃ u, advanceN 4 t = some u ∧
      ((8 * (ws.length + 1) < n ∧ EncryptTop n p (ws ++ [w]) rest u) ∨
        (n ≤ 8 * (ws.length + 1) ∧ u.ph = .done ∧ u.status = .ok ∧ u.inRc = n ∧
          u.padWritten = (padOf (ws ++ [w])).take n ∧
          u.outWritten = xorBytes (p.take n) ((padOf (ws ++ [w])).take n) ∧ u.psAnswers = rest ∧
          u.history = [.start .encrypt, .sizeQ .IN n] ++ encryptEvents p n 0 (ws ++ [w]) ++ [.finish .ok])) := by
  obtain ⟨v, hv, hop, hph, hlen, hfb, hrem, hblk, hc, hrc, hpw, hpad, hout, hans, hhist, hack⟩ := encrypt_pad h hi
  have hout' := h.out
  have hhist' := h.history
  generalize hN : blockSize n ws.length = N at *
  have hNv : N = min 8 (n - 8 * ws.length) := by rw [← hN, blockSize_eq]
  have hn : v.blockLen v.blk = some N := by rw [hblk, ← hN]; exact blockLen_split hfb hrem _ hi
  have hin : v.inBytes N = (p.drop (8 * ws.length)).take N := by simp [State.inBytes, readSlice, hc, hrc]
  have hinl : (v.inBytes N).length = N := by rw [hin]; simp only [List.length_take, List.length_drop]; omega
  have hpl : N ≤ v.padw.length := by rw [hpw, bytes8_length]; omega
  refine ⟨_, by rw [show (4 : Nat) = 2 + 2 from rfl, advanceN_add hv]; exact data_ok hph hn hinl hpl hack.1 hack.2.2.2, ?_⟩
  generalize hy : afterData N v = y
  have e1 : y.fb = fullBlocks n := by simp [← hy, hfb]
  have e2 : y.rem = remainder n := by simp [← hy, hrem]
  have e3 : y.blk = ws.length := by simp [← hy, hblk]
  have e4 : y.inRc = 8 * ws.length + N := by rw [← hy]; simp [hrc, hinl]
  have e5 : y.padWritten = padOf ws ++ (bytes8 w).take N := by simp [← hy, hpad]
  have e6 : y.outWritten = xorBytes (p.take (8 * ws.length)) (padOf ws) ++
      xorBytes ((p.drop (8 * ws.length)).take N) ((bytes8 w).take N) := by
    rw [← hy, afterData_outWritten, hin, hpw, hout, hout']
  have e7 : y.psAnswers = rest := by simp [← hy, hans]
  have e8 : y.history = [.start .encrypt, .sizeQ .IN n] ++ encryptEvents p n 0 (ws ++ [w]) := by
    rw [← hy, encryptEvents_snoc, afterData_history, hin, hpw, hblk, hhist, hhist']
    simp [encryptBlockEvents, blockBytesOf, hN]
  have e9 : y.Acked := by simp [← hy, State.Acked, hack.2.1, hack.2.2.1]
  have e10 : y.op = .encrypt := by simp [← hy, hop]
  have e11 : y.len = n := by simp [← hy, hlen]
  have e12 : y.inContent = p := by simp [← hy, hc]
  have hpt : (padOf (ws ++ [w])).take (8 * ws.length + N) = padOf ws ++ (bytes8 w).take N := by
    rw [padOf_append, padOf_single, List.take_append, padOf_length, List.take_of_length_le (by simp)]
    simp
  have hxt : xorBytes (p.take (8 * ws.length + N)) ((padOf (ws ++ [w])).take (8 * ws.length + N)) =
      xorBytes (p.take (8 * ws.length)) (padOf ws) ++
        xorBytes ((p.drop (8 * ws.length)).take N) ((bytes8 w).take N) := by
    rw [hpt, List.take_add, xorBytes_append]
    simp only [List.length_take, padOf_length]; omega
  rcases nextBlock_cases y with ⟨hm, hz⟩ | ⟨hm, hz⟩ <;> rw [more_split e1 e2, e3] at hm <;> rw [hz]
  · left
    have hlt : 8 * (ws.length + 1) < n := by simpa using hm
    have h8 : N = 8 := by omega
    have hpt' : padOf (ws ++ [w]) = padOf ws ++ (bytes8 w).take N := by
      rw [h8]; simp
    refine ⟨hlt, ⟨by simp [e10], rfl, by simp [e11], by simp [e1], by simp [e2], by simp [e3], by simp [e12], ?_, ?_, ?_, by simp [e7],
      by simp [e8], by simpa [State.Acked] using e9⟩⟩
    · simp only [goto_inRc, bumpBlk_inRc, e4, List.length_append, List.length_singleton]; omega
    · simp [hpt', e5]
    · have hl : 8 * (ws ++ [w]).length = 8 * ws.length + N := by
        simp only [List.length_append, List.length_singleton]; omega
      have hfull : (padOf (ws ++ [w])).take (8 * ws.length + N) = padOf (ws ++ [w]) :=
        List.take_of_length_le (by rw [padOf_length, hl])
      rw [hl, ← hfull, hxt]
      simp [e6]
  · right
    have hge : n ≤ 8 * (ws.length + 1) := by simpa using hm
    have hsum : 8 * ws.length + N = n := by omega
    rw [hsum] at hpt hxt e4
    exact ⟨hge, rfl, rfl, by simp [e4], by rw [hpt]; simp [e5], by rw [hxt]; simp [e6], by simp [e7], by simp [e8]⟩

/-- The run comes to the top of every block that the answers and the stream reach. -/
theorem encrypt_tops {s : State} {n : Nat} (h1 : 1 ≤ n) (h2 : (n : Int) ≤ maxlen s.lenw) (ha : s.Acked)
    (ws : List Word64) (rest : List PsAnswer) (hs : s.psAnswers = oks ws ++ rest) (hn : 8 * ws.length < n)
    (hp : 8 * ws.length ≤ s.inContent.length) :
    ∃ k t, advanceN k (acceptEncrypt n s) = some t ∧ EncryptTop n s.inContent ws rest t := by
  induction ws using List.reverseRecOn generalizing rest with
  | nil =>
    obtain ⟨t, h, ht⟩ := encrypt_first h1 h2 ha
    simp only [oks, List.map_nil, List.nil_append] at hs
    exact ⟨2, t, h, hs ▸ ht⟩
  | append_singleton ws w ih =>
    simp only [List.length_append, List.length_singleton] at hn hp
    obtain ⟨k, t, hk, ht⟩ := ih (.ok w :: rest) (by simpa [oks] using hs) (by omega) (by omega)
    obtain ⟨u, hu, ⟨-, h⟩ | ⟨h, -⟩⟩ := encrypt_block ht (by omega) (by omega)
    · exact ⟨k + 4, u, by rw [advanceN_add hk, hu], h⟩
    · omega

end Sys2Proof.Machine
end

