-- ==== Sys2Proof/Laws/PerInstr.lean ====
section
/-! SUPPORT. Statements for all commands, one lemma per command. -/

namespace Sys2Proof.Laws

/-- The pins of a command hold patterns of at most `LENW` bits (R50, R53), whatever the sizes. -/
def PinsFit.Statement (i : Instr) : Prop :=
  ∀ lenw : Nat, (encode lenw i).inSize < 2 ^ lenw ∧ (encode lenw i).padSize < 2 ^ lenw

theorem PinsFit.encrypt (inSize : Int) : PinsFit.Statement (.encrypt inSize) :=
  fun lenw => ⟨bitsOfSize_lt lenw inSize, Nat.two_pow_pos lenw⟩

theorem PinsFit.decrypt (inSize padSize : Int) : PinsFit.Statement (.decrypt inSize padSize) :=
  fun lenw => ⟨bitsOfSize_lt lenw inSize, bitsOfSize_lt lenw padSize⟩

end Sys2Proof.Laws
end

