-- ==== Sys2Proof/Laws/Step.lean ====
section
/-! SUPPORT. What a step is, by what happens next at the boundary. -/

namespace Sys2Proof.Machine

theorem busy_iff (s : State) : s.busy = true ↔ s.ph ≠ .idle ∧ s.ph ≠ .done := by
  cases h : s.ph <;> simp [State.busy, State.ready, h]

theorem not_ready_of_busy {s : State} (h : s.busy = true) : s.ready = false := by simpa [State.busy] using h

theorem step_nil {s : State} (h : s.inputs = []) : step s = blockRuns s := by simp [step, h]

theorem step_cons {s : State} {i : Input} {rest : List Input} (h : s.inputs = i :: rest) :
    step s = happens i (setInputs rest s) := by simp [step, h]

theorem step_nil_busy {s : State} (h : s.inputs = []) (hb : s.busy = true) : step s = resume s := by
  simp [step_nil h, blockRuns, not_ready_of_busy hb]

/-- A tick of a running block is the transition of R90, with the tick taken off the schedule. -/
theorem step_tick_busy {s : State} {rest : List Input} (h : s.inputs = .tick :: rest) (hb : s.busy = true) :
    step s = match advance s with
      | .to t => .next (setInputs rest t)
      | .stays => .next (setInputs rest s)
      | .stuck f => .fault f := by
  have hr : (setInputs rest s).ready = false := not_ready_of_busy hb
  simp only [step_cons h, happens, blockTicks, hr, advance_setInputs]
  cases advance s <;> rfl

/-- A step that runs a ready block runs the command that is read. -/
theorem step_nil_command {s : State} {c : CmdWord} {i : Instr} (h : s.inputs = []) (hr : s.ready = true)
    (hc : s.cmd = some c) (hd : decode s.lenw c = .ok i) : step s = exec i s := by
  simp [step_nil h, blockRuns, hr, hc, hd]

/-! ## Several steps -/

theorem core_run_succ (M : Host.Core) {k : Nat} {s t : M.State} (h : M.step s = .next t) :
    M.run (k + 1) s = M.run k t := by
  simp [Host.Core.run, h]

theorem run_succ {k : Nat} {s t : State} (h : step s = .next t) :
    Host.Core.run core (k + 1) s = Host.Core.run core k t := core_run_succ core h

/-- As many ticks as the running operation has transitions. -/
theorem run_ticks {k : Nat} {s t : State} (h : advanceN k s = some t) :
    Host.Core.run core k (setInputs (List.replicate k .tick) s) = .next (setInputs [] t) := by
  induction k generalizing s with
  | zero => simp only [advanceN, Option.some.injEq] at h; subst h; rfl
  | succ k ih =>
    simp only [advanceN] at h
    split at h
    · next v hv =>
      have hb : (setInputs (List.replicate (k + 1) Input.tick) s).busy = true := by
        cases hr : s.ready with
        | false => change (!s.ready) = true; simp [hr]
        | true => rw [advance_ready hr] at hv; cases hv
      refine (run_succ ?_).trans (ih h)
      rw [step_tick_busy (rest := List.replicate k .tick) rfl hb, advance_setInputs, hv]
      rfl
    · cases h

end Sys2Proof.Machine
end

