-- ==== Sys2Proof/Tests/Slice0.lean ====
section
/-! SUPPORT. The model's own tests. Expected values are the spec's: its encodings (30_encoding.md), its vectors V1 to V65
and programs P1 to P5 (95_test_vectors.md). The second half shows, for each statement that has hypotheses, a concrete
state and operands that meet all of them. -/

namespace Sys2Proof.Tests

open Sys2Proof Sys2Proof.Machine

/-! ## Well-formedness: what does not fit is refused -/

theorem test_wf_encrypt_top : (Instr.encrypt 15).wf 5 = true := by decide
theorem test_wf_encrypt_over : (Instr.encrypt 16).wf 5 = false := by decide
theorem test_wf_encrypt_under : (Instr.encrypt (-17)).wf 5 = false := by decide
theorem test_wf_decrypt_in_over : (Instr.decrypt 16 0).wf 5 = false := by decide
theorem test_wf_decrypt_pad_over : (Instr.decrypt 0 16).wf 5 = false := by decide
theorem test_wf_zero : (Instr.decrypt 0 0).wf 5 = true := by decide

/-! ## Decoding: words written out from R51 and R53 -/

/-- P1 line 2: `cmd_op = 0`, `in_size = 0x00000009`; `pad_size` is ignored, so it may hold anything (R58). -/
theorem test_decode_encrypt : decode 32 ⟨0b0#1, 0x00000009, 0xFFFFFFFF⟩ = .ok (.encrypt 9) := by decide

/-- P2 line 2: `cmd_op = 1`, `in_size = 0x0000000A`, `pad_size = 0x00000009`. -/
theorem test_decode_decrypt : decode 32 ⟨0b1#1, 0x0000000A, 0x00000009⟩ = .ok (.decrypt 10 9) := by decide

/-- R53: all bits 1 is `-1`; the sign bit alone is the least value. -/
theorem test_decode_negative : decode 5 ⟨0b1#1, 0b11111, 0b10000⟩ = .ok (.decrypt (-1) (-16)) := by decide

/-- A pattern of 33 bits is on no 32 wires. -/
theorem test_decode_overwide : decode 32 ⟨0b0#1, 0x100000000, 0⟩ = .error .inSizeTooWide := by decide
theorem test_decode_overwide_pad : decode 32 ⟨0b1#1, 9, 0x100000000⟩ = .error .padSizeTooWide := by decide

theorem test_encode_encrypt : encode 32 (.encrypt (-1)) = ⟨0b0#1, 0xFFFFFFFF, 0⟩ := by decide
theorem test_encode_decrypt : encode 32 (.decrypt 9 9) = ⟨0b1#1, 9, 9⟩ := by decide

/-- The two rows of the opcode table: `match` 0x0 and 0x1 (R51). -/
theorem test_table_encrypt : decodeTableWord 8 0x0 = some (.encrypt 0) := by decide
theorem test_table_decrypt : decodeTableWord 8 0x1 = some (.decrypt 0 0) := by decide

/-! ## Operand forms -/

/-- V1 and the example of R36. -/
theorem test_bytes8 : bytes8 0x1122334455667788#64 =
    [0x88#8, 0x77#8, 0x66#8, 0x55#8, 0x44#8, 0x33#8, 0x22#8, 0x11#8] := by decide

/-- V6: three bytes of a word. -/
theorem test_lanes_drop : lanes (bytes8 0xDEADBEEFCAFEF00D#64) 3 = some [0x0D#8, 0xF0#8, 0xFE#8] := by decide

/-- V14: lane 7 takes no part. -/
theorem test_xdp : xdp [0x41#8, 0x42#8, 0x43#8, 0x44#8, 0x45#8, 0x46#8, 0x47#8] (bytes8 0x1122334455667788#64) 7 =
    some [0xC9#8, 0x35#8, 0x25#8, 0x11#8, 0x01#8, 0x75#8, 0x65#8] := by decide

/-- R13: a lane that holds no value is not read as zero. -/
theorem test_xdp_absent : xdp [0x41#8, 0x42#8] [0x01#8] 2 = none := by decide

/-- V28e and V28c. -/
theorem test_split_15 : fullBlocks 15 = 1 ∧ (remainder 15).val = 7 ∧ totalBlocks 15 = 2 := by decide
theorem test_split_8 : fullBlocks 8 = 1 ∧ (remainder 8).val = 0 ∧ totalBlocks 8 = 1 := by decide

theorem test_pad_answer : psDecode 0b0#1 5#64 = .fail ∧ psDecode 0b1#1 5#64 = .ok 5#64 := by decide

/-! ## Small states -/

/-- After reset, with these bytes in `IN` and in `PAD` and these answers ready. -/
def env (i p : List Byte) (a : List PsAnswer) : State :=
  { State.reset with inContent := i, padContent := p, psAnswers := a }

def plain9 : List Byte := [0x41#8, 0x42#8, 0x43#8, 0x44#8, 0x45#8, 0x46#8, 0x47#8, 0x48#8, 0x49#8]
def cipher9 : List Byte := [0x40#8, 0x42#8, 0x43#8, 0x44#8, 0x45#8, 0x46#8, 0x47#8, 0x48#8, 0x4B#8]
def pad9 : List Byte := [0x01#8, 0#8, 0#8, 0#8, 0#8, 0#8, 0#8, 0#8, 0x02#8]

/-- The environment of V33. -/
def encEnv : State := env plain9 [] [.ok 1#64, .ok 2#64]

/-- The environment of V51. -/
def decEnv : State := env cipher9 pad9 []

/-- What a test looks at in the state an outcome answers; nothing where it stops. -/
def seen {α : Type} (f : State → α) : Host.Outcome State Fault Refusal → Option α
  | .next s => some (f s)
  | _ => none

/-! ## The two commands -/

/-- V33. -/
theorem test_encrypt_ok :
    seen (fun s => (s.status, s.padWritten, s.outWritten)) (exec (.encrypt 9) encEnv) = some (.ok, pad9, cipher9) := by
  decide

/-- V44: `ShortRead` in the partial block, after its pad byte was written; one byte of `IN` is missing. -/
theorem test_encrypt_short :
    seen (fun s => (s.status, s.padWritten, s.outWritten, s.inRc))
        (exec (.encrypt 9) (env (plain9.take 8) [] [.ok 1#64, .ok 2#64])) =
      some (.failed .shortRead, pad9, cipher9.take 8, 8) := by decide

/-- V51. -/
theorem test_decrypt_ok :
    seen (fun s => (s.status, s.outWritten, s.inRc, s.padRc)) (exec (.decrypt 9 9) decEnv) =
      some (.ok, plain9, 9, 9) := by decide

/-- V46: the pad stream is short; the ciphertext of block 1 is not read. -/
theorem test_decrypt_short_pad :
    seen (fun s => (s.status, s.outWritten, s.inRc, s.padRc)) (exec (.decrypt 9 9) (env cipher9 (pad9.take 8) [])) =
      some (.failed .shortRead, plain9.take 8, 8, 8) := by decide

/-! ## Steps -/

/-- A word of the table is the first command after reset; its size operands are zeros (P5: `InvalidSize`). -/
theorem test_fetch_encrypt :
    seen (fun s => (s.op, s.ph, s.status)) (step (State.reset.withFetchWord 8 0x0)) =
      some (.encrypt, .done, .failed .invalidSize) := by decide
theorem test_fetch_decrypt :
    seen (fun s => (s.op, s.ph, s.status)) (step (State.reset.withFetchWord 8 0x1)) =
      some (.decrypt, .done, .failed .invalidSize) := by decide

/-- V60: after reset with nothing presented the block stays. -/
theorem test_reset_stays : seen (fun s => s) (step State.reset) = some State.reset := rfl

/-- V65: the second draw is never answered. -/
theorem test_waits :
    seen (fun s => (s.ph, s.busy, s.blk, s.padWritten, s.outWritten))
        (exec (.encrypt 9) (env plain9 [] [.ok 1#64])) =
      some (.padget, true, 1, pad9.take 8, cipher9.take 8) := by decide

/-- R83: a pattern that `LENW` wires cannot carry is not accepted. -/
theorem test_bad_command :
    step { State.reset with cmd := some ⟨0#1, 2 ^ 32, 0⟩ } = .refused (.badCommand .inSizeTooWide) := rfl

/-! ## Witnesses: for each statement with hypotheses, values that meet them all -/

/-- A `LENW = 32` block inside block 1 of a length of 9 (one byte), with a tick to come. -/
def mid (o : Op) (p : Phase) : State :=
  { State.reset with
    op := o, len := 9, plen := 9, fb := 1, rem := 1, ph := p, blk := 1, padw := bytes8 2#64, buf := [0x49#8]
    inContent := plain9, inRc := 8, padContent := pad9, padRc := 8, padWritten := pad9.take 8
    outWritten := cipher9.take 8, psAnswers := [.ok 2#64], inputs := [.tick] }

/-- As `mid`, with nothing to come: the block runs by itself. -/
def midRuns (o : Op) (p : Phase) : State := { mid o p with inputs := [] }

/-- As `mid`, with no endpoint and no Pad Source answering. -/
def midSilent (o : Op) (p : Phase) : State :=
  { mid o p with inAcks := .only 0, padRdAcks := .only 0, padWrAcks := .only 0, outAcks := .only 0, psAnswers := [] }

/-- A ready block with a command on the pins. -/
def presented (p : Phase) (c : CmdWord) (l : List Input) : State := { encEnv with ph := p, cmd := some c, inputs := l }

def encWord : CmdWord := ⟨0#1, 9, 7⟩
def decWord : CmdWord := ⟨1#1, 9, 0xFFFFFFFF⟩

theorem test_witness_DecodeEncodeAgree :
    Config.minLenw ≤ 5 ∧ (Instr.encrypt (-16)).wf 5 = true ∧ (Instr.decrypt 15 (-1)).wf 5 = true := by decide

theorem test_witness_EncodeDecodeAgree :
    Config.minLenw ≤ 32 ∧ decode 32 encWord = .ok (.encrypt 9) ∧ decode 32 decWord = .ok (.decrypt 9 (-1)) := by decide

theorem test_witness_DecodeRefusesOnlyOverwide :
    decode 5 ⟨0#1, 31, 32⟩ = .ok (.encrypt (-1)) ∧ decode 5 ⟨1#1, 31, 31⟩ = .ok (.decrypt (-1) (-1)) ∧
      decode 5 ⟨1#1, 31, 32⟩ = .error .padSizeTooWide ∧ decode 5 ⟨0#1, 32, 0⟩ = .error .inSizeTooWide := by decide

theorem test_witness_SizeOperandIsTwosComplement : Config.minLenw ≤ 5 ∧ 15 < 2 ^ 5 ∧ 16 < 2 ^ 5 ∧ 31 < 2 ^ 5 := by decide

theorem test_witness_PadWordsAreLittleEndian : 7 < 8 ∧ (plain9.take 8).length = 8 := by decide

theorem test_witness_XorLaws : plain9.length = cipher9.length ∧ cipher9.length = pad9.length := by decide

/-- The three clauses: every lane there; a lane missing in either register; two registers that agree below `N = 1`. -/
theorem test_witness_DatapathIsLaneXor :
    (8 ≤ (plain9.take 8).length ∧ 8 ≤ (bytes8 2#64).length) ∧
      ((plain9.take 7).length < 8 ∨ (bytes8 2#64).length < 8) ∧ (plain9.length < 9 ∨ (bytes8 2#64).length < 9) ∧
      ([0x41#8, 0x99#8].take 1 = plain9.take 1 ∧ [0x01#8, 0x99#8].take 1 = pad9.take 1 ∧ 1 ≤ plain9.length ∧
        1 ≤ pad9.length) := by decide

theorem test_witness_TransferCarriesBytes :
    (plain9.take 8).length ≤ 8 ∧ ([] : List Byte).length ≤ 8 ∧ (plain9.take 7).length ≤ 7 ∧ 7 < 8 := by decide

theorem test_witness_BlocksCoverTheLength :
    1 ≤ 1 ∧ 0 < totalBlocks 1 ∧ 0 < fullBlocks 9 ∧ 0 < (remainder 9).val ∧ (mid .encrypt .padget).fb = fullBlocks 9 ∧ (mid .encrypt .padget).rem = remainder 9 ∧
      (mid .encrypt .padget).more 1 = true ∧ (mid .encrypt .padget).more 2 = false := by decide

theorem test_witness_AcceptanceLatchesCommand :
    (presented .idle encWord [.tick]).inputs = .tick :: [] ∧ (presented .idle encWord [.tick]).ph = .idle ∧
      (presented .idle encWord [.tick]).cmd = some encWord ∧
      decode (presented .idle encWord [.tick]).lenw encWord = .ok (.encrypt 9) ∧
      (presented .done decWord [.tick]).ph = .done ∧
      decode (presented .done decWord [.tick]).lenw decWord = .ok (.decrypt 9 (-1)) ∧
      (setCmd (some decWord) (mid .encrypt .padget)).busy = true ∧
      seen State.ph (step (setCmd (some decWord) (mid .encrypt .padget))) = some .padput := by decide

/-- Both schedules of the second clause, and a step that answers. -/
theorem test_witness_BusyHoldsTheCommand :
    (mid .encrypt .padget).busy = true ∧ (mid .encrypt .padget).inputs = .tick :: [] ∧
      seen State.ph (step (mid .encrypt .padget)) = some .padput ∧ (midRuns .decrypt .padget).busy = true ∧
      (midRuns .decrypt .padget).inputs = [] ∧
      seen (fun t => (t.ph, t.inputs, t.cmd)) (step (setCmd (some encWord) (midRuns .decrypt .padget))) =
        some (.done, [], some encWord) := by decide

theorem test_witness_GateDecides :
    ∀ o : Op, (mid o .validate).inputs = .tick :: [] ∧ (mid o .validate).ph = .validate ∧ (mid o .validate).op = o := by
  intro o
  exact ⟨rfl, rfl, rfl⟩

/-- At the greatest length, `MAXLEN` of `LENW = 32`. -/
theorem test_witness_SplitComputesBlocks :
    ({ mid .encrypt .split with len := 2147483647 } : State).inputs = .tick :: [] ∧
      ({ mid .encrypt .split with len := 2147483647 } : State).ph = .split ∧
      ({ mid .encrypt .split with len := 2147483647 } : State).len = (2147483647 : Nat) ∧ 1 ≤ 2147483647 ∧
      ((2147483647 : Nat) : Int) ≤ maxlen ({ mid .encrypt .split with len := 2147483647 } : State).lenw := by decide

theorem test_witness_EncryptPadgetDraws :
    (mid .encrypt .padget).inputs = .tick :: [] ∧ (mid .encrypt .padget).op = .encrypt ∧
      (mid .encrypt .padget).ph = .padget ∧ (mid .encrypt .padget).psAnswers = .ok 2#64 :: [] ∧
      (setPsAnswers [.fail] (mid .encrypt .padget)).psAnswers = .fail :: [] := by decide

/-- A pad read that is filled, and one that yields nothing. -/
theorem test_witness_DecryptPadgetReadsPad :
    (mid .decrypt .padget).inputs = .tick :: [] ∧ (mid .decrypt .padget).op = .decrypt ∧
      (mid .decrypt .padget).ph = .padget ∧ (mid .decrypt .padget).blockLen 1 = some 1 ∧
      (mid .decrypt .padget).padRdAcks.use = some .always ∧ ((pad9.drop 8).take 1).length = 1 ∧
      (((pad9.take 8).drop 8).take 1).length < 1 := by decide

theorem test_witness_PadputWritesFirstLanes :
    (mid .encrypt .padput).inputs = .tick :: [] ∧ (mid .encrypt .padput).op = .encrypt ∧
      (mid .encrypt .padput).ph = .padput ∧ (mid .encrypt .padput).blockLen 1 = some 1 ∧
      1 ≤ (mid .encrypt .padput).padw.length ∧ (mid .encrypt .padput).padWrAcks.use = some .always := by decide

theorem test_witness_DatagetReadsIn :
    (mid .encrypt .dataget).inputs = .tick :: [] ∧ (mid .encrypt .dataget).ph = .dataget ∧
      (mid .encrypt .dataget).blockLen 1 = some 1 ∧ (mid .encrypt .dataget).inAcks.use = some .always ∧
      ((plain9.drop 8).take 1).length = 1 ∧ (((plain9.take 8).drop 8).take 1).length < 1 := by decide

/-- The last block, and a block with one more after it. -/
theorem test_witness_DataputWritesXor :
    (mid .decrypt .dataput).inputs = .tick :: [] ∧ (mid .decrypt .dataput).ph = .dataput ∧
      (mid .decrypt .dataput).blockLen 1 = some 1 ∧
      xdp (mid .decrypt .dataput).buf (mid .decrypt .dataput).padw 1 = some [0x4B#8] ∧
      (mid .decrypt .dataput).outAcks.use = some .always ∧ (mid .decrypt .dataput).more 2 = false ∧
      ({ mid .decrypt .dataput with fb := 2 } : State).more 2 = true ∧
      ({ mid .decrypt .dataput with fb := 2, buf := plain9.take 8 } : State).blockLen 1 = some 8 ∧
      (xdp (plain9.take 8) (mid .decrypt .dataput).padw 8).isSome = true := by decide

theorem test_witness_IdleAndDoneStay :
    encEnv.ph = .idle ∧ encEnv.cmd = none ∧ encEnv.inputs = [] ∧
      (setInputs [.tick] (goto .done encEnv)).ph = .done ∧
      (setInputs [.tick] (goto .done encEnv)).inputs = .tick :: [] := by decide

/-- One state for each of the five ways to wait. -/
theorem test_witness_UnansweredTransactionWaits :
    (∀ o p, (midSilent o p).blockLen (midSilent o p).blk = some 1 ∧ (midSilent o p).op = o ∧ (midSilent o p).ph = p ∧
      (midSilent o p).psAnswers = [] ∧ (midSilent o p).padRdAcks = .only 0 ∧ (midSilent o p).padWrAcks = .only 0 ∧
      (midSilent o p).inAcks = .only 0 ∧ (midSilent o p).outAcks = .only 0 ∧ 1 ≤ (midSilent o p).padw.length ∧
      1 ≤ (midSilent o p).buf.length ∧ (midSilent o p).inputs = .tick :: []) ∧
      (setInputs [] (midSilent .encrypt .padget)).inputs = [] := by
  refine ⟨fun o p => ⟨rfl, rfl, rfl, rfl, rfl, rfl, rfl, rfl, ?_, ?_, rfl⟩, rfl⟩
  · exact Nat.le_of_ble_eq_true rfl
  · exact Nat.le_refl 1

theorem test_witness_OperationEnds :
    ((finishOk encEnv = finishOk encEnv ∧ Status.ok = .ok) ∨ ∃ k, finishOk encEnv = raise k encEnv ∧ Status.ok = .failed k) ∧
      ((raise .shortRead encEnv = finishOk encEnv ∧ Status.failed .shortRead = .ok) ∨
        ∃ k, raise .shortRead encEnv = raise k encEnv ∧ Status.failed .shortRead = .failed k) :=
  ⟨.inl ⟨rfl, rfl⟩, .inr ⟨_, rfl, rfl⟩⟩

/-- A tick of a running block answers a next state. -/
theorem test_witness_OneTransactionAtATime :
    (mid .encrypt .dataput).inputs = .tick :: [] ∧ (mid .encrypt .dataput).busy = true ∧
      seen State.ph (step (mid .encrypt .dataput)) = some .done := by decide

/-- `TransitionFrame`, one state a phase. -/
theorem test_witness_TransitionFrame :
    (mid .encrypt .padput).busy = true ∧ seen State.ph (step (mid .encrypt .padput)) = some .dataget ∧
      seen State.ph (step (mid .encrypt .split)) = some .padget ∧
      seen State.ph (step (mid .decrypt .padget)) = some .dataget ∧
      seen State.ph (step (mid .decrypt .dataget)) = some .dataput ∧
      seen State.ph (step (mid .encrypt .validate)) = some .split := by decide

/-- The dropped lanes of a one-byte block hold something else. -/
theorem test_witness_DroppedLanesReachNothing :
    (mid .encrypt .padput).inputs = .tick :: [] ∧ (mid .encrypt .padput).blockLen 1 = some 1 ∧
      (mid .encrypt .padput).ph = .padput ∧ 1 ≤ (mid .encrypt .padput).padw.length ∧
      [0x02#8, 0xAA#8].take 1 = (mid .encrypt .padput).padw.take 1 ∧ 1 ≤ [0x02#8, 0xAA#8].length ∧
      seen State.ph (step (mid .encrypt .padput)) = some .dataget ∧
      seen State.ph (step (mid .encrypt .dataget)) = some .dataput ∧
      seen State.ph (step (mid .encrypt .dataput)) = some .done := by decide

/-- One request of each channel, and a phase that requests nothing; the free value may be either. -/
theorem test_witness_ResetAbandonsTheOperation :
    (setInputs [.rst] (mid .encrypt .padget)).inputs = .rst :: [] ∧ (mid .encrypt .padget).psReqPort = true ∧
      (mid .decrypt .padget).padReadPort.isSome = true ∧ (mid .encrypt .padput).padWritePort.isSome = true ∧
      (mid .decrypt .dataget).inReadPort.isSome = true ∧ (mid .encrypt .dataput).outWritePort.isSome = true ∧
      ¬(mid .encrypt .split).Requests := by
  refine ⟨rfl, rfl, rfl, rfl, rfl, rfl, ?_⟩
  rintro (h | h | h | h | h) <;> exact absurd h (by decide)

/-- R141: after a reset in `PADPUT` the write, if it was performed, is that of the block's one pad byte. -/
theorem test_perform_padput : (performRequested (mid .encrypt .padput)).padWritten = pad9 := by decide

/-- R141, R33: a read that is performed consumes what it yields; a draw takes one answer. -/
theorem test_perform_reads :
    (performRequested (mid .decrypt .padget)).padRc = 9 ∧ (performRequested (mid .encrypt .dataget)).inRc = 9 ∧
      (performRequested (mid .encrypt .padget)).psAnswers = [] := by decide

theorem test_witness_ResultHoldsUntilNextCommand :
    (goto .done encEnv).ph = .done ∧ (goto .done encEnv).cmd = none ∧
      (∀ rest, (goto .done encEnv).inputs ≠ .rst :: rest) ∧
      seen State.ph (step (goto .done encEnv)) = some .done := by
  refine ⟨rfl, rfl, fun rest h => ?_, rfl⟩
  cases h

theorem test_witness_OutsideTouchesNoRegister :
    (setInputs [.putIn []] encEnv).inputs = .putIn [] :: [] ∧ Input.putIn [] ≠ .tick ∧ Input.putIn [] ≠ .rst ∧
      (setInputs [.answer 0#1 5#64] encEnv).inputs = .answer 0#1 5#64 :: [] ∧ Input.answer 0#1 5#64 ≠ .tick ∧
      Input.answer 0#1 5#64 ≠ .rst := by decide

theorem test_witness_OneChannelRequests :
    State.reset.cmdReadyPort = true ∧ (mid .encrypt .padget).psReqPort = true ∧
      (mid .decrypt .padget).padReadPort = some 1#4 := by decide

/-- One state for each clause; the block has one byte, so lanes 1 to 7 carry 0. -/
theorem test_witness_OtherPortsRequestTheBlock :
    (∀ o p, (mid o p).blockLen (mid o p).blk = some 1 ∧ (mid o p).ph = p ∧ (mid o p).op = o) ∧
      1 ≤ (mid .encrypt .padput).padw.length ∧ 0 < 1 ∧ 1 ≤ 7 ∧ 7 < 8 ∧ (mid .encrypt .dataget).inReadPort = some 1#4 ∧
      (mid .encrypt .padput).padWritePort = some ⟨1#4, 2#64⟩ := by
  refine ⟨fun _ _ => ⟨rfl, rfl, rfl⟩, ?_⟩
  decide

theorem test_witness_OutWritePortCarriesXor :
    (mid .encrypt .dataput).ph = .dataput ∧ (mid .encrypt .dataput).blockLen 1 = some 1 ∧
      1 ≤ (mid .encrypt .dataput).buf.length ∧ 1 ≤ (mid .encrypt .dataput).padw.length ∧ 1 ≤ 7 ∧ 7 < 8 := by decide

/-- For `StepRunsTheDecodedCommand`, `TicksRunTheCommand` and `CommandsAlwaysRun`: both commands. -/
theorem test_witness_StepRunsTheDecodedCommand :
    (presented .idle encWord []).ph = .idle ∧ (presented .idle encWord []).cmd = some encWord ∧
      decode (presented .idle encWord []).lenw encWord = .ok (.encrypt 9) ∧ (presented .idle encWord []).inputs = [] ∧
      (presented .done decWord [.tick]).ph = .done ∧ (presented .done decWord [.tick]).cmd = some decWord ∧
      decode (presented .done decWord [.tick]).lenw decWord = .ok (.decrypt 9 (-1)) ∧
      (presented .done decWord [.tick]).inputs = .tick :: [] := by decide

theorem test_witness_TicksRunTheCommand :
    seen State.ph (exec (.encrypt 9) (presented .idle encWord [])) = some .done ∧
      seen State.ph (exec (.decrypt 9 (-1)) (presented .idle decWord [])) = some .done := by decide

theorem test_witness_TransactionsAreBounded :
    encEnv.ph = .idle ∧ seen (fun t => transactions t.history) (exec (.encrypt 9) encEnv) = some 8 ∧
      seen (fun t => transactions t.history) (exec (.decrypt 9 9) decEnv) = some 6 ∧
      seen (fun t => transactions t.history) (exec (.encrypt 0) encEnv) = some 0 ∧ Config.minLenw ≤ 5 ∧
      ((15 : Nat) : Int) ≤ maxlen 5 ∧ totalBlocks 15 = 2 ^ (5 - 4) := by decide

/-- Two states with different registers and results, and one environment. -/
def used : State := { encEnv with ph := .done, status := .failed .shortRead, blk := 3, fb := 7, padw := [], op := .decrypt }

theorem test_witness_NothingPersistsAcrossOperations :
    encEnv.ph = .idle ∧ used.ph = .done ∧ used.lenw = encEnv.lenw ∧ used.inContent = encEnv.inContent ∧
      used.padContent = encEnv.padContent ∧ used.psAnswers = encEnv.psAnswers ∧ used.inAcks = encEnv.inAcks ∧
      used.padRdAcks = encEnv.padRdAcks ∧ used.padWrAcks = encEnv.padWrAcks ∧ used.outAcks = encEnv.outAcks ∧
      seen State.ph (exec (.encrypt 9) encEnv) = some .done := by decide

theorem test_acked (i p : List Byte) (a : List PsAnswer) : (env i p a).Acked := ⟨rfl, rfl, rfl, rfl⟩

/-- For `EncryptSucceeds` and `EncryptEventsInOrder`. -/
theorem test_witness_EncryptSucceeds :
    encEnv.ph = .idle ∧ 1 ≤ 9 ∧ ((9 : Nat) : Int) ≤ maxlen encEnv.lenw ∧ 9 ≤ encEnv.inContent.length ∧
      [1#64, 2#64].length = totalBlocks 9 ∧ encEnv.psAnswers = oks [1#64, 2#64] ++ [] := by decide

/-- The least length, with more bytes and more answers than the operation takes. -/
theorem test_witness_EncryptSucceeds_one :
    1 ≤ 1 ∧ ((1 : Nat) : Int) ≤ maxlen encEnv.lenw ∧ 1 ≤ encEnv.inContent.length ∧ [1#64].length = totalBlocks 1 ∧
      encEnv.psAnswers = oks [1#64] ++ [.ok 2#64] := by decide

theorem test_witness_EncryptRejectsSize :
    encEnv.ph = .idle ∧ ((0 : Int) ≤ 0 ∨ maxlen encEnv.lenw < 0) ∧
      ((2147483648 : Int) ≤ 0 ∨ maxlen encEnv.lenw < 2147483648) := by decide

/-- A failed draw of block 0 (V42) and of block 1. -/
theorem test_witness_EncryptEntropyFailure :
    ((9 : Nat) : Int) ≤ maxlen 32 ∧ 8 * ([] : List Word64).length < 9 ∧ 8 * [1#64].length < 9 ∧ 8 * [1#64].length ≤ plain9.length ∧
      (env plain9 [] [.fail]).psAnswers = oks [] ++ .fail :: [] ∧
      (env plain9 [] [.ok 1#64, .fail]).psAnswers = oks [1#64] ++ .fail :: [] := by decide

/-- V44, and V45: nothing in `IN` at all. -/
theorem test_witness_EncryptShortRead :
    ((9 : Nat) : Int) ≤ maxlen 32 ∧ (plain9.take 8).length < 9 ∧ 1 = (plain9.take 8).length / 8 ∧ [1#64, 2#64].length = 1 + 1 ∧
      (env (plain9.take 8) [] [.ok 1#64, .ok 2#64]).psAnswers = oks [1#64, 2#64] ++ [] ∧
      ([] : List Byte).length < 8 ∧ 0 = ([] : List Byte).length / 8 ∧ [1#64].length = 0 + 1 ∧
      (env [] [] [.ok 1#64]).psAnswers = oks [1#64] ++ [] := by decide

/-- V65. -/
theorem test_witness_EncryptWaitsForTheDraw :
    (env plain9 [] [.ok 1#64]).inputs = [] ∧ ((9 : Nat) : Int) ≤ maxlen (env plain9 [] [.ok 1#64]).lenw ∧
      8 * [1#64].length < 9 ∧ 8 * [1#64].length ≤ (env plain9 [] [.ok 1#64]).inContent.length ∧
      (env plain9 [] [.ok 1#64]).psAnswers = oks [1#64] := by decide

theorem test_witness_EncryptFrame :
    encEnv.ph = .idle ∧ seen State.ph (exec (.encrypt 9) encEnv) = some .done ∧
      seen State.ph (exec (.encrypt 9) (env plain9 [] [.ok 1#64])) = some .padget := by decide

/-- For `DecryptSucceeds` and `DecryptEventsInOrder`: V51, and the least length. -/
theorem test_witness_DecryptSucceeds :
    decEnv.ph = .idle ∧ 1 ≤ 9 ∧ ((9 : Nat) : Int) ≤ maxlen decEnv.lenw ∧ 9 ≤ decEnv.inContent.length ∧
      9 ≤ decEnv.padContent.length ∧ 1 ≤ 1 ∧ ((1 : Nat) : Int) ≤ maxlen decEnv.lenw := by decide

/-- V24 and V25: one size in range, the other not. -/
theorem test_witness_DecryptRejectsSize :
    decEnv.ph = .idle ∧ ((0 : Int) ≤ 0 ∨ (5 : Int) ≤ 0 ∨ maxlen decEnv.lenw < 0 ∨ maxlen decEnv.lenw < 5) ∧
      ((9 : Int) ≤ 0 ∨ (-1 : Int) ≤ 0 ∨ maxlen decEnv.lenw < 9 ∨ maxlen decEnv.lenw < -1) := by decide

/-- V22. -/
theorem test_witness_DecryptSizeMismatch :
    decEnv.ph = .idle ∧ (1 : Int) ≤ 10 ∧ (10 : Int) ≤ maxlen decEnv.lenw ∧ (1 : Int) ≤ 9 ∧ (9 : Int) ≤ maxlen decEnv.lenw ∧
      (10 : Int) ≠ 9 := by decide

/-- V46, and a pad stream with nothing in it. -/
theorem test_witness_DecryptShortPad :
    ((9 : Nat) : Int) ≤ maxlen 32 ∧ (pad9.take 8).length < 9 ∧ 1 = (pad9.take 8).length / 8 ∧ 8 * 1 ≤ cipher9.length ∧
      ([] : List Byte).length < 9 ∧ 0 = ([] : List Byte).length / 8 ∧ 8 * 0 ≤ cipher9.length := by decide

/-- V47. -/
theorem test_witness_DecryptShortIn :
    ((9 : Nat) : Int) ≤ maxlen 32 ∧ (cipher9.take 8).length < 9 ∧ 1 = (cipher9.take 8).length / 8 ∧
      8 * 1 + blockSize 9 1 ≤ pad9.length := by decide

theorem test_witness_DecryptFrame :
    decEnv.ph = .idle ∧ seen State.ph (exec (.decrypt 9 9) decEnv) = some .done ∧
      seen State.ph (exec (.decrypt 9 9) (setPadRdAcks (.only 1) decEnv)) = some .padget := by decide

/-- P1: the streams of the second operation are those the first wrote. -/
theorem test_witness_DecryptInvertsEncrypt :
    encEnv.inContent.length = 9 ∧ decEnv.lenw = encEnv.lenw ∧
      seen (fun t => (decide (decEnv.inContent = t.outWritten), decide (decEnv.padContent = t.padWritten)))
        (exec (.encrypt 9) encEnv) = some (true, true) := by decide

/-- For `StepKeepsInv` and `ConsistentStatesNeverFault`: a state inside a block, which a step leaves. -/
theorem test_witness_StepKeepsInv :
    (mid .encrypt .padget).Inv ∧ seen State.ph (step (mid .encrypt .padget)) = some .padput := by
  refine ⟨⟨⟨by decide, by decide, by decide, by decide, by decide, by decide, by decide⟩, ?_, ?_, ?_⟩, by decide⟩
  · intro h; cases h
  · intro h; cases h
  · intro _
    have hp : (mid .encrypt .padget).Passed := ⟨by decide, by decide, fun h => by cases h⟩
    have hb : (mid .encrypt .padget).InBlock 1 := by
      refine ⟨by decide, by decide, by decide, by decide, by decide, fun _ => rfl, fun h => absurd rfl h, fun h => ?_⟩
      cases h
    exact ⟨hp, 1, by decide, hb⟩

/-- For `StepKeepsTheTransactionCount`: as `mid`, with the events of block 0 in the history (V33), one word drawn. -/
def counted : State :=
  { mid .encrypt .padget with
    history := [.start .encrypt, .sizeQ .IN 9] ++ encryptEvents plain9 9 0 [1#64] }

theorem test_witness_StepKeepsTheTransactionCount :
    counted.Inv ∧ counted.Counted ∧ seen (fun t => (t.ph, transactions t.history)) (step counted) = some (.padput, 5) := by
  refine ⟨⟨test_witness_StepKeepsInv.1.1, test_witness_StepKeepsInv.1.2⟩, ?_, by decide⟩
  show transactions counted.history = 4
  decide

end Sys2Proof.Tests
end

/-! PROOFS. Every step keeps `State.Inv` (R5, R14 to R16, R23, R35): that a transition keeps `State.Consistent` is
`advance_consistent`; here are the widths, then acceptance, reset and the whole step. -/

namespace Sys2Proof.Machine

/-! ## A transition keeps the widths -/

/-- `FB` of a size that passed the gate fits in `LENW - 4` bits (R15). -/
theorem fullBlocks_lt_of_le_maxlen {lenw : Nat} {l : Int} (hw : 5 ≤ lenw) (hl : l ≤ maxlen lenw) :
    fullBlocks l.toNat < 2 ^ (lenw - 4) := by
  have h8 : (2 : Int) ^ (lenw - 1) = 8 * ((2 ^ (lenw - 4) : Nat) : Int) := by
    rw [show lenw - 1 = 3 + (lenw - 4) by omega, pow_add]
    norm_num
  have hpos : 0 < 2 ^ (lenw - 4) := Nat.two_pow_pos _
  rw [maxlen, h8] at hl
  rw [fullBlocks_eq]
  omega

/-- A block that exists is numbered `FB` at most (R89). -/
theorem blk_le_fb_of_blockLen {s : State} {b n : Nat} (hn : s.blockLen b = some n) : b ≤ s.fb := by
  rcases (blockLen_eq_some s b n).1 hn with ⟨h, -⟩ | ⟨h, -⟩ <;> omega

/-- No transition gives `PADW` or `BUF` more than eight lanes (R11, R12). -/
theorem transition_keeps_lanes {s t : State} (h : Transition s t) (hp : s.padw.length ≤ 8) (hb : s.buf.length ≤ 8) :
    t.padw.length ≤ 8 ∧ t.buf.length ≤ 8 := by
  cases h with
  | padRead n a _ _ hn _ hl => simp [hl, (blockLen_bounds hn).2, hb]
  | dataRead n a _ hn _ hl => simp [hl, (blockLen_bounds hn).2, hp]
  | _ => simp [hp, hb]

/-- From a consistent state no transition takes `FB` or `BLK` out of range: the split divides a size that passed the
gate, and `BLK` is advanced only past a block that exists (R15, R16). -/
theorem transition_keeps_blocks {s t : State} (h : Transition s t) (hw : s.Widths) (hc : s.Consistent) :
    t.fb < 2 ^ (s.lenw - 4) ∧ t.blk ≤ t.fb + 1 := by
  obtain ⟨hlenw, -, -, hfb, hblk, -, -⟩ := hw
  cases h with
  | splits hph =>
    obtain ⟨-, -, hmax, -⟩ := hc.2.1 hph
    exact ⟨fullBlocks_lt_of_le_maxlen hlenw hmax, Nat.zero_le _⟩
  | dataWrite n a _ hn => simp [hfb, blk_le_fb_of_blockLen hn]
  | lastWrite n a _ hn => simp [hfb, blk_le_fb_of_blockLen hn]
  | _ => simp [hfb, hblk]

theorem advance_keeps_widths {s t : State} (hs : s.Inv) (h : advance s = .to t) : t.Widths := by
  obtain ⟨hw, hc⟩ := hs
  have ht := advance_transition h
  obtain ⟨hfb, hblk⟩ := transition_keeps_blocks ht hw hc
  obtain ⟨hlenw, hlen, hplen, -, -, hpadw, hbuf⟩ := hw
  obtain ⟨hpadw, hbuf⟩ := transition_keeps_lanes ht hpadw hbuf
  obtain ⟨el, -, en, ep, -⟩ := advance_keeps h
  rw [State.Widths, el, en, ep]
  exact ⟨hlenw, hlen, hplen, hfb, hblk, hpadw, hbuf⟩

theorem advance_keeps_consistent {s t : State} (hc : s.Consistent) (h : advance s = .to t) : t.Consistent := by
  rcases advance_consistent hc with hu | ⟨u, hu, hcu, -⟩ <;> rw [hu] at h <;> cases h
  exact hcu

theorem advance_keeps_inv (s t : State) (hs : s.Inv) (h : advance s = .to t) : t.Inv :=
  ⟨advance_keeps_widths hs h, advance_keeps_consistent hs.2 h⟩

theorem resume_keeps_inv {s t : State} (hs : s.Inv) (h : resume s = .next t) : t.Inv :=
  resume_keeps State.Inv advance_keeps_inv hs h

/-! ## Acceptance and reset -/

/-- Whatever is read from the pins fits in `LENW` bits (R53). -/
theorem decode_wf {lenw : Nat} {c : CmdWord} {i : Instr} (h : decode lenw c = .ok i) : i.wf lenw = true := by
  unfold decode at h
  split at h
  · split at h
    · cases h
      exact sizeFits_sizeOfBits _ _
    · split at h
      · cases h
        simp [Instr.wf, sizeFits_sizeOfBits]
      · cases h
  · cases h

/-- Acceptance loads `LEN` and `PLEN` with sizes that fit, and starts the operation untouched (R83, R86). -/
theorem accept_keeps_inv {i : Instr} {s : State} (hs : s.Inv) (hi : i.wf s.lenw = true) : (accept i s).Inv := by
  refine ⟨?_, accept_consistent i s⟩
  obtain ⟨hlenw, -, hplen, hrest⟩ := hs.1
  cases i with
  | encrypt n => exact ⟨hlenw, hi, hplen, hrest⟩
  | decrypt n m =>
    obtain ⟨hn, hm⟩ := (Bool.and_eq_true _ _).mp hi
    exact ⟨hlenw, hn, hm, hrest⟩

theorem exec_keeps_inv {i : Instr} {s t : State} (hs : s.Inv) (hi : i.wf s.lenw = true) (h : exec i s = .next t) :
    t.Inv := by
  cases hr : s.ready with
  | true => exact resume_keeps_inv (accept_keeps_inv hs hi) (exec_ready hr i ▸ h)
  | false =>
    rw [exec_busy hr] at h
    cases h
    exact hs

/-- Reset puts every register at a value of its width and the block in `IDLE`, whatever the other side does (R140,
R141). -/
theorem reset_inv {s : State} (h : Config.minLenw ≤ s.lenw) : (reset s).Inv := by
  have hl : (reset s).lenw = s.lenw := by
    simp only [reset, setFree_lenw, resetBlock_lenw]
    split
    · exact (performRequested_keeps s).1
    · rfl
  have h0 : sizeFits s.lenw 0 = true := by simp [sizeFits_iff]
  refine ⟨?_, consistent_of_ready rfl⟩
  rw [State.Widths, hl]
  exact ⟨h, h0, h0, Nat.two_pow_pos _, Nat.zero_le _, le_refl 8, le_refl 8⟩

/-! ## The step -/

theorem blockRuns_keeps_inv {s t : State} (hs : s.Inv) (h : blockRuns s = .next t) : t.Inv := by
  unfold blockRuns at h
  split at h
  · split at h
    · cases h; exact hs
    · split at h
      · next hd => exact exec_keeps_inv hs (decode_wf hd) h
      · cases h
  · exact resume_keeps_inv hs h

theorem blockTicks_keeps_inv {s t : State} (hs : s.Inv) (h : blockTicks s = .next t) : t.Inv := by
  unfold blockTicks at h
  split at h
  · split at h
    · cases h; exact hs
    · split at h
      · next hd => cases h; exact accept_keeps_inv hs (decode_wf hd)
      · cases h
  · split at h
    · next ha => cases h; exact advance_keeps_inv _ _ hs ha
    · cases h; exact hs
    · cases h

/-- Apart from a tick and a reset, what happens outside touches no register and no cursor, so `State.Inv` is the same
statement before and after (R17). -/
theorem happens_keeps_inv {i : Input} {s t : State} (hs : s.Inv) (h : happens i s = .next t) : t.Inv := by
  cases i with
  | tick => exact blockTicks_keeps_inv hs h
  | rst => cases h; exact reset_inv hs.1.1
  | _ => cases h; exact hs

/-- Settles O58: by what happens next at the boundary. A transition keeps the widths and the consistency, and so does a
run of them; acceptance, reset and the outside keep both too. -/
theorem stepKeepsInv : Obligations.StepKeepsInv := by
  intro s t hs h
  cases hi : s.inputs with
  | nil => exact blockRuns_keeps_inv hs (step_nil hi ▸ h)
  | cons i rest => exact happens_keeps_inv (s := setInputs rest s) hs (step_cons hi ▸ h)

end Sys2Proof.Machine

/-! PROOFS. From a consistent state a step never faults, the state at reset, and a result that holds (R13, R17, R23,
R25, R94). -/

namespace Sys2Proof.Machine

/-! ## A ready block with no command -/

/-- With nothing on the pins a ready block stays as it is (R90). -/
theorem blockRuns_no_command {s : State} (hr : s.ready = true) (hc : s.cmd = none) : blockRuns s = .next s := by
  simp [blockRuns, hr, hc]

theorem blockTicks_no_command {s : State} (hr : s.ready = true) (hc : s.cmd = none) : blockTicks s = .next s := by
  simp [blockTicks, hr, hc]

/-! ## Never a fault -/

/-- What a consistent state may answer: a next state, or the refusal of a pattern that `LENW` wires cannot carry. -/
def State.AnswersOrRefuses (s : State) (o : Host.Outcome State Fault Refusal) : Prop :=
  (∃ t, o = .next t) ∨
    ∃ c e, s.ready = true ∧ s.cmd = some c ∧ decode s.lenw c = .error e ∧ o = .refused (.badCommand e)

theorem answersOrRefuses_next (s t : State) : s.AnswersOrRefuses (.next t) := .inl ⟨t, rfl⟩

/-- A command given to a ready block is run, to its end or to a wait (R96). -/
theorem exec_ready_answers {s : State} (hr : s.ready = true) (i : Instr) : ∃ t, exec i s = .next t := by
  obtain ⟨t, ht, -⟩ := resume_consistent (accept_consistent i s)
  exact ⟨t, (exec_ready hr i).trans ht⟩

theorem blockRuns_answersOrRefuses {s : State} (hs : s.Consistent) : s.AnswersOrRefuses (blockRuns s) := by
  unfold blockRuns
  cases hr : s.ready with
  | false =>
    obtain ⟨t, ht, -⟩ := resume_consistent hs
    exact .inl ⟨t, ht⟩
  | true =>
    cases hc : s.cmd with
    | none => exact answersOrRefuses_next s s
    | some c =>
      cases hd : decode s.lenw c with
      | ok i => exact .inl (by simpa [hd] using exec_ready_answers hr i)
      | error e => exact .inr ⟨c, e, hr, hc, hd, by simp [hd]⟩

theorem blockTicks_answersOrRefuses {s : State} (hs : s.Consistent) : s.AnswersOrRefuses (blockTicks s) := by
  unfold blockTicks
  cases hr : s.ready with
  | false =>
    rcases advance_consistent hs with ha | ⟨t, ha, -⟩
    · exact .inl ⟨s, by simp [ha]⟩
    · exact .inl ⟨t, by simp [ha]⟩
  | true =>
    cases hc : s.cmd with
    | none => exact answersOrRefuses_next s s
    | some c =>
      cases hd : decode s.lenw c with
      | ok i => exact .inl ⟨accept i s, by simp [hd]⟩
      | error e => exact .inr ⟨c, e, hr, hc, hd, by simp [hd]⟩

/-- All that happens at the boundary but a tick is an answer (R97). -/
theorem happens_answersOrRefuses {s : State} (hs : s.Consistent) (i : Input) : s.AnswersOrRefuses (happens i s) := by
  cases i with
  | tick => exact blockTicks_answersOrRefuses hs
  | _ => exact answersOrRefuses_next s _

/-- Settles O59: by what happens next at the boundary. A transition of a consistent state is never stuck, a run of them
neither, and the decoder is the only source of a refusal. -/
theorem consistentStatesNeverFault : Obligations.ConsistentStatesNeverFault := by
  intro s hs
  cases hi : s.inputs with
  | nil => exact step_nil hi ▸ blockRuns_answersOrRefuses hs.2
  | cons i rest => exact step_cons hi ▸ happens_answersOrRefuses (s := setInputs rest s) hs.2 i

/-! ## Reset -/

/-- Settles O57: every number is 0, the lanes are eight, and in `IDLE` neither the phase nor the count asks for more. -/
theorem invAtReset : Obligations.InvAtReset := by
  refine ⟨⟨?_, consistent_of_ready rfl⟩, trivial⟩
  exact ⟨by decide, by decide, by decide, by decide, by decide, by decide, by decide⟩

/-! ## A result holds -/

/-- Settles O31: with no command a tick and a run leave a block in `DONE` as it is, and the outside, but for `rst`,
reaches none of its registers. -/
theorem resultHoldsUntilNextCommand : Obligations.ResultHoldsUntilNextCommand := by
  intro s t hd hc hrst h
  have hr : s.ready = true := (ready_iff s).2 (.inr hd)
  cases hi : s.inputs with
  | nil =>
    rw [step_nil hi, blockRuns_no_command hr hc] at h
    cases h
    simp [hd]
  | cons i rest =>
    rw [step_cons hi] at h
    cases i with
    | rst => exact absurd hi (hrst rest)
    | tick =>
      rw [happens, blockTicks_no_command (s := setInputs rest s) hr hc] at h
      cases h
      simp [hd]
    | _ =>
      cases h
      simp [hd]

end Sys2Proof.Machine

/-! PROOFS. The output ports (R24, R25, R40, R56, R77): when each channel requests, and what its request carries. -/

namespace Sys2Proof.Machine

/-! ## When a channel requests -/

theorem requestIn_of_ph {α : Type} {s : State} {p : Phase} {n : Nat} (h : s.ph = p) (hn : s.blockLen s.blk = some n)
    (f : Nat → Option α) : s.requestIn p f = f n := by simp [State.requestIn, h, hn]

theorem requestIn_of_ne {α : Type} {s : State} {p : Phase} (h : s.ph ≠ p) (f : Nat → Option α) :
    s.requestIn p f = none := by simp [State.requestIn, h]

theorem requestIn_isSome {α : Type} (s : State) (p : Phase) (f : Nat → Option α) :
    (s.requestIn p f).isSome = true ↔ s.ph = p ∧ ∃ n, s.blockLen s.blk = some n ∧ (f n).isSome = true := by
  by_cases h : s.ph = p
  · cases hn : s.blockLen s.blk <;> simp [State.requestIn, h, hn]
  · simp [State.requestIn, h]

theorem lanes_isSome (r : List Byte) (n : Nat) : (lanes r n).isSome = true ↔ n ≤ r.length := by
  simp [Option.isSome_iff_exists, lanes_eq_some]

theorem xdp_isSome (b p : List Byte) (n : Nat) : (xdp b p n).isSome = true ↔ n ≤ b.length ∧ n ≤ p.length := by
  simp [Option.isSome_iff_exists, xdp_eq_some]

theorem inReadPort_isSome (s : State) :
    s.inReadPort.isSome = true ↔ s.ph = .dataget ∧ ∃ n, s.blockLen s.blk = some n := by
  simp [State.inReadPort, requestIn_isSome]

theorem padReadPort_isSome (s : State) :
    s.padReadPort.isSome = true ↔ s.ph = .padget ∧ s.op = .decrypt ∧ ∃ n, s.blockLen s.blk = some n := by
  cases ho : s.op <;> simp [State.padReadPort, ho, requestIn_isSome]

theorem psReqPort_iff (s : State) : s.psReqPort = true ↔ s.ph = .padget ∧ s.op = .encrypt := by
  simp [State.psReqPort, and_comm]

theorem padWritePort_isSome (s : State) :
    s.padWritePort.isSome = true ↔
      s.ph = .padput ∧ s.op = .encrypt ∧ ∃ n, s.blockLen s.blk = some n ∧ n ≤ s.padw.length := by
  cases ho : s.op <;> simp [State.padWritePort, ho, requestIn_isSome, lanes_isSome]

theorem outWritePort_isSome (s : State) :
    s.outWritePort.isSome = true ↔
      s.ph = .dataput ∧ ∃ n, s.blockLen s.blk = some n ∧ n ≤ s.buf.length ∧ n ≤ s.padw.length := by
  simp [State.outWritePort, requestIn_isSome, xdp_isSome]

/-! ## Outside its phase a channel is silent -/

theorem inReadPort_of_ne {s : State} (h : s.ph ≠ .dataget) : s.inReadPort = none := requestIn_of_ne h _

theorem padReadPort_of_ne {s : State} (h : s.ph ≠ .padget) : s.padReadPort = none := by
  simp [State.padReadPort, requestIn_of_ne h]

theorem padReadPort_of_encrypt {s : State} (h : s.op = .encrypt) : s.padReadPort = none := by
  simp [State.padReadPort, h]

theorem outWritePort_of_ne {s : State} (h : s.ph ≠ .dataput) : s.outWritePort = none := requestIn_of_ne h _

theorem padWritePort_of_ne {s : State} (h : s.ph ≠ .padput) : s.padWritePort = none := by
  simp [State.padWritePort, requestIn_of_ne h]

theorem psReqPort_of_ne {s : State} (h : s.ph ≠ .padget) : s.psReqPort = false := by simp [State.psReqPort, h]

theorem psReqPort_of_decrypt {s : State} (h : s.op = .decrypt) : s.psReqPort = false := by simp [State.psReqPort, h]

/-- In `IDLE` and `DONE` no channel requests (R24). -/
theorem ports_silent_of_ready {s : State} (h : s.ready = true) :
    s.inReadPort = none ∧ s.padReadPort = none ∧ s.outWritePort = none ∧ s.padWritePort = none ∧
      s.psReqPort = false := by
  rcases (ready_iff s).1 h with hp | hp <;>
    exact ⟨inReadPort_of_ne (by simp [hp]), padReadPort_of_ne (by simp [hp]), outWritePort_of_ne (by simp [hp]),
      padWritePort_of_ne (by simp [hp]), psReqPort_of_ne (by simp [hp])⟩

/-- Two channels never share a phase, but for the pad read and the draw, and these are of different operations (R40). -/
theorem count_requests_le_one (s : State) :
    [s.inReadPort.isSome, s.padReadPort.isSome, s.outWritePort.isSome, s.padWritePort.isSome, s.psReqPort].count true
      ≤ 1 := by
  cases hp : s.ph with
  | padget =>
    rw [inReadPort_of_ne (by simp [hp]), outWritePort_of_ne (by simp [hp]), padWritePort_of_ne (by simp [hp])]
    cases ho : s.op with
    | encrypt =>
      rw [padReadPort_of_encrypt ho]
      cases s.psReqPort <;> decide
    | decrypt =>
      rw [psReqPort_of_decrypt ho]
      cases s.padReadPort.isSome <;> decide
  | padput =>
    rw [inReadPort_of_ne (by simp [hp]), padReadPort_of_ne (by simp [hp]), outWritePort_of_ne (by simp [hp]),
      psReqPort_of_ne (by simp [hp])]
    cases s.padWritePort.isSome <;> decide
  | dataget =>
    rw [padReadPort_of_ne (by simp [hp]), outWritePort_of_ne (by simp [hp]), padWritePort_of_ne (by simp [hp]),
      psReqPort_of_ne (by simp [hp])]
    cases s.inReadPort.isSome <;> decide
  | dataput =>
    rw [inReadPort_of_ne (by simp [hp]), padReadPort_of_ne (by simp [hp]), padWritePort_of_ne (by simp [hp]),
      psReqPort_of_ne (by simp [hp])]
    cases s.outWritePort.isSome <;> decide
  | _ =>
    rw [inReadPort_of_ne (by simp [hp]), padReadPort_of_ne (by simp [hp]), outWritePort_of_ne (by simp [hp]),
      padWritePort_of_ne (by simp [hp]), psReqPort_of_ne (by simp [hp])]
    decide

/-- Settles O33: each channel by the lemma that says when it requests. -/
theorem oneChannelRequests : Obligations.OneChannelRequests := fun s =>
  ⟨ready_iff s, count_requests_le_one s, ports_silent_of_ready, inReadPort_isSome s, padReadPort_isSome s,
    psReqPort_iff s, padWritePort_isSome s, outWritePort_isSome s⟩

/-- Settles O29: in `IDLE` every channel is silent, and with no command presented the block stays. -/
theorem resetStateIsTheTable : Obligations.ResetStateIsTheTable := by
  have hr : State.reset.ready = true := rfl
  obtain ⟨hin, hpr, hout, hpw, hps⟩ := ports_silent_of_ready hr
  exact ⟨rfl, rfl, rfl, rfl, hr, hin, hpr, hout, hpw, hps, (step_nil rfl).trans (blockRuns_no_command hr rfl)⟩

/-! ## What a request carries -/

/-- A block has at most eight bytes, so its count fits in the four wires of format `T` (R55). -/
theorem blockLen_toNat {s : State} {n : Nat} (hn : s.blockLen s.blk = some n) : (BitVec.ofNat 4 n).toNat = n := by
  have := (blockLen_bounds hn).2
  rw [BitVec.toNat_ofNat, Nat.mod_eq_of_lt (by omega)]

theorem ofBytes_n {b : List Byte} (h : b.length ≤ 8) : (Transfer.ofBytes b).n.toNat = b.length := by
  rw [Transfer.ofBytes, BitVec.toNat_ofNat, Nat.mod_eq_of_lt (by omega)]

theorem ofBytes_bytes {b : List Byte} (h : b.length ≤ 8) : (Transfer.ofBytes b).bytes = b := by
  rw [Transfer.bytes, ofBytes_n h]
  exact bytes8_word8_take b h

/-- The lanes below the count hold the bytes (R55). -/
theorem ofBytes_lane_of_lt {b : List Byte} {k : Nat} (h : b.length ≤ 8) (hk : k < b.length) :
    b[k]? = some (lane (Transfer.ofBytes b).data k) := by
  rw [Transfer.ofBytes, lane_word8 b k (by omega)]
  simp [hk]

/-- The lanes at or above the count hold 0 (R77, D24). -/
theorem ofBytes_lane_of_ge (b : List Byte) {k : Nat} (hk : b.length ≤ k) (h8 : k < 8) :
    lane (Transfer.ofBytes b).data k = 0#8 := by
  rw [Transfer.ofBytes, lane_word8 b k h8]
  simp [hk]

/-- Settles O34: each port is the request of its phase, and a transfer carries its bytes. -/
theorem otherPortsRequestTheBlock : Obligations.OtherPortsRequestTheBlock := by
  intro s n hn
  have h8 := (blockLen_bounds hn).2
  refine ⟨fun hp => ⟨_, requestIn_of_ph hp hn _, blockLen_toNat hn⟩, fun hp ho => ⟨_, ?_, blockLen_toNat hn⟩,
    fun hp ho => (psReqPort_iff s).2 ⟨hp, ho⟩, fun hp ho hl => ?_⟩
  · rw [State.padReadPort, if_pos ho, requestIn_of_ph hp hn]
  · have hlen : (s.padw.take n).length = n := List.length_take_of_le hl
    refine ⟨.ofBytes (s.padw.take n), ?_, ?_, ?_, fun k hk => ?_, fun k hk => ?_⟩
    · rw [State.padWritePort, if_pos ho, requestIn_of_ph hp hn, lanes_of_le _ _ hl, Option.map_some]
    · rw [ofBytes_n (by omega), hlen]
    · exact ofBytes_bytes (by omega)
    · rw [← List.getElem?_take_of_lt hk]
      exact ofBytes_lane_of_lt (by omega) (by omega)
    · exact ofBytes_lane_of_ge _ (by omega)

/-- Settles O35: the port is the datapath's output as a transfer, and a transfer carries its bytes. -/
theorem outWritePortCarriesXor : Obligations.OutWritePortCarriesXor := by
  intro s n hp hn hb hw
  have h8 := (blockLen_bounds hn).2
  have hx := xdp_of_le _ _ _ hb hw
  have hlen : (xorBytes (s.buf.take n) (s.padw.take n)).length = n := by simp [hb, hw]
  refine ⟨_, .ofBytes _, hx, ?_, ?_, ofBytes_bytes (by omega), fun k hk => ofBytes_lane_of_ge _ (by omega)⟩
  · rw [State.outWritePort, requestIn_of_ph hp hn, hx, Option.map_some]
  · rw [ofBytes_n (by omega), hlen]

end Sys2Proof.Machine

/-! PROOFS. The frame of a tick, and what each command leaves unchanged (R10 to R16, R20, R21, R30, R44). -/

namespace Sys2Proof.Machine

/-! ## A tick -/

/-- What a tick of a running block can do to it: nothing while it waits (R150), or a transition of R90. -/
def State.TicksTo (s t : State) : Prop := t = s ∨ Transition s t

theorem step_tick_busy_cases {s t : State} {rest : List Input} (hi : s.inputs = .tick :: rest) (hb : s.busy = true)
    (h : step s = .next t) : ∃ u, s.TicksTo u ∧ t = setInputs rest u := by
  rw [step_tick_busy hi hb] at h
  cases ha : advance s <;> rw [ha] at h <;> cases h
  · exact ⟨_, .inr (advance_transition ha), rfl⟩
  · exact ⟨s, .inl rfl, rfl⟩

section
variable {s t : State}

/-- No tick writes what acceptance loads, nor the pins, nor what the readable streams hold (R14, R44). -/
theorem ticksTo_keeps_operands (h : s.TicksTo t) :
    t.lenw = s.lenw ∧ t.op = s.op ∧ t.len = s.len ∧ t.plen = s.plen ∧ t.inContent = s.inContent ∧
      t.padContent = s.padContent ∧ t.cmd = s.cmd := by
  rcases h with rfl | h
  · simp
  · cases h <;> simp

/-- Only `SPLIT` writes `FB` and `REM` (R15). -/
theorem ticksTo_keeps_split (h : s.TicksTo t) (hp : s.ph ≠ .split) : t.fb = s.fb ∧ t.rem = s.rem := by
  rcases h with rfl | h
  · simp
  · cases h with
    | splits hs => exact absurd hs hp
    | _ => simp

/-- Only `SPLIT` and `DATAPUT` write `BLK` (R16). -/
theorem ticksTo_keeps_blk (h : s.TicksTo t) (hs : s.ph ≠ .split) (hd : s.ph ≠ .dataput) : t.blk = s.blk := by
  rcases h with rfl | h
  · rfl
  · cases h with
    | splits hp => exact absurd hp hs
    | dataWrite _ _ hp | lastWrite _ _ hp => exact absurd hp hd
    | _ => simp

/-- Only `PADGET`, and the end of an operation, writes `PADW` (R11, R94). -/
theorem ticksTo_keeps_padw (h : s.TicksTo t) (hp : s.ph ≠ .padget) (hd : t.ph ≠ .done) : t.padw = s.padw := by
  rcases h with rfl | h
  · rfl
  · cases h with
    | draws _ _ _ hg | padRead _ _ _ hg => exact absurd hg hp
    | _ => simp at hd ⊢

/-- Only `DATAGET`, and the end of an operation, writes `BUF` (R12, R94). -/
theorem ticksTo_keeps_buf (h : s.TicksTo t) (hp : s.ph ≠ .dataget) (hd : t.ph ≠ .done) : t.buf = s.buf := by
  rcases h with rfl | h
  · rfl
  · cases h with
    | dataRead _ _ hg => exact absurd hg hp
    | _ => simp at hd ⊢

/-- `STATUS` is written by the end of an operation alone (R17). -/
theorem ticksTo_keeps_status (h : s.TicksTo t) (hd : t.ph ≠ .done) : t.status = s.status := by
  rcases h with rfl | h
  · rfl
  · cases h <;> simp at hd ⊢

/-- Only `DATAGET` reads `IN` (R92). -/
theorem ticksTo_keeps_inRc (h : s.TicksTo t) (hp : s.ph ≠ .dataget) : t.inRc = s.inRc ∧ t.inAcks = s.inAcks := by
  rcases h with rfl | h
  · simp
  · cases h with
    | dataRead _ _ hg | dataShort _ _ hg => exact absurd hg hp
    | _ => simp

/-- Only `PADGET` of `DECRYPT` reads `PAD` (R21, R68). -/
theorem ticksTo_keeps_padRc (h : s.TicksTo t) (hp : ¬(s.ph = .padget ∧ s.op = .decrypt)) :
    t.padRc = s.padRc ∧ t.padRdAcks = s.padRdAcks := by
  rcases h with rfl | h
  · simp
  · cases h with
    | padRead _ _ ho hg | padShort _ _ ho hg => exact absurd ⟨hg, ho⟩ hp
    | _ => simp

/-- Only `PADGET` of `ENCRYPT` draws (R67). -/
theorem ticksTo_keeps_psAnswers (h : s.TicksTo t) (hp : ¬(s.ph = .padget ∧ s.op = .encrypt)) :
    t.psAnswers = s.psAnswers := by
  rcases h with rfl | h
  · rfl
  · cases h with
    | draws _ _ ho hg | drawFails _ ho hg => exact absurd ⟨hg, ho⟩ hp
    | _ => simp

/-- A tick leaves `written(PAD)` and its endpoint, or it is `PADPUT` of `ENCRYPT`, which appends the block's `n` bytes
(R102). -/
theorem ticksTo_padWritten (h : s.TicksTo t) :
    (t.padWritten = s.padWritten ∧ t.padWrAcks = s.padWrAcks) ∨
      (s.ph = .padput ∧ ∃ n x, s.blockLen s.blk = some n ∧ x.length = n ∧ t.padWritten = s.padWritten ++ x) := by
  rcases h with rfl | h
  · exact .inl ⟨rfl, rfl⟩
  · cases h with
    | padWrite n a _ hp hn _ hl => exact .inr ⟨hp, n, _, hn, List.length_take_of_le hl, rfl⟩
    | _ => simp

/-- A tick leaves `written(OUT)` and its endpoint, or it is `DATAPUT`, which appends the block's `n` bytes (R93). -/
theorem ticksTo_outWritten (h : s.TicksTo t) :
    (t.outWritten = s.outWritten ∧ t.outAcks = s.outAcks) ∨
      (s.ph = .dataput ∧ ∃ n x, s.blockLen s.blk = some n ∧ x.length = n ∧ t.outWritten = s.outWritten ++ x) := by
  rcases h with rfl | h
  · exact .inl ⟨rfl, rfl⟩
  · cases h with
    | dataWrite n a hp hn _ hb hl => exact .inr ⟨hp, n, _, hn, by simp [hb, hl], rfl⟩
    | lastWrite n a hp hn _ hb hl => exact .inr ⟨hp, n, _, hn, by simp [hb, hl], rfl⟩
    | _ => simp

/-! ### The streams, byte by byte -/

/-- An append changes the bytes from the write cursor on, as many as it adds (R20, R34). -/
theorem getElem?_append_of_outside {α : Type} {a x : List α} {off : Nat}
    (h : ¬(a.length ≤ off ∧ off < a.length + x.length)) : (a ++ x)[off]? = a[off]? := by
  rcases Nat.lt_or_ge off a.length with hlt | hge
  · exact List.getElem?_append_left hlt
  · have : (a ++ x).length ≤ off := by rw [List.length_append]; omega
    rw [List.getElem?_eq_none this, List.getElem?_eq_none hge]

theorem ticksTo_byteAt_out (h : s.TicksTo t) {off : Nat}
    (ho : ¬(s.ph = .dataput ∧ s.outWritten.length ≤ off ∧
      ∃ n, s.blockLen s.blk = some n ∧ off < s.outWritten.length + n)) : t.byteAt .OUT off = s.byteAt .OUT off := by
  change t.outWritten[off]? = s.outWritten[off]?
  rcases ticksTo_outWritten h with ⟨he, -⟩ | ⟨hp, n, x, hn, hx, he⟩ <;> rw [he]
  exact getElem?_append_of_outside fun ⟨h1, h2⟩ => ho ⟨hp, h1, n, hn, hx ▸ h2⟩

theorem ticksTo_byteAt_pad (h : s.TicksTo t) {off : Nat}
    (ho : ¬(s.ph = .padput ∧ s.padWritten.length ≤ off ∧
      ∃ n, s.blockLen s.blk = some n ∧ off < s.padWritten.length + n)) : t.byteAt .PAD off = s.byteAt .PAD off := by
  obtain ⟨-, hop, -, -, -, hpc, -⟩ := ticksTo_keeps_operands h
  simp only [State.byteAt, State.stream, hop, hpc]
  split
  · rcases ticksTo_padWritten h with ⟨he, -⟩ | ⟨hp, n, x, hn, hx, he⟩ <;> rw [he]
    exact getElem?_append_of_outside fun ⟨h1, h2⟩ => ho ⟨hp, h1, n, hn, hx ▸ h2⟩
  · rfl

end

theorem byteAt_in_congr {s t : State} (h : t.inContent = s.inContent) (off : Nat) :
    t.byteAt .IN off = s.byteAt .IN off := by
  simp only [State.byteAt, State.stream, h]

/-- Settles O26: a tick is a wait or a transition of R90, and each field by the lemma that names the phases that write
it. -/
theorem transitionFrame : Obligations.TransitionFrame := by
  intro s t rest hi hb h
  obtain ⟨u, hu, rfl⟩ := step_tick_busy_cases hi hb h
  obtain ⟨hlw, hop, hln, hpl, hic, hpc, hcm⟩ := ticksTo_keeps_operands hu
  exact ⟨⟨hlw, hop, hln, hpl, hic, hpc, hcm, rfl⟩, ticksTo_keeps_split (t := u) hu, ticksTo_keeps_blk (t := u) hu,
    ticksTo_keeps_padw (t := u) hu, ticksTo_keeps_buf (t := u) hu, ticksTo_keeps_inRc (t := u) hu,
    ticksTo_keeps_padRc (t := u) hu, ticksTo_keeps_psAnswers (t := u) hu,
    fun hp => (ticksTo_padWritten hu).resolve_right fun hw => hp hw.1,
    fun hp => (ticksTo_outWritten hu).resolve_right fun hw => hp hw.1,
    ticksTo_keeps_status (t := u) hu, byteAt_in_congr hic, fun _ => ticksTo_byteAt_out hu,
    fun _ => ticksTo_byteAt_pad hu⟩

/-! ## A command -/

/-- A transition only leaves a phase in which the block runs, so `STATUS` is written where it ends and nowhere else. -/
theorem advance_keeps_status {s t : State} (h : advance s = .to t) (hd : t.ph ≠ .done) :
    s.ph ≠ .done ∧ t.status = s.status := by
  refine ⟨fun hs => ?_, ticksTo_keeps_status (.inr (advance_transition h)) hd⟩
  rw [advance_done hs] at h
  cases h

/-- A transition takes answers of the Pad Source from the front (R66). -/
theorem advance_takes_answers {s t : State} (h : advance s = .to t) : t.psAnswers <:+ s.psAnswers := by
  cases advance_transition h with
  | draws | drawFails => simp [List.tail_suffix]
  | _ => simp

/-- What no transition of either command changes, once it is accepted with these operands. -/
structure State.RunsFrom (s : State) (o : Op) (n m : Int) (t : State) : Prop where
  op : t.op = o
  len : t.len = n
  plen : t.plen = m
  cmd : t.cmd = none
  lenw : t.lenw = s.lenw
  inContent : t.inContent = s.inContent
  padContent : t.padContent = s.padContent
  inputs : t.inputs = s.inputs
  status : t.ph ≠ .done → t.status = s.status

theorem runsFrom_advance {s t u : State} {o : Op} {n m : Int} (ht : s.RunsFrom o n m t) (h : advance t = .to u) :
    s.RunsFrom o n m u := by
  obtain ⟨hlw, hop, hln, hpl, hic, hpc, hcm, hin⟩ := advance_keeps h
  refine ⟨hop.trans ht.op, hln.trans ht.len, hpl.trans ht.plen, hcm.trans ht.cmd, hlw.trans ht.lenw,
    hic.trans ht.inContent, hpc.trans ht.padContent, hin.trans ht.inputs, fun hd => ?_⟩
  obtain ⟨htd, hst⟩ := advance_keeps_status h hd
  exact hst.trans (ht.status htd)

/-- The run of `ENCRYPT` leaves the pad's read side alone, and takes answers from the front (R21, R66). -/
def State.EncryptsFrom (s : State) (n : Int) (t : State) : Prop :=
  s.RunsFrom .encrypt n s.plen t ∧ t.padRc = s.padRc ∧ t.padRdAcks = s.padRdAcks ∧ t.psAnswers <:+ s.psAnswers

theorem encryptsFrom_advance (s : State) (n : Int) (t u : State) (ht : s.EncryptsFrom n t) (h : advance t = .to u) :
    s.EncryptsFrom n u := by
  obtain ⟨hr, hrc, hak, hps⟩ := ht
  obtain ⟨erc, eak⟩ := advance_keeps_encrypt h hr.op
  exact ⟨runsFrom_advance hr h, erc.trans hrc, eak.trans hak, (advance_takes_answers h).trans hps⟩

theorem exec_encryptsFrom {s t : State} {n : Int} (hr : s.ready = true) (h : exec (.encrypt n) s = .next t) :
    s.EncryptsFrom n t := by
  rw [exec_ready hr] at h
  refine resume_keeps (s := acceptEncrypt n s) (s.EncryptsFrom n) (encryptsFrom_advance s n)
    ⟨?_, rfl, rfl, List.suffix_rfl⟩ h
  exact ⟨rfl, rfl, rfl, rfl, rfl, rfl, rfl, rfl, fun _ => rfl⟩

/-- Settles O48: acceptance establishes `State.EncryptsFrom` and every transition keeps it. -/
theorem encryptFrame : Obligations.EncryptFrame := by
  intro s t n hp h
  obtain ⟨hr, hrc, hak, used, hps⟩ := exec_encryptsFrom ((ready_iff s).2 hp) h
  exact ⟨hr.op, hr.len, hr.cmd, hr.lenw, hr.plen, hr.inContent, hr.padContent, hrc, hak, hr.inputs,
    byteAt_in_congr hr.inContent, ⟨used, hps.symm⟩, hr.status⟩

/-- The run of `DECRYPT` draws nothing and leaves the pad's write side alone (R67, R115). -/
def State.DecryptsFrom (s : State) (n m : Int) (t : State) : Prop :=
  s.RunsFrom .decrypt n m t ∧ t.psAnswers = s.psAnswers ∧ t.padWritten = s.padWritten ∧ t.padWrAcks = s.padWrAcks

theorem decryptsFrom_advance (s : State) (n m : Int) (t u : State) (ht : s.DecryptsFrom n m t)
    (h : advance t = .to u) : s.DecryptsFrom n m u := by
  obtain ⟨hr, hps, hpw, hak⟩ := ht
  obtain ⟨eps, epw, eak⟩ := advance_keeps_decrypt h hr.op
  exact ⟨runsFrom_advance hr h, eps.trans hps, epw.trans hpw, eak.trans hak⟩

theorem exec_decryptsFrom {s t : State} {n m : Int} (hr : s.ready = true) (h : exec (.decrypt n m) s = .next t) :
    s.DecryptsFrom n m t := by
  rw [exec_ready hr] at h
  refine resume_keeps (s := acceptDecrypt n m s) (s.DecryptsFrom n m) (decryptsFrom_advance s n m)
    ⟨?_, rfl, rfl, rfl⟩ h
  exact ⟨rfl, rfl, rfl, rfl, rfl, rfl, rfl, rfl, fun _ => rfl⟩

/-- In `DECRYPT` the `PAD` space is `content(PAD)` (R21). -/
theorem byteAt_pad_of_decrypt {t : State} (h : t.op = .decrypt) (off : Nat) :
    t.byteAt .PAD off = t.padContent[off]? := by
  simp [State.byteAt, State.stream, h]

/-- Settles O55: acceptance establishes `State.DecryptsFrom` and every transition keeps it. -/
theorem decryptFrame : Obligations.DecryptFrame := by
  intro s t n m hp h
  obtain ⟨hr, hps, hpw, hak⟩ := exec_decryptsFrom ((ready_iff s).2 hp) h
  exact ⟨hr.op, hr.len, hr.plen, hr.cmd, hr.lenw, hr.inContent, hr.padContent, hpw, hak, hps, hr.inputs,
    byteAt_in_congr hr.inContent, fun off => hr.padContent ▸ byteAt_pad_of_decrypt hr.op off, hr.status⟩

end Sys2Proof.Machine

/-! PROOFS. Nothing persists across operations (R23, R95). A state's `observable` masks every register that the rules
leave without a value in its phase and operation; a transition is a function of what is left. So two runs that start
from one observable state go through the same observable states. -/

namespace Sys2Proof.Machine

/-! ## What a transition can see -/

/-- `x` where the mask says so, and else the filler `d`. -/
def keepIf {α : Type} (c : Bool) (x d : α) : α := if c = true then x else d

@[simp] theorem keepIf_true {α : Type} (x d : α) : keepIf true x d = x := rfl
@[simp] theorem keepIf_false {α : Type} (x d : α) : keepIf false x d = d := rfl
@[simp] theorem keepIf_keepIf {α : Type} (c : Bool) (x d : α) : keepIf c (keepIf c x d) d = keepIf c x d := by
  cases c <;> rfl

/-- The operation that writes `PAD` (R21). -/
@[simp] def Op.writesPad : Op → Bool
  | .encrypt => true
  | .decrypt => false

/-- The operation that reads `PAD`, and so has a `PLEN` (R14, R21). -/
@[simp] def Op.readsPad : Op → Bool
  | .encrypt => false
  | .decrypt => true

/-- The phases in which a later phase of the block reads the lanes of `PADW` (R11, R13). -/
@[simp] def Phase.holdsPadw : Phase → Bool
  | .padput | .dataget | .dataput => true
  | _ => false

/-- The phase that reads the lanes of `BUF` (R12, R13). -/
@[simp] def Phase.holdsBuf : Phase → Bool
  | .dataput => true
  | _ => false

/-- The phase in which `STATUS` is the result of the operation (R17). -/
@[simp] def Phase.holdsStatus : Phase → Bool
  | .done => true
  | _ => false

/-- The state without what R23 lets no behaviour depend on: `PLEN` and the pad's read cursor outside `DECRYPT`,
`written(PAD)` outside `ENCRYPT`, the split and `BLK` outside the blocks, `PADW` and `BUF` where no later phase reads
them, `STATUS` before the end; and without the pins, the schedule and the model's own field `free`. -/
def State.observable (s : State) : State :=
  { s with
    plen := keepIf s.op.readsPad s.plen 0
    padRc := keepIf s.op.readsPad s.padRc 0
    padWritten := keepIf s.op.writesPad s.padWritten []
    fb := keepIf s.ph.inBlock s.fb 0
    rem := keepIf s.ph.inBlock s.rem 0
    blk := keepIf s.ph.inBlock s.blk 0
    padw := keepIf s.ph.holdsPadw s.padw []
    buf := keepIf s.ph.holdsBuf s.buf []
    status := keepIf s.ph.holdsStatus s.status .ok
    cmd := none
    inputs := []
    free := 0 }

@[simp] theorem observable_lenw (s : State) : s.observable.lenw = s.lenw := rfl
@[simp] theorem observable_op (s : State) : s.observable.op = s.op := rfl
@[simp] theorem observable_len (s : State) : s.observable.len = s.len := rfl
@[simp] theorem observable_plen (s : State) : s.observable.plen = keepIf s.op.readsPad s.plen 0 := rfl
@[simp] theorem observable_fb (s : State) : s.observable.fb = keepIf s.ph.inBlock s.fb 0 := rfl
@[simp] theorem observable_rem (s : State) : s.observable.rem = keepIf s.ph.inBlock s.rem 0 := rfl
@[simp] theorem observable_ph (s : State) : s.observable.ph = s.ph := rfl
@[simp] theorem observable_blk (s : State) : s.observable.blk = keepIf s.ph.inBlock s.blk 0 := rfl
@[simp] theorem observable_padw (s : State) : s.observable.padw = keepIf s.ph.holdsPadw s.padw [] := rfl
@[simp] theorem observable_buf (s : State) : s.observable.buf = keepIf s.ph.holdsBuf s.buf [] := rfl
@[simp] theorem observable_status (s : State) : s.observable.status = keepIf s.ph.holdsStatus s.status .ok := rfl
@[simp] theorem observable_inContent (s : State) : s.observable.inContent = s.inContent := rfl
@[simp] theorem observable_inRc (s : State) : s.observable.inRc = s.inRc := rfl
@[simp] theorem observable_padContent (s : State) : s.observable.padContent = s.padContent := rfl
@[simp] theorem observable_padRc (s : State) : s.observable.padRc = keepIf s.op.readsPad s.padRc 0 := rfl
@[simp] theorem observable_padWritten (s : State) : s.observable.padWritten = keepIf s.op.writesPad s.padWritten [] :=
  rfl
@[simp] theorem observable_outWritten (s : State) : s.observable.outWritten = s.outWritten := rfl
@[simp] theorem observable_psAnswers (s : State) : s.observable.psAnswers = s.psAnswers := rfl
@[simp] theorem observable_inAcks (s : State) : s.observable.inAcks = s.inAcks := rfl
@[simp] theorem observable_padRdAcks (s : State) : s.observable.padRdAcks = s.padRdAcks := rfl
@[simp] theorem observable_padWrAcks (s : State) : s.observable.padWrAcks = s.padWrAcks := rfl
@[simp] theorem observable_outAcks (s : State) : s.observable.outAcks = s.outAcks := rfl
@[simp] theorem observable_cmd (s : State) : s.observable.cmd = none := rfl
@[simp] theorem observable_inputs (s : State) : s.observable.inputs = [] := rfl
@[simp] theorem observable_history (s : State) : s.observable.history = s.history := rfl
@[simp] theorem observable_free (s : State) : s.observable.free = 0 := rfl

/-! ## Each operation does to the observable state what it does to the state -/

@[simp] theorem inBlock_padget : Phase.padget.inBlock = true := rfl
@[simp] theorem inBlock_padput : Phase.padput.inBlock = true := rfl
@[simp] theorem inBlock_dataget : Phase.dataget.inBlock = true := rfl
@[simp] theorem inBlock_dataput : Phase.dataput.inBlock = true := rfl
@[simp] theorem inBlock_validate : Phase.validate.inBlock = false := rfl
@[simp] theorem inBlock_split : Phase.split.inBlock = false := rfl
@[simp] theorem inBlock_done : Phase.done.inBlock = false := rfl

theorem raise_observable (k : Failure) (s : State) : (raise k s.observable).observable = (raise k s).observable := by
  ext1 <;> simp

theorem finishOk_observable (s : State) : (finishOk s.observable).observable = (finishOk s).observable := by
  ext1 <;> simp

theorem split_observable (s : State) : (split s.observable).observable = (split s).observable := by
  ext1 <;> simp

theorem afterReadIn_observable (off n : Nat) (a : Acks) (s : State) :
    afterReadIn off n a s.observable = (afterReadIn off n a s).observable := rfl

theorem afterWriteOut_observable (off : Nat) (v : List Byte) (a : Acks) (s : State) :
    afterWriteOut off v a s.observable = (afterWriteOut off v a s).observable := rfl

theorem afterDraw_observable (d : PsAnswer) (s : State) : afterDraw d s.observable = (afterDraw d s).observable := rfl

theorem padBytes_observable {s : State} (ho : s.op = .decrypt) (n : Nat) :
    s.observable.padBytes n = s.padBytes n := by simp [State.padBytes, ho]

theorem afterReadPad_observable (off n : Nat) (a : Acks) {s : State} (ho : s.op = .decrypt) :
    afterReadPad off n a s.observable = (afterReadPad off n a s).observable := by
  ext1 <;> simp [ho, padBytes_observable ho]

theorem afterWritePad_observable (off : Nat) (v : List Byte) (a : Acks) {s : State} (ho : s.op = .encrypt) :
    afterWritePad off v a s.observable = (afterWritePad off v a s).observable := by
  ext1 <;> simp [ho]

theorem blockLen_observable {s : State} (h : s.ph.inBlock = true) (b : Nat) :
    s.observable.blockLen b = s.blockLen b := blockLen_congr (by simp [h]) (by simp [h]) b

theorem more_observable {s : State} (h : s.ph.inBlock = true) (b : Nat) : s.observable.more b = s.more b :=
  more_congr (by simp [h]) (by simp [h]) b

/-! ## Each phase -/

theorem goto_split_observable (s : State) : (goto .split s.observable).observable = (goto .split s).observable := by
  ext1 <;> simp

theorem validateEncrypt_observable (s : State) :
    (validateEncrypt s.observable).observable = (validateEncrypt s).observable := by
  unfold validateEncrypt
  split <;> rename_i hg
  · exact (raise_observable _ s).trans (congrArg _ (if_pos hg).symm)
  · exact (goto_split_observable s).trans (congrArg _ (if_neg hg).symm)

theorem validateDecrypt_observable {s : State} (ho : s.op = .decrypt) :
    (validateDecrypt s.observable).observable = (validateDecrypt s).observable := by
  have hp : s.observable.plen = s.plen := by simp [ho]
  unfold validateDecrypt
  rw [hp]
  split <;> rename_i hg
  · exact (raise_observable _ s).trans (congrArg _ (if_pos hg).symm)
  · split <;> rename_i hm
    · exact (raise_observable _ s).trans (congrArg _ ((if_neg hg).trans (if_pos hm)).symm)
    · exact (goto_split_observable s).trans (congrArg _ ((if_neg hg).trans (if_neg hm)).symm)

/-- The end of `PADGET`: a pad word loaded in a block is seen from then on. -/
theorem goto_loadPadw_observable {p : Phase} {s : State} (w : List Byte) (h : s.ph = .padget)
    (hp : p = .padput ∨ p = .dataget) :
    (goto p (loadPadw w s.observable)).observable = (goto p (loadPadw w s)).observable := by
  rcases hp with rfl | rfl <;> ext1 <;> simp [h]

theorem draw_observable (s : State) : draw s.observable = (draw s).map fun d => (d.1, d.2.observable) := by
  simp only [draw, observable_psAnswers]
  cases s.psAnswers <;> rfl

theorem padgetEncrypt_observable {s : State} (h : s.ph = .padget) :
    (padgetEncrypt s.observable).map State.observable = (padgetEncrypt s).map State.observable := by
  unfold padgetEncrypt
  rw [draw_observable]
  rcases draw_cases s with ⟨-, hd⟩ | ⟨a, l, -, hd⟩ <;> rw [hd]
  · rfl
  · cases a with
    | fail => exact congrArg Move.to (raise_observable _ _)
    | ok w => exact congrArg Move.to (goto_loadPadw_observable _ h (by simp))

theorem padgetDecrypt_observable {s : State} (ho : s.op = .decrypt) (h : s.ph = .padget) :
    (padgetDecrypt s.observable).map State.observable = (padgetDecrypt s).map State.observable := by
  have hb : s.ph.inBlock = true := by simp [h]
  have hk : s.observable.blk = s.blk := by simp [hb]
  simp only [padgetDecrypt, hk, blockLen_observable hb, memReadPad_eq, observable_padRdAcks, padBytes_observable ho,
    afterReadPad_observable _ _ _ ho]
  cases s.blockLen s.blk with
  | none => rfl
  | some n =>
    dsimp only
    cases s.padRdAcks.use with
    | none => rfl
    | some a =>
      dsimp only [Option.map_some]
      split
      · exact congrArg Move.to (raise_observable _ _)
      · exact congrArg Move.to (goto_loadPadw_observable _ h (by simp))

theorem padput_observable {s : State} (ho : s.op = .encrypt) (h : s.ph = .padput) :
    (padput s.observable).map State.observable = (padput s).map State.observable := by
  have hb : s.ph.inBlock = true := by simp [h]
  have hk : s.observable.blk = s.blk := by simp [hb]
  have hw : s.observable.padw = s.padw := by simp [h]
  simp only [padput, hk, hw, blockLen_observable hb, memWritePad_eq, observable_padWrAcks,
    afterWritePad_observable _ _ _ ho]
  cases s.blockLen s.blk with
  | none => rfl
  | some n =>
    dsimp only
    cases lanes s.padw n with
    | none => rfl
    | some v =>
      dsimp only
      cases s.padWrAcks.use with
      | none => rfl
      | some a =>
        dsimp only [Option.map_some, map_to]
        congr 1
        ext1 <;> simp [h]

theorem dataget_observable {s : State} (h : s.ph = .dataget) :
    (dataget s.observable).map State.observable = (dataget s).map State.observable := by
  have hb : s.ph.inBlock = true := by simp [h]
  have hk : s.observable.blk = s.blk := by simp [hb]
  simp only [dataget, hk, blockLen_observable hb, memReadIn_eq, observable_inAcks, afterReadIn_observable]
  cases s.blockLen s.blk with
  | none => rfl
  | some n =>
    dsimp only
    cases s.inAcks.use with
    | none => rfl
    | some a =>
      have hi : s.observable.inBytes n = s.inBytes n := rfl
      simp only [Option.map_some, hi]
      split
      · exact congrArg Move.to (raise_observable _ _)
      · refine congrArg Move.to ?_
        ext1 <;> simp [h]

theorem nextBlock_observable {s : State} (h : s.ph.inBlock = true) :
    (nextBlock s.observable).observable = (nextBlock s).observable := by
  have hk : s.observable.blk = s.blk := by simp [h]
  have hp : (goto .padget (bumpBlk s.observable)).observable = (goto .padget (bumpBlk s)).observable := by
    ext1 <;> simp [h]
  have hf : (finishOk (bumpBlk s.observable)).observable = (finishOk (bumpBlk s)).observable := by ext1 <;> simp
  simp only [nextBlock, hk, more_observable h, apply_ite State.observable, hp, hf]

theorem dataput_observable {s : State} (h : s.ph = .dataput) :
    (dataput s.observable).map State.observable = (dataput s).map State.observable := by
  have hb : s.ph.inBlock = true := by simp [h]
  have hk : s.observable.blk = s.blk := by simp [hb]
  have hw : s.observable.padw = s.padw := by simp [h]
  have hf : s.observable.buf = s.buf := by simp [h]
  simp only [dataput, hk, hw, hf, blockLen_observable hb, memWriteOut_eq, observable_outAcks, afterWriteOut_observable]
  cases s.blockLen s.blk with
  | none => rfl
  | some n =>
    dsimp only
    cases xdp s.buf s.padw n with
    | none => rfl
    | some x =>
      dsimp only
      cases s.outAcks.use with
      | none => rfl
      | some a => exact congrArg Move.to (nextBlock_observable hb)

/-- A transition is a function of the observable state (R23). -/
theorem advance_observable (s : State) :
    (advance s.observable).map State.observable = (advance s).map State.observable := by
  cases hp : s.ph with
  | idle => rw [advance_idle hp, advance_idle (s := s.observable) hp]
  | done => rw [advance_done hp, advance_done (s := s.observable) hp]
  | split =>
    rw [advance_split hp, advance_split (s := s.observable) hp]
    exact congrArg Move.to (split_observable s)
  | dataget =>
    rw [advance_dataget hp, advance_dataget (s := s.observable) hp]
    exact dataget_observable hp
  | dataput =>
    rw [advance_dataput hp, advance_dataput (s := s.observable) hp]
    exact dataput_observable hp
  | validate =>
    cases ho : s.op with
    | encrypt =>
      rw [advance_validate_encrypt ho hp, advance_validate_encrypt (s := s.observable) ho hp]
      exact congrArg Move.to (validateEncrypt_observable s)
    | decrypt =>
      rw [advance_validate_decrypt ho hp, advance_validate_decrypt (s := s.observable) ho hp]
      exact congrArg Move.to (validateDecrypt_observable ho)
  | padget =>
    cases ho : s.op with
    | encrypt =>
      rw [advance_padget_encrypt ho hp, advance_padget_encrypt (s := s.observable) ho hp]
      exact padgetEncrypt_observable hp
    | decrypt =>
      rw [advance_padget_decrypt ho hp, advance_padget_decrypt (s := s.observable) ho hp]
      exact padgetDecrypt_observable ho hp
  | padput =>
    cases ho : s.op with
    | encrypt =>
      rw [advance_padput ho hp, advance_padput (s := s.observable) ho hp]
      exact padput_observable ho hp
    | decrypt => simp [advance, advanceDecrypt, ho, hp, Move.map]

/-! ## Two runs -/

theorem advance_map_congr {s s' : State} (h : s'.observable = s.observable) :
    (advance s').map State.observable = (advance s).map State.observable := by
  rw [← advance_observable s', h, advance_observable s]

theorem advance_stays_congr {s s' : State} (h : s'.observable = s.observable) (hs : advance s = .stays) :
    advance s' = .stays := by
  have hm := advance_map_congr h
  rw [hs] at hm
  cases ha : advance s' <;> rw [ha] at hm <;> cases hm

theorem advance_to_congr {s s' t : State} (h : s'.observable = s.observable) (hs : advance s = .to t) :
    ∃ t', advance s' = .to t' ∧ t'.observable = t.observable := by
  have hm := advance_map_congr h
  rw [hs] at hm
  rcases ha : advance s' with t' | _ | f <;> rw [ha] at hm
  · exact ⟨t', rfl, by simpa [map_to] using hm⟩
  · cases hm
  · cases hm

/-- Runs of equal length from one observable state end in one observable state. -/
theorem advanceN_congr {k : Nat} {s s' t : State} (h : s'.observable = s.observable) (hs : advanceN k s = some t) :
    ∃ t', advanceN k s' = some t' ∧ t'.observable = t.observable := by
  induction k generalizing s s' with
  | zero =>
    simp only [advanceN, Option.some.injEq] at hs ⊢
    exact ⟨s', rfl, hs ▸ h⟩
  | succ k ih =>
    simp only [advanceN] at hs
    split at hs
    · next u hu =>
      obtain ⟨u', hu', ho⟩ := advance_to_congr h hu
      rw [advanceN_succ hu']
      exact ih ho hs
    · cases hs

/-- What a command answers is reached by transitions from its acceptance, and there the block has none left (R95). -/
theorem exec_ready_advanceN {i : Instr} {s t : State} (hr : s.ready = true) (h : exec i s = .next t) :
    ∃ k, advanceN k (accept i s) = some t ∧ advance t = .stays := by
  obtain ⟨k, u, hk, hu, -⟩ := exists_stays (accept_consistent i s)
  rw [exec_eq hr hk hu] at h
  cases h
  exact ⟨k, hk, hu⟩

/-- What a command does from its acceptance on depends on the observable state alone (R23). -/
theorem exec_congr {i : Instr} {s s' t : State} (hr : s.ready = true) (hr' : s'.ready = true)
    (ha : (accept i s').observable = (accept i s).observable) (h : exec i s = .next t) :
    ∃ t', exec i s' = .next t' ∧ t'.observable = t.observable := by
  obtain ⟨k, hk, hst⟩ := exec_ready_advanceN hr h
  obtain ⟨t', hk', ho⟩ := advanceN_congr ha hk
  exact ⟨t', exec_eq hr' hk' (advance_stays_congr ho hst), ho⟩

/-- Acceptance leaves nothing observable of an earlier operation but the environment (R83). -/
theorem accept_observable_congr (i : Instr) {s s' : State} (hl : s'.lenw = s.lenw) (hi : s'.inContent = s.inContent)
    (hp : s'.padContent = s.padContent) (ha : s'.psAnswers = s.psAnswers) (h1 : s'.inAcks = s.inAcks)
    (h2 : s'.padRdAcks = s.padRdAcks) (h3 : s'.padWrAcks = s.padWrAcks) (h4 : s'.outAcks = s.outAcks) :
    (accept i s').observable = (accept i s).observable := by
  cases i <;> ext1 <;> simp [accept, hl, hi, hp, ha, h1, h2, h3, h4]

/-- Settles O41: acceptance from either state gives one observable state, every transition is a function of it, and
what the statement compares is observable. -/
theorem nothingPersistsAcrossOperations : Obligations.NothingPersistsAcrossOperations := by
  intro i s s' t hr hr' hl hi hp ha h1 h2 h3 h4 h
  obtain ⟨t', ht', ho⟩ := exec_congr ((ready_iff s).2 hr) ((ready_iff s').2 hr')
    (accept_observable_congr i hl hi hp ha h1 h2 h3 h4) h
  have hop : t'.op = t.op := by simpa using congrArg State.op ho
  have hph : t'.ph = t.ph := by simpa using congrArg State.ph ho
  refine ⟨t', ht', hph, fun hd => ?_, by simpa using congrArg State.outWritten ho,
    by simpa using congrArg State.inRc ho, by simpa using congrArg State.psAnswers ho,
    by simpa using congrArg State.history ho, fun he => ?_, fun he => ?_⟩
  · simpa [hph, hd] using congrArg State.status ho
  · simpa [hop, he] using congrArg State.padWritten ho
  · simpa [hop, he] using congrArg State.padRc ho

end Sys2Proof.Machine

/-! PROOFS. The streams as byte sequences: the lane order of a pad word, the address spaces, and the event history of a
tick and of a successful command (R30, R36, R40, R41, R103, R111). -/

namespace Sys2Proof.Machine

/-! ## Words and address spaces -/

/-- Eight bytes are the lanes of the word assembled from them (R36). -/
theorem bytes8_word8 {b : List Byte} (h : b.length = 8) : bytes8 (word8 b) = b := by
  have ht := bytes8_word8_take b h.le
  rwa [List.take_of_length_le (by rw [bytes8_length, h])] at ht

/-- Settles O8: the lanes of a word, and the two inverse laws. -/
theorem padWordsAreLittleEndian : Obligations.PadWordsAreLittleEndian :=
  ⟨bytes8_get, fun w => ⟨bytes8_length w, word8_bytes8 w⟩, fun _ => bytes8_word8⟩

/-- The cells of a byte sequence are its bytes, each paired with its index. -/
theorem cellsFrom_eq_map_zipIdx (off : Nat) (bs : List Byte) : cellsFrom off bs = (bs.zipIdx off).map Prod.swap := by
  induction bs generalizing off with
  | nil => rfl
  | cons b bs ih => simp [cellsFrom, ih]

theorem mem_cellsFrom_zero (bs : List Byte) (off : Nat) (b : Byte) :
    (off, b) ∈ cellsFrom 0 bs ↔ bs[off]? = some b := by
  rw [cellsFrom_eq_map_zipIdx, ← List.mk_mem_zipIdx_iff_getElem?]
  exact List.mem_map_of_injective Prod.swap_injective (a := (b, off))

/-- Settles O28: the space of a stream is its cells from offset 0 on. -/
theorem spacesListTheStreams : Obligations.SpacesListTheStreams :=
  fun s S => ⟨space_wf s S, mem_cellsFrom_zero (s.stream S)⟩

/-! ## The events of a tick -/

theorem transactions_single_le_one (e : Event) : transactions [e] ≤ 1 := List.countP_le_length

/-- The end of an operation is no transaction (R41). -/
theorem transactions_then_finish_le_one (e : Event) (v : Status) : transactions ([e] ++ [.finish v]) ≤ 1 := by
  rw [transactions_append]
  exact transactions_single_le_one e

/-- A transition of R90 records its one transaction, or none, and after it the end of the operation, if it ends. -/
theorem transition_history {s t : State} (h : Transition s t) :
    ∃ es, t.history = s.history ++ es ∧ transactions es ≤ 1 := by
  cases h with
  | gatePasses | splits => exact ⟨[], (List.append_nil _).symm, Nat.zero_le _⟩
  | gateFails | draws | padRead | padWrite | dataRead | dataWrite => exact ⟨_, rfl, transactions_single_le_one _⟩
  | drawFails | padShort | dataShort | lastWrite =>
    exact ⟨_, List.append_assoc _ _ _, transactions_then_finish_le_one _ _⟩

/-- Settles O25: a tick that waits records nothing, and a transition at most one transaction. -/
theorem oneTransactionAtATime : Obligations.OneTransactionAtATime := by
  intro s t rest hi hb h
  obtain ⟨u, rfl | ht, rfl⟩ := step_tick_busy_cases hi hb h
  · exact ⟨[], (List.append_nil _).symm, Nat.zero_le _⟩
  · exact transition_history (t := u) ht

/-! ## A successful command, to its end -/

/-- A successful `ENCRYPT` stands at the top of its last block, and that block takes it to `DONE` (R103, R104). -/
theorem exec_encrypt_ok {s : State} {n : Nat} {ws : List Word64} {more : List PsAnswer} (hr : s.ready = true)
    (ha : s.Acked) (h1 : 1 ≤ n) (hmax : (n : Int) ≤ maxlen s.lenw) (hin : n ≤ s.inContent.length)
    (hws : ws.length = totalBlocks n) (hps : s.psAnswers = oks ws ++ more) :
    ∃ t, exec (.encrypt n) s = .next t ∧ t.ph = .done ∧ t.status = .ok ∧ t.inRc = n ∧
      t.padWritten = (padOf ws).take n ∧ t.outWritten = xorBytes (s.inContent.take n) ((padOf ws).take n) ∧
      t.psAnswers = more ∧
      t.history = [.start .encrypt, .sizeQ .IN n] ++ encryptEvents s.inContent n 0 ws ++ [.finish .ok] := by
  rw [totalBlocks_eq] at hws
  cases ws using List.reverseRecOn with
  | nil => simp only [List.length_nil] at hws; omega
  | append_singleton ws w =>
    simp only [List.length_append, List.length_singleton] at hws
    obtain ⟨k, t, hk, ht⟩ := encrypt_tops h1 hmax ha ws (.ok w :: more) (by simpa [oks] using hps) (by omega) (by omega)
    obtain ⟨u, hu, ⟨hlt, -⟩ | ⟨-, hd, hend⟩⟩ := encrypt_block ht (by omega) (by omega)
    · omega
    · exact ⟨u, exec_eq (i := .encrypt n) hr ((advanceN_add hk).trans hu) (advance_done hd), hd, hend⟩

/-- A successful `DECRYPT` stands at the top of its last block, and that block takes it to `DONE` (R111, R114). -/
theorem exec_decrypt_ok {s : State} {n : Nat} (hr : s.ready = true) (ha : s.Acked) (h1 : 1 ≤ n)
    (hmax : (n : Int) ≤ maxlen s.lenw) (hin : n ≤ s.inContent.length) (hpad : n ≤ s.padContent.length) :
    ∃ t, exec (.decrypt n n) s = .next t ∧ t.ph = .done ∧ t.status = .ok ∧ t.inRc = n ∧ t.padRc = n ∧
      t.outWritten = xorBytes (s.inContent.take n) (s.padContent.take n) ∧
      t.history = [.start .decrypt, .sizeQ .IN n, .sizeQ .PAD n] ++
        decryptEvents s.inContent s.padContent n (totalBlocks n) ++ [.finish .ok] := by
  obtain ⟨i, hi⟩ : ∃ i, totalBlocks n = i + 1 := Nat.exists_eq_succ_of_ne_zero (by rw [totalBlocks_eq]; omega)
  rw [hi]
  rw [totalBlocks_eq] at hi
  obtain ⟨k, t, hk, ht⟩ := decrypt_tops h1 hmax ha i (by omega) (by omega) (by omega)
  obtain ⟨u, hu, ⟨hlt, -⟩ | ⟨-, hd, hend⟩⟩ := decrypt_block ht (by omega) (by omega) (by omega)
  · omega
  · exact ⟨u, exec_eq (i := .decrypt n n) hr ((advanceN_add hk).trans hu) (advance_done hd), hd, hend⟩

/-- Settles O43: the history at the end of the last block, which holds four transactions a block. -/
theorem encryptEventsInOrder : Obligations.EncryptEventsInOrder := by
  intro s n ws more hr ha h1 hmax hin hws hps
  obtain ⟨t, ht, -, -, -, -, -, -, hh⟩ := exec_encrypt_ok ((ready_iff s).2 hr) ha h1 hmax hin hws hps
  refine ⟨t, ht, hh, ?_⟩
  simp [hh, encryptEvents_transactions, hws, Event.isTransaction]

/-- Settles O50: the history at the end of the last block, which holds three transactions a block. -/
theorem decryptEventsInOrder : Obligations.DecryptEventsInOrder := by
  intro s n hr ha h1 hmax hin hpad
  obtain ⟨t, ht, -, -, -, -, -, hh⟩ := exec_decrypt_ok ((ready_iff s).2 hr) ha h1 hmax hin hpad
  refine ⟨t, ht, hh, ?_⟩
  simp [hh, decryptEvents_transactions, Event.isTransaction]

end Sys2Proof.Machine

/-! PROOFS. The encodings (R50 to R53, R55, R58): what is read from the pins of a command, the value of a size operand,
the bytes of a transfer, and the result codes. -/

namespace Sys2Proof

/-! ## The command pins -/

/-- All that can be read from the pins (R51, R58): `cmd_op` picks the command, and each size operand it has must be a
`LENW`-bit pattern. -/
theorem decode_eq_ok_iff (lenw : Nat) (c : CmdWord) (i : Instr) :
    decode lenw c = .ok i ↔
      c.inSize < 2 ^ lenw ∧
        (c.cmdOp = 0#1 ∧ i = .encrypt (sizeOfBits lenw c.inSize) ∨
          c.cmdOp = 1#1 ∧ c.padSize < 2 ^ lenw ∧
            i = .decrypt (sizeOfBits lenw c.inSize) (sizeOfBits lenw c.padSize)) := by
  unfold decode
  by_cases hin : c.inSize < 2 ^ lenw
  · rcases BitVec.eq_zero_or_eq_one c.cmdOp with hop | hop
    · simp [hin, hop, eq_comm]
    · by_cases hpad : c.padSize < 2 ^ lenw <;> simp [hin, hop, hpad, eq_comm]
  · simp [hin]

/-- What `ENCRYPT` is read from: `in_size` alone (R58). -/
theorem decode_encrypt_pins (lenw z p : Nat) :
    decode lenw ⟨0#1, z, p⟩ =
      if z < 2 ^ lenw then .ok (.encrypt (sizeOfBits lenw z)) else .error .inSizeTooWide := by
  simp [decode]

/-- Settles O1: the encoder drives patterns of `LENW` bits, and each is the pattern of its size. -/
theorem decodeEncodeAgree : Obligations.DecodeEncodeAgree := by
  intro lenw i hl hwf
  rw [decode_eq_ok_iff]
  cases i with
  | encrypt n => exact ⟨bitsOfSize_lt _ _, .inl ⟨rfl, by rw [encode, sizeOfBits_bitsOfSize lenw n hl hwf]⟩⟩
  | decrypt n m =>
    obtain ⟨hn, hm⟩ := (Bool.and_eq_true _ _).mp hwf
    refine ⟨bitsOfSize_lt _ _, .inr ⟨rfl, bitsOfSize_lt _ _, ?_⟩⟩
    rw [encode, sizeOfBits_bitsOfSize lenw n hl hn, sizeOfBits_bitsOfSize lenw m hl hm]

/-- Settles O2: a `LENW`-bit pattern is the pattern of its value. -/
theorem encodeDecodeAgree : Obligations.EncodeDecodeAgree := by
  intro lenw c i _ h
  refine ⟨Machine.decode_wf h, ?_⟩
  obtain ⟨op, z, p⟩ := c
  obtain ⟨hz, ⟨rfl, rfl⟩ | ⟨rfl, hp, rfl⟩⟩ := (decode_eq_ok_iff lenw _ i).1 h
  · simp [encode, bitsOfSize_sizeOfBits lenw z hz]
  · simp [encode, bitsOfSize_sizeOfBits lenw z hz, bitsOfSize_sizeOfBits lenw p hp]

/-- Settles O3: by what can be read, for each of the two values of `cmd_op`. -/
theorem decodeRefusesOnlyOverwide : Obligations.DecodeRefusesOnlyOverwide := by
  intro lenw c
  simp only [decode_eq_ok_iff]
  rcases BitVec.eq_zero_or_eq_one c.cmdOp with hop | hop <;> simp [hop]

/-- Settles O4: an `ENCRYPT` is read from `in_size` alone. -/
theorem encryptIgnoresPadSizePins : Obligations.EncryptIgnoresPadSizePins := by
  intro lenw z p q
  rw [decode_encrypt_pins, decode_encrypt_pins]

/-- Settles O5: each of the six words is evaluated. -/
theorem specCommandWordsDecode : Obligations.SpecCommandWordsDecode := by
  unfold Obligations.SpecCommandWordsDecode
  decide

/-! ## The value of a size operand -/

/-- The top bit of a pattern counts `-2^(LENW-1)` and the rest counts as it is (R53). -/
theorem sizeOfBits_eq {lenw z : Nat} (hl : 0 < lenw) (hz : z < 2 ^ lenw) :
    sizeOfBits lenw z =
      -(2 : Int) ^ (lenw - 1) * ((z / 2 ^ (lenw - 1) : Nat) : Int) + ((z % 2 ^ (lenw - 1) : Nat) : Int) := by
  obtain ⟨k, rfl⟩ := Nat.exists_eq_add_one.2 hl
  have hcast : (2 : Int) ^ k = ((2 ^ k : Nat) : Int) := (Nat.cast_pow 2 k).symm
  rw [sizeOfBits, BitVec.toInt_eq_toNat_cond, BitVec.toNat_ofNat, Nat.mod_eq_of_lt hz, Nat.add_sub_cancel, hcast]
  rw [pow_succ] at hz ⊢
  generalize 2 ^ k = half at *
  rcases Nat.lt_or_ge z half with hlow | hhigh
  · rw [if_pos (by omega), Nat.div_eq_of_lt hlow, Nat.mod_eq_of_lt hlow]
    simp
  · have hdiv : z / half = 1 := Nat.div_eq_of_lt_le (by omega) (by omega)
    have hmod : z % half = z - half := by rw [Nat.mod_eq_sub_mod hhigh, Nat.mod_eq_of_lt (by omega)]
    rw [if_neg (by omega), hdiv, hmod]
    omega

/-- Settles O6: the value by its top bit, and the range by `sizeFits_sizeOfBits`. -/
theorem sizeOperandIsTwosComplement : Obligations.SizeOperandIsTwosComplement := by
  intro lenw z hl hz
  have hl' : 5 ≤ lenw := hl
  exact ⟨sizeOfBits_eq (by omega) hz, sizeFits_sizeOfBits lenw z⟩

/-! ## Transfers and result codes -/

namespace Machine

/-- Settles O11: the bytes, their count and the filler, each by its law. -/
theorem transferCarriesBytes : Obligations.TransferCarriesBytes :=
  fun b hb => ⟨ofBytes_bytes hb, ofBytes_n hb, fun _ => ofBytes_lane_of_ge b⟩

/-- No result has a code from 5 to 7 (R52). -/
theorem Status.code_lt_five (v : Status) : v.code.toNat < 5 := by
  rcases v with _ | (_ | _ | _ | _) <;> decide

/-- Settles O7: the five codes, and the port is the code of `STATUS`. -/
theorem statusCodesAreTheTable : Obligations.StatusCodesAreTheTable :=
  ⟨rfl, rfl, rfl, rfl, rfl, fun s => ⟨rfl, s.status.code_lt_five⟩⟩

end Machine

end Sys2Proof

/-! PROOFS. The pad-word multiplexer (R68 to R70, R77, R123, R124): what `PADGET` loads in each operation, and that the
lanes of `PADW` at or above `N` reach nothing. -/

namespace Sys2Proof.Machine

/-! ## A tick that takes a transition -/

theorem step_tick_to {s t : State} {rest : List Input} (hi : s.inputs = .tick :: rest) (ha : advance s = .to t) :
    step s = .next (setInputs rest t) := by
  have hb : s.busy = true := by
    cases hr : s.ready with
    | false => simp [State.busy, hr]
    | true => rw [advance_ready hr] at ha; cases ha
  rw [step_tick_busy hi hb, ha]

/-! ## `PADGET` -/

/-- A draw takes the first answer and records it (R65). -/
theorem afterDraw_eq {s : State} {d : PsAnswer} {l : List PsAnswer} (h : s.psAnswers = d :: l) :
    afterDraw d s = { s with psAnswers := l, history := s.history ++ [.draw d] } := by
  simp only [afterDraw, consumeAnswer, h]
  rfl

/-- Settles O17: the first answer decides the case of `padgetEncrypt_cases`. -/
theorem encryptPadgetDraws : Obligations.EncryptPadgetDraws := by
  intro s rest l hi ho hp
  have hstep {u : State} (hm : padgetEncrypt s = .to u) : step s = .next (setInputs rest u) :=
    step_tick_to hi ((advance_padget_encrypt ho hp).trans hm)
  refine ⟨fun w hans => ?_, fun hans => ?_⟩
  · rcases padgetEncrypt_cases s with ⟨h, -⟩ | ⟨_, h, -⟩ | ⟨_, _, h, hm⟩ <;> rw [hans] at h <;> cases h
    rw [hstep hm, afterDraw_eq hans]
    rfl
  · rcases padgetEncrypt_cases s with ⟨h, -⟩ | ⟨_, h, hm⟩ | ⟨_, _, h, -⟩ <;> rw [hans] at h <;> cases h
    rw [hstep hm, afterDraw_eq hans]
    rfl

/-- Settles O18: the length of what the read yields decides the case of `padgetDecrypt_cases`. -/
theorem decryptPadgetReadsPad : Obligations.DecryptPadgetReadsPad := by
  rintro s rest n a p hi ho hp hn ha rfl
  change ((s.padBytes n).length = n → _) ∧ ((s.padBytes n).length < n → _)
  have hstep {u : State} (hm : padgetDecrypt s = .to u) : step s = .next (setInputs rest u) :=
    step_tick_to hi ((advance_padget_decrypt ho hp).trans hm)
  rcases padgetDecrypt_cases hn with ⟨h, -⟩ | ⟨_, h, hread⟩ <;> rw [ha] at h <;> cases h
  rcases hread with ⟨hlt, hm⟩ | ⟨hlen, hm⟩
  · exact ⟨fun hlen => absurd hlen hlt.ne, fun _ => hstep hm⟩
  · refine ⟨fun _ => ?_, fun hlt => absurd hlen hlt.ne⟩
    rw [hstep hm, afterReadPad, consumePad, hlen]
    rfl

/-! ## The lanes of the pad word at or above `N` -/

/-- `t` with `v` in `PADW`, unless its operation has ended: what `PADW` holds then is a free value, whatever it held
before (R94, U9). -/
def replacePadw (v : List Byte) (t : State) : State := if t.ph = .done then t else loadPadw v t

theorem replacePadw_running (v : List Byte) {t : State} (h : t.ph ≠ .done) : replacePadw v t = loadPadw v t := if_neg h

theorem replacePadw_setInputs (v : List Byte) (rest : List Input) (t : State) :
    replacePadw v (setInputs rest t) = setInputs rest (replacePadw v t) :=
  (apply_ite (setInputs rest) (t.ph = .done) t (loadPadw v t)).symm

/-- Two pad words that agree below lane `n`, and hold values there, are the same to whoever takes `n` lanes (R69). -/
theorem lanes_congr {v p : List Byte} {n : Nat} (h : v.take n = p.take n) (hv : n ≤ v.length) (hp : n ≤ p.length) :
    lanes v n = lanes p n := by rw [lanes_of_le v n hv, lanes_of_le p n hp, h]

theorem xdp_congr_padw {v p : List Byte} {n : Nat} (h : lanes v n = lanes p n) (b : List Byte) :
    xdp b v n = xdp b p n := by simp only [xdp, h]

@[simp] theorem blockLen_loadPadw (v : List Byte) (s : State) (b : Nat) :
    (loadPadw v s).blockLen b = s.blockLen b := rfl

@[simp] theorem more_loadPadw (v : List Byte) (s : State) (b : Nat) : (loadPadw v s).more b = s.more b := rfl

@[simp] theorem inBytes_loadPadw (v : List Byte) (s : State) (n : Nat) : (loadPadw v s).inBytes n = s.inBytes n := rfl

/-- `PADPUT` writes the lanes below `N` alone (R102). -/
theorem padput_loadPadw {s : State} {n : Nat} {v : List Byte} (hn : s.blockLen s.blk = some n)
    (hl : lanes v n = lanes s.padw n) : padput (loadPadw v s) = (padput s).map (replacePadw v) := by
  simp only [padput, blockLen_loadPadw, loadPadw_blk, hn, loadPadw_padw, hl, memWritePad_eq, loadPadw_padWrAcks]
  cases lanes s.padw n with
  | none => rfl
  | some x => cases s.padWrAcks.use <;> rfl

/-- `DATAGET` does not look at `PADW` (R92). -/
theorem dataget_loadPadw (v : List Byte) (s : State) : dataget (loadPadw v s) = (dataget s).map (replacePadw v) := by
  simp only [dataget, blockLen_loadPadw, loadPadw_blk, memReadIn_eq, loadPadw_inAcks, inBytes_loadPadw]
  cases s.blockLen s.blk with
  | none => rfl
  | some n =>
    cases s.inAcks.use with
    | none => rfl
    | some a =>
      simp only [Option.map_some, apply_ite (Move.map (replacePadw v)), map_to]
      rfl

/-- The operation's last block ends it, and any other block leaves `PADW` as it is (R93, R94). -/
theorem nextBlock_loadPadw (v : List Byte) (s : State) :
    nextBlock (loadPadw v s) = replacePadw v (nextBlock s) := by
  simp only [nextBlock, more_loadPadw, loadPadw_blk, apply_ite (replacePadw v)]
  rfl

/-- `DATAPUT` takes the lanes below `N` alone (R75, R77). -/
theorem dataput_loadPadw {s : State} {n : Nat} {v : List Byte} (hn : s.blockLen s.blk = some n)
    (hl : lanes v n = lanes s.padw n) : dataput (loadPadw v s) = (dataput s).map (replacePadw v) := by
  simp only [dataput, blockLen_loadPadw, loadPadw_blk, hn, loadPadw_padw, loadPadw_buf, xdp_congr_padw hl,
    memWriteOut_eq, loadPadw_outAcks]
  cases xdp s.buf s.padw n with
  | none => rfl
  | some x =>
    cases s.outAcks.use with
    | none => rfl
    | some a => exact congrArg Move.to (nextBlock_loadPadw v (afterWriteOut (blockOff s.blk) x a s))

/-- In the phases that hold a pad word, a transition sees the lanes below `N` alone (R69, R70). -/
theorem advance_loadPadw {s : State} {n : Nat} {v : List Byte} (hn : s.blockLen s.blk = some n)
    (hp : s.ph = .padput ∨ s.ph = .dataget ∨ s.ph = .dataput) (hl : lanes v n = lanes s.padw n) :
    advance (loadPadw v s) = (advance s).map (replacePadw v) := by
  rcases hp with hp | hp | hp
  · cases ho : s.op with
    | encrypt => rw [advance_padput (s := loadPadw v s) ho hp, advance_padput ho hp, padput_loadPadw hn hl]
    | decrypt => simp [advance, ho, advanceDecrypt, hp, Move.map]
  · rw [advance_dataget (s := loadPadw v s) hp, advance_dataget hp, dataget_loadPadw]
  · rw [advance_dataput (s := loadPadw v s) hp, advance_dataput hp, dataput_loadPadw hn hl]

theorem step_tick_loadPadw {s t : State} {rest : List Input} {v : List Byte} (hi : s.inputs = .tick :: rest)
    (hb : s.busy = true) (ha : advance (loadPadw v s) = (advance s).map (replacePadw v)) (h : step s = .next t) :
    step (loadPadw v s) = .next (replacePadw v t) := by
  rw [step_tick_busy hi hb] at h
  rw [step_tick_busy (s := loadPadw v s) hi hb, ha]
  cases hm : advance s <;> rw [hm] at h <;> cases h
  · simp only [Move.map, replacePadw_setInputs]
  · exact congrArg Host.Outcome.next (replacePadw_running v (t := setInputs rest s) ((busy_iff s).1 hb).2).symm

/-- Settles O27: the tick by `advance_loadPadw`, each write port by the lanes it carries. -/
theorem droppedLanesReachNothing : Obligations.DroppedLanesReachNothing := by
  intro s t rest n v hi hn hp hlen htake hv h
  have hl : lanes v n = lanes s.padw n := lanes_congr htake hv hlen
  have hb : s.busy = true := (busy_iff s).2 (by rcases hp with h | h | h <;> simp [h])
  refine ⟨step_tick_loadPadw hi hb (advance_loadPadw hn hp hl) h, ?_, ?_⟩
  · simp only [State.outWritePort, State.requestIn, loadPadw_ph, loadPadw_blk, loadPadw_buf, loadPadw_padw,
      blockLen_loadPadw, hn, Option.bind_some, xdp_congr_padw hl]
  · simp only [State.padWritePort, State.requestIn, loadPadw_op, loadPadw_ph, loadPadw_blk, loadPadw_padw,
      blockLen_loadPadw, hn, Option.bind_some, hl]

end Sys2Proof.Machine

/-! PROOFS. The XOR datapath (R75, R76): the laws of exclusive or on byte sequences and on words, and what the datapath
puts in each lane. -/

namespace Sys2Proof.Machine

/-! ## The laws of exclusive or on byte sequences -/

theorem getElem?_xorBytes {a b : List Byte} {k : Nat} {x y : Byte} (ha : a[k]? = some x) (hb : b[k]? = some y) :
    (xorBytes a b)[k]? = some (x ^^^ y) := by
  rw [xorBytes, List.getElem?_zipWith, ha, hb]

theorem xorBytes_comm (a b : List Byte) : xorBytes a b = xorBytes b a :=
  List.zipWith_comm_of_comm BitVec.xor_comm

theorem xorBytes_assoc (a b c : List Byte) : xorBytes (xorBytes a b) c = xorBytes a (xorBytes b c) := by
  induction a generalizing b c with
  | nil => rfl
  | cons x a ih =>
    rcases b with _ | ⟨y, b⟩
    · rfl
    · rcases c with _ | ⟨z, c⟩
      · rfl
      · exact congrArg₂ List.cons (BitVec.xor_assoc x y z) (ih b c)

/-- Against one repeated byte, the sequence is mapped byte by byte. -/
theorem xorBytes_replicate (a : List Byte) (v : Byte) :
    xorBytes a (List.replicate a.length v) = a.map (fun x => x ^^^ v) := by
  rw [← List.map_const', xorBytes, List.zipWith_map_right, List.zipWith_self]

theorem xorBytes_zeros (a : List Byte) : xorBytes a (List.replicate a.length 0x00#8) = a := by
  simp [xorBytes_replicate]

theorem xorBytes_ones (a : List Byte) : xorBytes a (List.replicate a.length 0xFF#8) = a.map (fun x => ~~~x) := by
  rw [xorBytes_replicate]
  exact List.map_congr_left fun x _ => BitVec.xor_allOnes

theorem xorBytes_self (a : List Byte) : xorBytes a a = List.replicate a.length 0x00#8 := by
  simp [xorBytes, List.zipWith_self, List.map_const']

/-! ## Words -/

theorem lane_xor (a b : Word64) (k : Nat) : lane (a ^^^ b) k = lane a k ^^^ lane b k := BitVec.extractLsb'_xor

/-- Exclusive or of words is lane by lane: no carry goes from one lane to another (R76). -/
theorem bytes8_xor (a b : Word64) : bytes8 (a ^^^ b) = xorBytes (bytes8 a) (bytes8 b) := by
  simp only [bytes8, lane_xor]
  rfl

/-- Settles O9: the laws on sequences above, the library's on words, and `bytes8_xor` between the two. -/
theorem xorLaws : Obligations.XorLaws :=
  ⟨fun a b c hab _ => ⟨xorBytes_cancel a b hab.le, xorBytes_comm a b, xorBytes_assoc a b c, xorBytes_zeros a,
      xorBytes_ones a, xorBytes_self a⟩,
    fun a b c => ⟨by rw [BitVec.xor_assoc, BitVec.xor_self, BitVec.xor_zero], BitVec.xor_comm a b,
      BitVec.xor_assoc a b c, BitVec.xor_zero, BitVec.xor_allOnes, BitVec.xor_self, bytes8_xor a b⟩⟩

/-! ## The datapath -/

/-- Below `N`, lane `k` of the output is the exclusive or of lanes `k` of the two registers (R75). -/
theorem xdp_lane {b p x : List Byte} {n k : Nat} (h : xdp b p n = some x) (hk : k < n) :
    ∃ u v, b[k]? = some u ∧ p[k]? = some v ∧ x[k]? = some (u ^^^ v) := by
  obtain ⟨hb, hp, rfl⟩ := (xdp_eq_some b p n x).1 h
  have hu := List.getElem?_eq_getElem (hk.trans_le hb)
  have hv := List.getElem?_eq_getElem (hk.trans_le hp)
  refine ⟨b[k], p[k], hu, hv, getElem?_xorBytes ?_ ?_⟩
  · rw [List.getElem?_take_of_lt hk, hu]
  · rw [List.getElem?_take_of_lt hk, hv]

theorem xdp_length {b p x : List Byte} {n : Nat} (h : xdp b p n = some x) : x.length = n := by
  obtain ⟨hb, hp, rfl⟩ := (xdp_eq_some b p n x).1 h
  simp [hb, hp]

/-- A lane below `N` that holds no value gives no output (R13, D24). -/
theorem xdp_eq_none {b p : List Byte} {n : Nat} (h : b.length < n ∨ p.length < n) : xdp b p n = none := by
  rw [← Option.not_isSome_iff_eq_none, xdp_isSome]
  omega

/-- A register that agrees below lane `n` with one that holds values there holds values there. -/
theorem le_length_of_take_eq {v p : List Byte} {n : Nat} (h : v.take n = p.take n) (hp : n ≤ p.length) :
    n ≤ v.length := by
  have hlen := congrArg List.length h
  rw [List.length_take, List.length_take] at hlen
  omega

/-- The lanes at or above `N` are no inputs (R75, R77). -/
theorem xdp_congr_take {b p b' p' : List Byte} {n : Nat} (hb : b'.take n = b.take n) (hp : p'.take n = p.take n)
    (hbl : n ≤ b.length) (hpl : n ≤ p.length) : xdp b' p' n = xdp b p n := by
  rw [xdp_of_le b' p' n (le_length_of_take_eq hb hbl) (le_length_of_take_eq hp hpl), xdp_of_le b p n hbl hpl, hb, hp]

/-- Settles O10: the output and its lanes, the lane that is not there, and the lanes that are no inputs. -/
theorem datapathIsLaneXor : Obligations.DatapathIsLaneXor := fun b p n =>
  ⟨fun hb hp =>
      have hx := xdp_of_le b p n hb hp
      ⟨_, hx, xdp_length hx, fun _ => xdp_lane hx⟩,
    xdp_eq_none, fun _ _ => xdp_congr_take⟩

end Sys2Proof.Machine

/-! PROOFS. The transactions of R96: `State.Counted` is kept by every transition, so by every step and every run, and it
bounds the event history. -/

namespace Sys2Proof.Machine

/-! ## What every step keeps -/

/-- All that a block running by itself can answer: it stays, or runs on from where it is or from an acceptance. -/
theorem blockRuns_cases {s t : State} (h : blockRuns s = .next t) :
    t = s ∨ resume s = .next t ∨ ∃ i, resume (accept i s) = .next t := by
  unfold blockRuns at h
  split at h
  · next hr =>
    split at h
    · cases h; exact .inl rfl
    · split at h
      · next i _ => exact .inr (.inr ⟨i, exec_ready hr i ▸ h⟩)
      · cases h
  · exact .inr (.inl h)

/-- All that one transition of R90 can answer: it stays, accepts, or goes on with the running operation. -/
theorem blockTicks_cases {s t : State} (h : blockTicks s = .next t) :
    t = s ∨ advance s = .to t ∨ ∃ i, t = accept i s := by
  unfold blockTicks at h
  split at h
  · split at h
    · cases h; exact .inl rfl
    · split at h
      · next i _ => cases h; exact .inr (.inr ⟨i, rfl⟩)
      · cases h
  · split at h
    · next ha => cases h; exact .inr (.inl ha)
    · cases h; exact .inl rfl
    · cases h

/-- The induction over a step, once: what a transition, an acceptance, the outside and a shift of the schedule keep, a
step keeps. -/
theorem step_keeps (P : State → Prop) (hadvance : ∀ s t, P s → advance s = .to t → P t)
    (haccept : ∀ i s, P s → P (accept i s)) (houtside : ∀ i s t, i ≠ .tick → P s → happens i s = .next t → P t)
    (hinputs : ∀ l s, P s → P (setInputs l s)) {s t : State} (hs : P s) (h : step s = .next t) : P t := by
  cases hi : s.inputs with
  | nil =>
    rcases blockRuns_cases (step_nil hi ▸ h) with rfl | h | ⟨i, h⟩
    · exact hs
    · exact resume_keeps P hadvance hs h
    · exact resume_keeps P hadvance (haccept i s hs) h
  | cons i rest =>
    have hrest := hinputs rest s hs
    rw [step_cons hi] at h
    by_cases htick : i = .tick
    · subst htick
      rcases blockTicks_cases h with rfl | h | ⟨i, rfl⟩
      · exact hrest
      · exact hadvance _ _ hrest h
      · exact haccept i _ hrest
    · exact houtside i _ t htick hrest h

/-! ## Transactions of an event and of a block -/

@[simp] theorem isTransaction_start (o : Op) : (Event.start o).isTransaction = false := rfl
@[simp] theorem isTransaction_sizeQ (S : StreamId) (n : Int) : (Event.sizeQ S n).isTransaction = false := rfl
@[simp] theorem isTransaction_draw (a : PsAnswer) : (Event.draw a).isTransaction = true := rfl
@[simp] theorem isTransaction_read (S : StreamId) (off n : Nat) (b : List Byte) :
    (Event.read S off n b).isTransaction = true := rfl
@[simp] theorem isTransaction_write (S : StreamId) (off : Nat) (b : List Byte) :
    (Event.write S off b).isTransaction = true := rfl
@[simp] theorem isTransaction_finish (v : Status) : (Event.finish v).isTransaction = false := rfl

@[simp] theorem perBlock_encrypt : Op.encrypt.perBlock = 4 := rfl
@[simp] theorem perBlock_decrypt : Op.decrypt.perBlock = 3 := rfl

/-- A block has at least three transactions, so those of its earlier phases leave two for the data (R96). -/
theorem perBlock_mul_add_three_le (o : Op) (b : Nat) : o.perBlock * b + 3 ≤ o.perBlock * (b + 1) := by
  rw [Nat.mul_succ]
  cases o <;> simp

/-- The transactions up to the end of an existing block are no more than those of all blocks (R88). -/
theorem perBlock_mul_blk_succ_le {s : State} (hc : s.Consistent) (h : s.ph.inBlock = true) :
    s.op.perBlock * (s.blk + 1) ≤ s.op.perBlock * totalBlocks s.len.toNat :=
  Nat.mul_le_mul_left _ (blk_lt_totalBlocks hc h)

/-- Where no block follows the current one, it is the last of the `T` blocks (R88, R89). -/
theorem totalBlocks_of_last {s : State} (hc : s.Consistent) (h : s.ph.inBlock = true)
    (hm : s.more (s.blk + 1) = false) : totalBlocks s.len.toNat = s.blk + 1 := by
  obtain ⟨-, n, hn, hb⟩ := hc.2.2 h
  have hlt := (inBlock_size hb hn).1
  rw [more_split hb.1 hb.2.1, decide_eq_false_iff_not] at hm
  rw [totalBlocks_eq]
  omega

/-! ## `State.Counted`, phase by phase -/

theorem counted_raise_of_rejection {k : Failure} {s : State} (hk : k = .invalidSize ∨ k = .sizeMismatch)
    (h : transactions s.history = 0) : (raise k s).Counted := by
  rcases hk with rfl | rfl <;> simpa [State.Counted] using h

theorem counted_raise_of_failure {k : Failure} {s : State} (hk : k = .shortRead ∨ k = .entropyUnavailable)
    (h1 : 1 ≤ transactions s.history) (h2 : transactions s.history < s.op.perBlock * totalBlocks s.len.toNat) :
    (raise k s).Counted := by
  rcases hk with rfl | rfl <;> simpa [State.Counted] using ⟨h1, h2⟩

theorem counted_finishOk {s : State} (h : transactions s.history = s.op.perBlock * totalBlocks s.len.toNat) :
    (finishOk s).Counted := by
  simpa [State.Counted] using h

theorem counted_padget {s : State} (h : s.ph = .padget) :
    s.Counted ↔ transactions s.history = s.op.perBlock * s.blk := by simp only [State.Counted, h]

theorem counted_padput {s : State} (h : s.ph = .padput) :
    s.Counted ↔ transactions s.history = s.op.perBlock * s.blk + 1 := by simp only [State.Counted, h]

theorem counted_dataget {s : State} (h : s.ph = .dataget) :
    s.Counted ↔ transactions s.history = s.op.perBlock * (s.blk + 1) - 2 := by simp only [State.Counted, h]

theorem counted_dataput {s : State} (h : s.ph = .dataput) :
    s.Counted ↔ transactions s.history = s.op.perBlock * (s.blk + 1) - 1 := by simp only [State.Counted, h]

theorem counted_accept (i : Instr) (s : State) : (accept i s).Counted := by
  cases i <;> simp [State.Counted, accept]

theorem counted_reset (s : State) : (reset s).Counted := trivial

/-! ## A transition -/

/-- Each row of R90 adds the one transaction of its phase, and the next phase counts one more. -/
theorem transition_keeps_counted {s t : State} (h : Transition s t) (hc : s.Consistent) (hk : s.Counted) :
    t.Counted := by
  have hblock := perBlock_mul_blk_succ_le hc
  have h3 := perBlock_mul_add_three_le s.op s.blk
  cases h with
  | gateFails k hp hf => exact counted_raise_of_rejection hf (by simpa [State.Counted, hp] using hk)
  | gatePasses hp => simpa [State.Counted, hp] using hk
  | splits hp => simpa [State.Counted, hp] using hk
  | drawFails l ho hp =>
    have hT := hblock (by rw [hp]; rfl)
    rw [counted_padget hp] at hk
    rw [ho, perBlock_encrypt] at hk hT
    exact counted_raise_of_failure (.inr rfl) (by simp) (by simp [hk, ho]; omega)
  | draws w l ho hp =>
    rw [counted_padget hp] at hk
    exact (counted_padput rfl).2 (by simp [hk])
  | padShort n a ho hp =>
    have hT := hblock (by rw [hp]; rfl)
    rw [counted_padget hp] at hk
    rw [ho, perBlock_decrypt] at hk hT
    exact counted_raise_of_failure (.inl rfl) (by simp) (by simp [hk, ho]; omega)
  | padRead n a ho hp =>
    rw [counted_padget hp] at hk
    exact (counted_dataget rfl).2 (by simp [hk, ho]; omega)
  | padWrite n a ho hp =>
    rw [counted_padput hp] at hk
    exact (counted_dataget rfl).2 (by simp [hk, ho]; omega)
  | dataShort n a hp =>
    have hT := hblock (by rw [hp]; rfl)
    rw [counted_dataget hp] at hk
    exact counted_raise_of_failure (.inl rfl) (by simp) (by simp [hk]; omega)
  | dataRead n a hp =>
    rw [counted_dataget hp] at hk
    exact (counted_dataput rfl).2 (by simp [hk]; omega)
  | dataWrite n a hp =>
    rw [counted_dataput hp] at hk
    exact (counted_padget rfl).2 (by simp [hk]; omega)
  | lastWrite n a hp _ _ _ _ hm =>
    have hT := totalBlocks_of_last hc (by rw [hp]; rfl) hm
    rw [counted_dataput hp] at hk
    exact counted_finishOk (by simp [hk, hT]; omega)

/-- The count and the consistency it rests on are kept together. -/
def State.CountedRun (s : State) : Prop := s.Consistent ∧ s.Counted

theorem advance_keeps_countedRun (s t : State) (hs : s.CountedRun) (h : advance s = .to t) : t.CountedRun :=
  ⟨advance_keeps_consistent hs.1 h, transition_keeps_counted (advance_transition h) hs.1 hs.2⟩

theorem accept_countedRun (i : Instr) (s : State) : (accept i s).CountedRun :=
  ⟨accept_consistent i s, counted_accept i s⟩

/-- The outside touches nothing that is counted, and `rst` puts the block in `IDLE`, where nothing is (R97, R140). -/
theorem outside_keeps_countedRun (i : Input) (s t : State) (hi : i ≠ .tick) (hs : s.CountedRun)
    (h : happens i s = .next t) : t.CountedRun := by
  cases i with
  | tick => exact absurd rfl hi
  | rst => cases h; exact ⟨consistent_of_ready rfl, counted_reset s⟩
  | _ => cases h; exact hs

theorem step_keeps_countedRun {s t : State} (hs : s.CountedRun) (h : step s = .next t) : t.CountedRun :=
  step_keeps State.CountedRun advance_keeps_countedRun (fun i s _ => accept_countedRun i s) outside_keeps_countedRun
    (fun _ _ h => h) hs h

/-! ## The bound -/

/-- Whatever the phase, the count is within the transactions of all blocks (R96). -/
theorem transactions_le_of_countedRun {s : State} (hs : s.CountedRun) (hp : s.ph ≠ .idle) :
    transactions s.history ≤ s.op.perBlock * totalBlocks s.len.toNat := by
  obtain ⟨hc, hk⟩ := hs
  have hblock := perBlock_mul_blk_succ_le hc
  have h3 := perBlock_mul_add_three_le s.op s.blk
  cases hph : s.ph with
  | idle => exact absurd hph hp
  | validate | split =>
    simp only [State.Counted, hph] at hk
    omega
  | padget =>
    have hT := hblock (by rw [hph]; rfl)
    rw [counted_padget hph] at hk
    omega
  | padput =>
    have hT := hblock (by rw [hph]; rfl)
    rw [counted_padput hph] at hk
    omega
  | dataget =>
    have hT := hblock (by rw [hph]; rfl)
    rw [counted_dataget hph] at hk
    omega
  | dataput =>
    have hT := hblock (by rw [hph]; rfl)
    rw [counted_dataput hph] at hk
    omega
  | done =>
    simp only [State.Counted, hph] at hk
    split at hk <;> omega

/-- Settles O40: by `step_keeps`, and the bound by the phase. -/
theorem stepKeepsTheTransactionCount : Obligations.StepKeepsTheTransactionCount := by
  intro s t hs hk h
  have ht := step_keeps_countedRun ⟨hs.2, hk⟩ h
  exact ⟨ht.2, transactions_le_of_countedRun ht⟩

/-! ## The transactions of a command -/

/-- No transition of R90 goes to `IDLE`. -/
theorem advance_ph_ne_idle {s t : State} (h : advance s = .to t) : t.ph ≠ .idle := by
  cases advance_transition h <;> simp

/-- Where a command ends or waits, its history is counted, and it is not in `IDLE` (R95, R96). -/
theorem exec_ready_countedRun {i : Instr} {s t : State} (hr : s.ready = true) (h : exec i s = .next t) :
    t.CountedRun ∧ t.ph ≠ .idle := by
  rw [exec_ready hr] at h
  refine resume_keeps (fun u => u.CountedRun ∧ u.ph ≠ .idle)
    (fun u v hu hv => ⟨advance_keeps_countedRun u v hu.1 hv, advance_ph_ne_idle hv⟩) ⟨accept_countedRun i s, ?_⟩ h
  cases i <;> simp [accept]

/-- A length of at most `MAXLEN` has at most `2^(LENW-4)` blocks (R96). -/
theorem totalBlocks_le_of_le_maxlen {lenw n : Nat} (hw : 5 ≤ lenw) (hn : (n : Int) ≤ maxlen lenw) :
    totalBlocks n ≤ 2 ^ (lenw - 4) := by
  have hf := fullBlocks_lt_of_le_maxlen hw hn
  rw [Int.toNat_natCast, fullBlocks_eq] at hf
  rw [totalBlocks_eq]
  omega

/-- Settles O39: the count where the command ends or waits, with the operands that acceptance loaded. -/
theorem transactionsAreBounded : Obligations.TransactionsAreBounded := by
  refine ⟨fun s t n hp h => ?_, fun s t n m hp h => ?_, fun lenw n hw hn => totalBlocks_le_of_le_maxlen hw hn⟩
  · have hr := (ready_iff s).2 hp
    obtain ⟨hc, hi⟩ := exec_ready_countedRun hr h
    obtain ⟨hf, -⟩ := exec_encryptsFrom hr h
    simpa [hf.op, hf.len] using transactions_le_of_countedRun hc hi
  · have hr := (ready_iff s).2 hp
    obtain ⟨hc, hi⟩ := exec_ready_countedRun hr h
    obtain ⟨hf, -⟩ := exec_decryptsFrom hr h
    simpa [hf.op, hf.len] using transactions_le_of_countedRun hc hi

end Sys2Proof.Machine

/-! PROOFS. The sequencer, one transition at a time (R83 to R94): acceptance, the gate, the split and its blocks, the data
read and the data write, the end of an operation, and what happens outside it. -/

namespace Sys2Proof.Machine

/-! ## A ready block -/

/-- A tick of a ready block is the acceptance of the command that is read (R83). -/
theorem step_tick_command {s : State} {c : CmdWord} {i : Instr} {rest : List Input} (h : s.inputs = .tick :: rest)
    (hr : s.ready = true) (hc : s.cmd = some c) (hd : decode s.lenw c = .ok i) :
    step s = .next (accept i (setInputs rest s)) := by
  have hr' : (setInputs rest s).ready = true := hr
  simp [step_cons h, happens, blockTicks, hr', hc, hd]

/-- Settles O36: with nothing else to happen the command is run, with a tick scheduled it is accepted. -/
theorem stepRunsTheDecodedCommand : Obligations.StepRunsTheDecodedCommand := by
  intro s c i rest hp hc hd
  have hr := (ready_iff s).2 hp
  exact ⟨fun hi => step_nil_command hi hr hc hd, fun hi => step_tick_command hi hr hc hd⟩

/-- Settles O13: the acceptance of either command, and the frame of a tick while `BUSY`. -/
theorem acceptanceLatchesCommand : Obligations.AcceptanceLatchesCommand := by
  intro s rest c hi hc
  refine ⟨fun n hp hd => step_tick_command hi ((ready_iff s).2 hp) hc hd,
    fun n m hp hd => step_tick_command hi ((ready_iff s).2 hp) hc hd, fun t hb h => ?_⟩
  obtain ⟨u, hu, rfl⟩ := step_tick_busy_cases hi hb h
  obtain ⟨-, hop, hlen, hplen, -, -, hcmd⟩ := ticksTo_keeps_operands hu
  exact ⟨hcmd.trans hc, hop, hlen, hplen⟩

/-- Settles O22: with nothing on the pins a ready block stays, whether it runs by itself or takes a tick. -/
theorem idleAndDoneStay : Obligations.IdleAndDoneStay := by
  intro s rest hp hc
  have hr := (ready_iff s).2 hp
  exact ⟨fun hi => (step_nil hi).trans (blockRuns_no_command hr hc),
    fun hi => (step_cons hi).trans (blockTicks_no_command (s := setInputs rest s) hr hc)⟩

/-! ## The gate and the split -/

/-- Settles O15: the gate of either command does not see the schedule, and is the test of R85 itself. -/
theorem gateDecides : Obligations.GateDecides := by
  rintro s u rest hi hp rfl
  refine ⟨fun ho => ?_, fun ho => ?_⟩
  · rw [step_tick_to hi (advance_validate_encrypt ho hp), ← validateEncrypt_setInputs]
    rfl
  · rw [step_tick_to hi (advance_validate_decrypt ho hp), ← validateDecrypt_setInputs]
    rfl

/-- Settles O16: `FB` and `REM` are quotient and remainder by 8, so their sum and the bound are arithmetic. -/
theorem splitComputesBlocks : Obligations.SplitComputesBlocks := by
  intro s rest n hi hp hlen h1 hmax
  have hn : s.len.toNat = n := by omega
  refine ⟨_, step_tick_to hi (advance_split hp), rfl, ?_⟩
  simp only [setInputs_fb, setInputs_rem, split_fb, split_rem, hn, fullBlocks_eq, remainder_val, true_and]
  omega

/-- The sizes of the first blocks of a length add up to it, or to those blocks in full (R37). -/
theorem sum_blockSize (n t : Nat) : ((List.range t).map (blockSize n)).sum = min n (8 * t) := by
  induction t with
  | zero => simp
  | succ t ih =>
    rw [List.range_succ, List.map_append, List.sum_append, ih]
    simp only [List.map_cons, List.map_nil, List.sum_singleton, blockSize_eq]
    omega

/-- `N(b)` in the split of a length (R89). -/
theorem blockLen_split_eq {s : State} {n : Nat} (hf : s.fb = fullBlocks n) (hr : s.rem = remainder n) (b : Nat) :
    s.blockLen b = if b < totalBlocks n then some (blockSize n b) else none := by
  split
  · next hb => exact blockLen_split hf hr b ((lt_totalBlocks n b).1 hb)
  · next hb =>
    rw [Option.eq_none_iff_forall_ne_some]
    intro m hm
    have hmore := (more_iff_blockLen s b).2 ⟨m, hm⟩
    rw [more_split hf hr, decide_eq_true_eq, ← lt_totalBlocks] at hmore
    exact hb hmore

/-- Settles O12: the arithmetic of a division by 8, `sum_blockSize` for the cover, and the split for `more` and `N`. -/
theorem blocksCoverTheLength : Obligations.BlocksCoverTheLength := by
  intro n
  refine ⟨?_, rfl, fun h => ?_, fun i hi => ?_, fun h => ?_, ?_, fun i hi => ?_, fun s b hf hr => ⟨?_, ?_⟩⟩
  · rw [fullBlocks_eq, remainder_val]; omega
  · rw [totalBlocks_eq]; omega
  · rw [fullBlocks_eq] at hi
    rw [blockSize_eq]; omega
  · rw [remainder_val] at h
    rw [blockSize_eq, totalBlocks_eq, fullBlocks_eq, remainder_val]; omega
  · rw [sum_blockSize, totalBlocks_eq]; omega
  · rw [lt_totalBlocks] at hi
    rw [blockSize_eq]; omega
  · rw [more_split hf hr, decide_eq_true_eq, lt_totalBlocks]
  · exact blockLen_split_eq hf hr b

/-! ## The data read and the data write -/

/-- A read of `IN` consumes what it yields, and records the event (R33). -/
theorem afterReadIn_eq (off n : Nat) (a : Acks) (s : State) :
    afterReadIn off n a s =
      { s with
        inAcks := a, inRc := s.inRc + (s.inBytes n).length
        history := s.history ++ [.read .IN off n (s.inBytes n)] } := rfl

/-- Settles O20: the length of what the read yields decides the case of `dataget_cases`. -/
theorem datagetReadsIn : Obligations.DatagetReadsIn := by
  rintro s rest n a b hi hp hn ha rfl
  change ((s.inBytes n).length = n → _) ∧ ((s.inBytes n).length < n → _)
  have hstep {u : State} (hm : dataget s = .to u) : step s = .next (setInputs rest u) :=
    step_tick_to hi ((advance_dataget hp).trans hm)
  rcases dataget_cases hn with ⟨h, -⟩ | ⟨_, h, hread⟩ <;> rw [ha] at h <;> cases h
  rcases hread with ⟨hlt, hm⟩ | ⟨hlen, hm⟩
  · exact ⟨fun hlen => absurd hlen hlt.ne, fun _ => hstep hm⟩
  · refine ⟨fun _ => ?_, fun hlt => absurd hlen hlt.ne⟩
    rw [hstep hm, afterReadIn_eq, hlen, blockOff_eq]
    rfl

theorem nextBlock_of_more {s : State} (h : s.more (s.blk + 1) = true) : nextBlock s = goto .padget (bumpBlk s) :=
  if_pos h

theorem nextBlock_of_last {s : State} (h : s.more (s.blk + 1) = false) : nextBlock s = finishOk (bumpBlk s) :=
  if_neg (by simp [h])

/-- A write of `OUT` appends, and records the event (R34). -/
theorem afterWriteOut_eq (off : Nat) (v : List Byte) (a : Acks) (s : State) :
    afterWriteOut off v a s =
      { s with outAcks := a, outWritten := s.outWritten ++ v, history := s.history ++ [.write .OUT off v] } := rfl

/-- Settles O21: the write of `dataput_cases`, then `nextBlock` by whether a block follows. -/
theorem dataputWritesXor : Obligations.DataputWritesXor := by
  intro s rest n a x hi hp hn hx ha
  obtain ⟨hb, hpw, rfl⟩ := (xdp_eq_some s.buf s.padw n x).1 hx
  rcases dataput_cases hn hb hpw with ⟨h, -⟩ | ⟨_, h, hm⟩ <;> rw [ha] at h <;> cases h
  rw [step_tick_to hi ((advance_dataput hp).trans hm), afterWriteOut_eq, blockOff_eq]
  refine ⟨fun hmore => ?_, fun hmore => ?_⟩
  · rw [nextBlock_of_more]
    · rfl
    · exact hmore
  · rw [nextBlock_of_last, ← finishOk_setInputs]
    · rfl
    · exact hmore

/-! ## The end of an operation, and the outside -/

/-- Settles O24: `raise` and `finish Ok` are the same write of `STATUS` and `PH`, and each records its event. -/
theorem operationEnds : Obligations.OperationEnds := by
  rintro v s t (⟨rfl, rfl⟩ | ⟨k, rfl, rfl⟩)
  · exact ⟨rfl, rfl, rfl, rfl⟩
  · exact ⟨rfl, rfl, rfl, rfl⟩

/-- Settles O32: every entry but a tick and `rst` is the update of the one field it names. -/
theorem outsideTouchesNoRegister : Obligations.OutsideTouchesNoRegister := by
  refine ⟨fun w => ⟨rfl, rfl⟩, fun s i rest hi htick hrst => ?_⟩
  rw [step_cons hi]
  cases i with
  | tick => exact absurd rfl htick
  | rst => exact absurd rfl hrst
  | _ =>
    exact ⟨_, rfl, rfl, rfl, rfl, rfl, rfl, rfl, rfl, rfl, rfl, rfl, rfl, rfl, rfl, rfl, rfl, rfl, rfl, by simp, rfl⟩

end Sys2Proof.Machine

/-! PROOFS. A command from its acceptance on (R44, R84 to R86, R90, R95, R121, R122, R126, R150): held while `BUSY`, run
transition by transition to an end or a wait, and ended by the gate. -/

namespace Sys2Proof.Machine

/-! ## A command presented while `BUSY` -/

theorem resume_setCmd {c : Option CmdWord} {s t : State} (h : resume s = .next t) :
    resume (setCmd c s) = .next (setCmd c t) := runOn_setCmd c s.fuel s t h

/-- No run of the block changes what acceptance reads: the pins, the schedule and `LENW` (R44). -/
theorem resume_keeps_boundary {s t : State} (h : resume s = .next t) :
    t.cmd = s.cmd ∧ t.inputs = s.inputs ∧ t.lenw = s.lenw := by
  refine resume_keeps (fun u => u.cmd = s.cmd ∧ u.inputs = s.inputs ∧ u.lenw = s.lenw) ?_ ⟨rfl, rfl, rfl⟩ h
  rintro u v ⟨hc, hi, hl⟩ huv
  obtain ⟨el, -, -, -, -, -, ec, ei⟩ := advance_keeps huv
  exact ⟨ec.trans hc, ei.trans hi, el.trans hl⟩

/-- A step of a running block does the same whatever the pins hold, and leaves them and `LENW` as they are (R44, R84). -/
theorem step_busy_setCmd {s t : State} {rest : List Input} (c : Option CmdWord) (hb : s.busy = true)
    (hi : s.inputs = [] ∨ s.inputs = .tick :: rest) (h : step s = .next t) :
    t.cmd = s.cmd ∧ t.lenw = s.lenw ∧ step (setCmd c s) = .next (setCmd c t) := by
  rcases hi with hi | hi
  · rw [step_nil_busy hi hb] at h
    obtain ⟨hc, -, hl⟩ := resume_keeps_boundary h
    exact ⟨hc, hl, (step_nil_busy (s := setCmd c s) hi hb).trans (resume_setCmd h)⟩
  · obtain ⟨u, hu, htu⟩ := step_tick_busy_cases hi hb h
    obtain ⟨hl, -, -, -, -, -, hc⟩ := ticksTo_keeps_operands hu
    refine ⟨htu ▸ hc, htu ▸ hl, ?_⟩
    rw [step_tick_busy hi hb] at h
    rw [step_tick_busy (s := setCmd c s) hi hb, advance_setCmd]
    cases ha : advance s <;> rw [ha] at h <;> cases h <;> rfl

/-- Settles O14: `exec_busy`, a step by `step_busy_setCmd`, and the held command by `step_nil_command`. -/
theorem busyHoldsTheCommand : Obligations.BusyHoldsTheCommand := by
  refine ⟨fun i s hb => exec_busy (not_ready_of_busy hb) i, fun s t c rest hb hi h => ?_⟩
  obtain ⟨hc, hl, hstep⟩ := step_busy_setCmd c hb hi h
  refine ⟨hc, hstep, fun w i hd hin hw hdec => ?_⟩
  exact step_nil_command hin ((ready_iff t).2 (.inr hd)) (hc.trans hw) (hl ▸ hdec)

/-! ## A command is run -/

theorem accept_inputs (i : Instr) (s : State) : (accept i s).inputs = s.inputs := by cases i <;> rfl

theorem accept_setInputs (i : Instr) (l : List Input) (s : State) :
    accept i (setInputs l s) = setInputs l (accept i s) := by cases i <;> rfl

/-- Settles O37: one tick for the acceptance, and one for each transition that leads from it to the answer. -/
theorem ticksRunTheCommand : Obligations.TicksRunTheCommand := by
  intro s t c i hp hc hd hi h
  have hr := (ready_iff s).2 hp
  obtain ⟨k, hk, -⟩ := exec_ready_advanceN hr h
  have hin : t.inputs = [] := by
    obtain ⟨-, hin, -⟩ := resume_keeps_boundary (exec_ready hr i ▸ h)
    rw [hin, accept_inputs, hi]
  have haccept := step_tick_command (s := setInputs (List.replicate (k + 1) .tick) s) (rest := List.replicate k .tick)
    rfl hr hc hd
  refine ⟨k + 1, (run_succ haccept).trans ?_⟩
  change Host.Core.run core k (accept i (setInputs (List.replicate k .tick) s)) = .next t
  rw [accept_setInputs, run_ticks hk, ← hin]
  rfl

/-- Settles O38: the run ends where the block has no transition, and there it is in `DONE` or waits. -/
theorem commandsAlwaysRun : Obligations.CommandsAlwaysRun := by
  intro i s hp
  have hr := (ready_iff s).2 hp
  obtain ⟨t, ht, -, hst⟩ := resume_consistent (accept_consistent i s)
  have hx := (exec_ready hr i).trans ht
  refine ⟨t, hx, or_iff_not_imp_left.2 fun hd => ⟨(busy_iff t).2 ⟨?_, hd⟩, hst⟩⟩
  exact (exec_ready_countedRun hr hx).2

/-! ## The gate ends a command -/

/-- A command whose gate raises a failure ends with it, straight from its acceptance (R86, R121, R122). -/
theorem exec_of_raise {i : Instr} {s : State} {k : Failure} (hp : s.ph = .idle ∨ s.ph = .done)
    (h : advance (accept i s) = .to (raise k (accept i s))) : exec i s = .next (raise k (accept i s)) :=
  exec_eq (k := 1) ((ready_iff s).2 hp) (by rw [advanceN_succ h]; rfl) (advance_done rfl)

/-- Settles O44: the first case of the gate of `ENCRYPT`. -/
theorem encryptRejectsSize : Obligations.EncryptRejectsSize := by
  intro s n hp hn
  refine exec_of_raise (i := .encrypt n) hp ?_
  rw [advance_validate_encrypt rfl rfl, validateEncrypt, if_pos (by exact hn)]

/-- Settles O51: the first case of the gate of `DECRYPT`. -/
theorem decryptRejectsSize : Obligations.DecryptRejectsSize := by
  intro s n m hp hn
  refine exec_of_raise (i := .decrypt n m) hp ?_
  rw [advance_validate_decrypt rfl rfl, validateDecrypt, if_pos (by exact hn)]

/-- Settles O52: the second case of the gate of `DECRYPT`. -/
theorem decryptSizeMismatch : Obligations.DecryptSizeMismatch := by
  intro s n m hp hn hnm hm hmm hne
  refine exec_of_raise (i := .decrypt n m) hp ?_
  rw [advance_validate_decrypt rfl rfl]
  rcases validateDecrypt_cases (accept (.decrypt n m) s) with ⟨h, -⟩ | ⟨-, -, -, -, -, h⟩ | ⟨-, -, h, -⟩
  · simp only [accept, acceptDecrypt_len, acceptDecrypt_plen, acceptDecrypt_lenw] at h
    omega
  · rw [h]
  · exact absurd h.symm hne

end Sys2Proof.Machine

/-! PROOFS. `ENCRYPT` to its end (R54, R67, R102 to R105, R123, R124): the pad write of a tick, a successful command,
and the two failures inside a block. Each run goes through the top of a block (`EncryptTop`). -/

namespace Sys2Proof.Machine

/-! ## `PADPUT` -/

/-- A write of `PAD` appends, and records the event (R34). -/
theorem afterWritePad_eq (off : Nat) (v : List Byte) (a : Acks) (s : State) :
    afterWritePad off v a s =
      { s with padWrAcks := a, padWritten := s.padWritten ++ v, history := s.history ++ [.write .PAD off v] } := rfl

/-- Settles O19: the acknowledged case of `padput_cases`. -/
theorem padputWritesFirstLanes : Obligations.PadputWritesFirstLanes := by
  intro s rest n a hi ho hp hn hpw ha
  rcases padput_cases hn hpw with ⟨h, -⟩ | ⟨_, h, hm⟩ <;> rw [ha] at h <;> cases h
  rw [step_tick_to hi ((advance_padput ho hp).trans hm), afterWritePad_eq, blockOff_eq]
  rfl

/-! ## A successful command -/

/-- Settles O42: `exec_encrypt_ok`, whose pad stream is the first `n` bytes of the drawn words. -/
theorem encryptSucceeds : Obligations.EncryptSucceeds := by
  intro s n ws more hp ha h1 hmax hin hws hps
  obtain ⟨t, ht, hd, hst, hrc, hpad, hout, hans, -⟩ :=
    exec_encrypt_ok ((ready_iff s).2 hp) ha h1 hmax hin hws hps
  have hlen : ((padOf ws).take n).length = n := by
    rw [totalBlocks_eq] at hws
    rw [List.length_take, padOf_length]
    omega
  refine ⟨t, ht, hd, hst, by rw [hpad, hlen], ?_, fun j hj => ?_, by rw [hout, hpad], hans, hrc⟩
  · rw [hout, xorBytes_length, hlen, List.length_take]
    omega
  · rw [hpad, List.getElem?_take_of_lt hj, padOf_get]

/-! ## A failure inside a block -/

/-- A command that comes to the top of a block ends, or waits, where the transitions from there do (R90, R150). -/
theorem exec_encrypt_from_top {s : State} {n : Nat} {ws : List Word64} {rest : List PsAnswer}
    (hp : s.ph = .idle ∨ s.ph = .done) (ha : s.Acked) (hmax : (n : Int) ≤ maxlen s.lenw) (hn : 8 * ws.length < n)
    (hin : 8 * ws.length ≤ s.inContent.length) (hps : s.psAnswers = oks ws ++ rest) :
    ∃ t, EncryptTop n s.inContent ws rest t ∧
      ∀ k u, advanceN k t = some u → advance u = .stays → exec (.encrypt n) s = .next u := by
  obtain ⟨m, t, hm, ht⟩ := encrypt_tops (by omega) hmax ha ws rest hps hn hin
  exact ⟨t, ht, fun k u hk hu => exec_eq (i := .encrypt n) ((ready_iff s).2 hp) ((advanceN_add hm).trans hk) hu⟩

/-- At the top of a block whose draw fails, the next transition ends the operation (R124). -/
theorem encrypt_draw_fails {n : Nat} {p : List Byte} {ws : List Word64} {more : List PsAnswer} {t : State}
    (h : EncryptTop n p ws (.fail :: more) t) : advance t = .to (raise .entropyUnavailable (afterDraw .fail t)) := by
  rw [advance_padget_encrypt h.op h.ph]
  rcases padgetEncrypt_cases t with ⟨hans, -⟩ | ⟨_, -, hm⟩ | ⟨_, _, hans, -⟩
  · rw [h.answers] at hans; cases hans
  · exact hm
  · rw [h.answers] at hans; cases hans

/-- Settles O45: the run comes to the top of block `|ws|`, and the draw there fails. -/
theorem encryptEntropyFailure : Obligations.EncryptEntropyFailure := by
  intro s n ws more hp ha hmax hn hin hps
  obtain ⟨t, ht, hexec⟩ := exec_encrypt_from_top hp ha hmax hn hin hps
  refine ⟨_, hexec 1 _ (advanceN_succ (encrypt_draw_fails ht) 0) (advance_done rfl), rfl, rfl, ht.pad, ht.out, ?_, ?_,
    ht.rc, ?_, ?_⟩
  · simp [ht.pad]
  · simp [ht.out, hin]
  · simp [ht.answers]
  · simp [ht.history]

/-- The pad bytes of whole words, and of the first `m` lanes of one word more (R54). -/
theorem take_padOf_snoc (ws : List Word64) (w : Word64) (m : Nat) :
    (padOf (ws ++ [w])).take (8 * ws.length + m) = padOf ws ++ (bytes8 w).take m := by
  rw [padOf_append, padOf_single, ← padOf_length, List.take_length_add_append]

/-- A block of a stream that the stream does not fill (R33, R37): what it yields is all that is left. -/
theorem inBytes_length_of_short {s : State} {n i : Nat} (hlen : s.inContent.length < n)
    (hi : i = s.inContent.length / 8) (hrc : s.inRc = 8 * i) :
    (s.inBytes (blockSize n i)).length = s.inContent.length - 8 * i ∧
      s.inContent.length - 8 * i < blockSize n i := by
  rw [State.inBytes, readSlice_length, blockSize_eq, hrc]
  omega

/-- The block that the stream does not fill: its draw and its pad write, then the short read (R103, R123). -/
theorem encrypt_short_block {n : Nat} {p : List Byte} {ws : List Word64} {w : Word64} {rest : List PsAnswer} {t : State}
    (h : EncryptTop n p ws (.ok w :: rest) t) (hlen : p.length < n) (hi : ws.length = p.length / 8) :
    ∃ u, advanceN 3 t = some u ∧ u.ph = .done ∧ u.status = .failed .shortRead ∧
      u.padWritten = (padOf (ws ++ [w])).take (8 * ws.length + blockSize n ws.length) ∧
      u.outWritten = xorBytes (p.take (8 * ws.length)) (padOf ws) ∧ u.inRc = p.length ∧ u.psAnswers = rest := by
  have hn : 8 * ws.length < n := by omega
  obtain ⟨v, hv, -, hph, -, hfb, hrem, hblk, rfl, hrc, -, hpad, hout, hans, -, hack⟩ := encrypt_pad h hn
  obtain ⟨hbytes, hshort⟩ := inBytes_length_of_short hlen hi hrc
  have hsize : v.blockLen v.blk = some (blockSize n ws.length) := by rw [hblk]; exact blockLen_split hfb hrem _ hn
  have hread := data_short hph hsize (hbytes ▸ hshort) hack.1
  refine ⟨_, (advanceN_add hv).trans (advanceN_succ hread 0), raise_ph _ _, raise_status _ _, ?_, ?_, ?_, ?_⟩
  · rw [raise_padWritten, afterReadIn_padWritten, hpad, take_padOf_snoc]
  · rw [raise_outWritten, afterReadIn_outWritten, hout, h.out]
  · rw [raise_inRc, afterReadIn_inRc, hrc, hbytes]; omega
  · rw [raise_psAnswers, afterReadIn_psAnswers, hans]

/-- Settles O46: the run comes to the top of the first block that `IN` cannot fill, and ends there. -/
theorem encryptShortRead : Obligations.EncryptShortRead := by
  intro s n i ws more hp ha hmax hlen hi hws hps
  cases ws using List.reverseRecOn with
  | nil => simp at hws
  | append_singleton ws w =>
    obtain rfl : ws.length = i := by simpa using hws
    have hin : 8 * ws.length ≤ s.inContent.length := by omega
    obtain ⟨t, ht, hexec⟩ := exec_encrypt_from_top (rest := .ok w :: more) hp ha hmax (by omega) hin
      (by simpa [oks] using hps)
    obtain ⟨u, hu, hd, hst, hpad, hout, hrc, hans⟩ := encrypt_short_block ht hlen hi
    refine ⟨u, hexec 3 u hu (advance_done hd), hd, hst, hpad, ?_, by simp [hout], ?_, hrc, hans⟩
    · rw [hpad, List.length_take, padOf_length, List.length_append, List.length_singleton, blockSize_eq]
      omega
    · simp [hout, hin]

end Sys2Proof.Machine

/-! PROOFS. `DECRYPT` to its end (R78, R111, R114, R115, R123): a successful command, the two short reads, and that it
undoes `ENCRYPT`. Each run goes through the top of a block (`DecryptTop`). -/

namespace Sys2Proof.Machine

/-! ## A successful command -/

/-- A `DECRYPT` draws nothing and writes nothing to `PAD`, however it ends (R67, R115). -/
theorem exec_decrypt_keeps_draws_and_pad {s t : State} {n m : Int} (hp : s.ph = .idle ∨ s.ph = .done)
    (h : exec (.decrypt n m) s = .next t) : t.psAnswers = s.psAnswers ∧ t.padWritten = s.padWritten := by
  obtain ⟨-, hans, hpad, -⟩ := exec_decryptsFrom ((ready_iff s).2 hp) h
  exact ⟨hans, hpad⟩

/-- Settles O49: `exec_decrypt_ok`, with the answers and the written pad as any `DECRYPT` leaves them. -/
theorem decryptSucceeds : Obligations.DecryptSucceeds := by
  intro s n hp ha h1 hmax hin hpad
  obtain ⟨t, ht, hd, hst, hrc, hprc, hout, -⟩ := exec_decrypt_ok ((ready_iff s).2 hp) ha h1 hmax hin hpad
  exact ⟨t, ht, hd, hst, by simp [hout, hin, hpad], hout, hrc, hprc, exec_decrypt_keeps_draws_and_pad hp ht⟩

/-! ## A short read inside a block -/

/-- A command that comes to the top of block `i` ends, or waits, where the transitions from there do (R90, R150). -/
theorem exec_decrypt_from_top {s : State} {n i : Nat} (hp : s.ph = .idle ∨ s.ph = .done) (ha : s.Acked)
    (hmax : (n : Int) ≤ maxlen s.lenw) (hn : 8 * i < n) (hin : 8 * i ≤ s.inContent.length)
    (hpad : 8 * i ≤ s.padContent.length) :
    ∃ t, DecryptTop n s.inContent s.padContent i t ∧
      ∀ k u, advanceN k t = some u → advance u = .stays → exec (.decrypt n n) s = .next u := by
  obtain ⟨m, t, hm, ht⟩ := decrypt_tops (by omega) hmax ha i hn hin hpad
  exact ⟨t, ht, fun k u hk hu => exec_eq (i := .decrypt n n) ((ready_iff s).2 hp) ((advanceN_add hm).trans hk) hu⟩

/-- A pad read that the pad stream cannot fill, with the endpoint acknowledging, ends the operation (R68, R123). -/
theorem pad_short {s : State} {n : Nat} (ho : s.op = .decrypt) (hph : s.ph = .padget)
    (hn : s.blockLen s.blk = some n) (hb : (s.padBytes n).length < n) (hr : s.padRdAcks = .always) :
    advance s = .to (raise .shortRead (afterReadPad (blockOff s.blk) n .always s)) := by
  rw [advance_padget_decrypt ho hph]
  rcases padgetDecrypt_cases hn with ⟨h, -⟩ | ⟨a, h, hread⟩ <;> rw [hr] at h <;> cases h
  rcases hread with ⟨-, hd⟩ | ⟨hlen, -⟩
  · exact hd
  · omega

/-- The first block of `PAD` that the stream does not fill (R33, R37): what it yields is all that is left. -/
theorem padBytes_length_of_short {s : State} {n i : Nat} (hlen : s.padContent.length < n)
    (hi : i = s.padContent.length / 8) (hrc : s.padRc = 8 * i) :
    (s.padBytes (blockSize n i)).length = s.padContent.length - 8 * i ∧
      s.padContent.length - 8 * i < blockSize n i := by
  rw [State.padBytes, readSlice_length, blockSize_eq, hrc]
  omega

/-- The block whose pad bytes are not there: the next transition ends the operation, and `IN` is not read (R115). -/
theorem decrypt_short_pad {n i : Nat} {c k : List Byte} {t : State} (h : DecryptTop n c k i t) (hlen : k.length < n)
    (hi : i = k.length / 8) :
    ∃ u, advance t = .to u ∧ u.ph = .done ∧ u.status = .failed .shortRead ∧
      u.outWritten = xorBytes (c.take (8 * i)) (k.take (8 * i)) ∧ u.padRc = k.length ∧ u.inRc = 8 * i := by
  obtain rfl := h.pad
  obtain ⟨hbytes, hshort⟩ := padBytes_length_of_short hlen hi h.padRc
  have hsize : t.blockLen t.blk = some (blockSize n i) := by
    rw [h.blk]; exact blockLen_split h.fb h.rem i (by omega)
  obtain ⟨-, hack, -, -⟩ := h.acked
  refine ⟨_, pad_short h.op h.ph hsize (hbytes ▸ hshort) hack, raise_ph _ _, raise_status _ _, ?_, ?_, ?_⟩
  · rw [raise_outWritten, afterReadPad_outWritten, h.out]
  · rw [raise_padRc, afterReadPad_padRc, h.padRc, hbytes]; omega
  · rw [raise_inRc, afterReadPad_inRc, h.rc]

/-- Settles O53: the run comes to the top of the first block that `PAD` cannot fill, and ends there. -/
theorem decryptShortPad : Obligations.DecryptShortPad := by
  intro s n i hp ha hmax hlen hi hin
  have hpad : 8 * i ≤ s.padContent.length := by omega
  obtain ⟨t, ht, hexec⟩ := exec_decrypt_from_top hp ha hmax (by omega) hin hpad
  obtain ⟨u, hu, hd, hst, hout, hprc, hrc⟩ := decrypt_short_pad ht hlen hi
  have hx := hexec 1 u (advanceN_succ hu 0) (advance_done hd)
  exact ⟨u, hx, hd, hst, hout, by simp [hout, hin, hpad], hprc, hrc, exec_decrypt_keeps_draws_and_pad hp hx⟩

/-- The block whose data are not there: its pad read, then the short read (R115, R123). -/
theorem decrypt_short_in {n i : Nat} {c k : List Byte} {t : State} (h : DecryptTop n c k i t) (hlen : c.length < n)
    (hi : i = c.length / 8) (hpad : 8 * i + blockSize n i ≤ k.length) :
    ∃ u, advanceN 2 t = some u ∧ u.ph = .done ∧ u.status = .failed .shortRead ∧
      u.outWritten = xorBytes (c.take (8 * i)) (k.take (8 * i)) ∧ u.padRc = 8 * i + blockSize n i ∧
      u.inRc = c.length := by
  have hn : 8 * i < n := by omega
  obtain ⟨v, hv, -, hph, -, -, hfb, hrem, hblk, rfl, -, hrc, hprc, -, hout, -, hack⟩ :=
    decrypt_pad h hn (by rw [blockSize_eq] at hpad; omega)
  obtain ⟨hbytes, hshort⟩ := inBytes_length_of_short hlen hi hrc
  have hsize : v.blockLen v.blk = some (blockSize n i) := by rw [hblk]; exact blockLen_split hfb hrem i hn
  have hread := data_short hph hsize (hbytes ▸ hshort) hack.1
  refine ⟨_, (advanceN_succ hv 1).trans (advanceN_succ hread 0), raise_ph _ _, raise_status _ _, ?_, ?_, ?_⟩
  · rw [raise_outWritten, afterReadIn_outWritten, hout, h.out]
  · rw [raise_padRc, afterReadIn_padRc, hprc]
  · rw [raise_inRc, afterReadIn_inRc, hrc, hbytes]; omega

/-- Settles O54: the run comes to the top of the first block that `IN` cannot fill, and ends after its pad read. -/
theorem decryptShortIn : Obligations.DecryptShortIn := by
  intro s n i hp ha hmax hlen hi hpad
  have hin : 8 * i ≤ s.inContent.length := by omega
  have hpad' : 8 * i ≤ s.padContent.length := by omega
  obtain ⟨t, ht, hexec⟩ := exec_decrypt_from_top hp ha hmax (by omega) hin hpad'
  obtain ⟨u, hu, hd, hst, hout, hprc, hrc⟩ := decrypt_short_in ht hlen hi hpad
  have hx := hexec 2 u hu (advance_done hd)
  exact ⟨u, hx, hd, hst, hout, by simp [hout, hin, hpad'], hprc, hrc, exec_decrypt_keeps_draws_and_pad hp hx⟩

/-! ## The inverse of `ENCRYPT` -/

/-- Settles O56: both operations succeed, and exclusive or with the same pad twice gives the first `IN` back. -/
theorem decryptInvertsEncrypt : Obligations.DecryptInvertsEncrypt := by
  intro s u n ws more hp ha h1 hmax hlen hws hps hpu hau hlw
  obtain ⟨t, ht, -, hst, hplen, holen, -, hout, -⟩ := encryptSucceeds s n ws more hp ha h1 hmax hlen.ge hws hps
  refine ⟨t, ht, hst, fun hin hpad => ?_⟩
  obtain ⟨v, hv, hvd, hvst, -, hvout, -⟩ :=
    decryptSucceeds u n hpu hau h1 (hlw ▸ hmax) (by rw [hin, holen]) (by rw [hpad, hplen])
  refine ⟨v, hv, hvd, hvst, ?_⟩
  calc v.outWritten
    _ = xorBytes t.outWritten t.padWritten := by
      rw [hvout, hin, hpad, List.take_of_length_le holen.le, List.take_of_length_le hplen.le]
    _ = xorBytes (xorBytes s.inContent t.padWritten) t.padWritten := by
      rw [hout, List.take_of_length_le hlen.le]
    _ = s.inContent := xorBytes_cancel _ _ (by rw [hlen, hplen])

end Sys2Proof.Machine

/-! PROOFS. Waiting and reset (R140, R141, R144, R150): a transaction that is not answered keeps the block where it is,
and `rst` abandons the operation, with the transaction that was requested performed or not. -/

namespace Sys2Proof.Machine

/-! ## A block that waits -/

theorem waits_of_inBlock {s : State} (hp : s.ph.inBlock = true) (ha : advance s = .stays) : s.Waits :=
  ⟨(busy_iff s).2 ⟨fun h => by simp [h, Phase.inBlock] at hp, fun h => by simp [h, Phase.inBlock] at hp⟩, ha⟩

theorem step_nil_of_waits {s : State} (hw : s.Waits) (hi : s.inputs = []) : step s = .next s := by
  obtain ⟨hb, ha⟩ := hw
  rw [step_nil_busy hi hb, resume, runOn_stays ha]

theorem step_tick_of_waits {s : State} {rest : List Input} (hw : s.Waits) (hi : s.inputs = .tick :: rest) :
    step s = .next (setInputs rest s) := by
  obtain ⟨hb, ha⟩ := hw
  rw [step_tick_busy hi hb, ha]

/-! ## The five transactions, not answered -/

theorem use_only_zero : Acks.use (.only 0) = none := rfl

/-- A Pad Source with no answer ready keeps `ENCRYPT` in `PADGET` (R144). -/
theorem draw_waits {s : State} (hp : s.ph = .padget) (ho : s.op = .encrypt) (ha : s.psAnswers = []) : s.Waits := by
  refine waits_of_inBlock (by rw [hp]; rfl) ((advance_padget_encrypt ho hp).trans ?_)
  rcases padgetEncrypt_cases s with ⟨-, h⟩ | ⟨_, h, -⟩ | ⟨_, _, h, -⟩
  · exact h
  · rw [ha] at h; cases h
  · rw [ha] at h; cases h

section
variable {s : State} {n : Nat} (hn : s.blockLen s.blk = some n)
include hn

theorem padRead_waits (hp : s.ph = .padget) (ho : s.op = .decrypt) (ha : s.padRdAcks.use = none) : s.Waits := by
  refine waits_of_inBlock (by rw [hp]; rfl) ((advance_padget_decrypt ho hp).trans ?_)
  rcases padgetDecrypt_cases hn with ⟨-, h⟩ | ⟨_, h, -⟩
  · exact h
  · rw [ha] at h; cases h

theorem padWrite_waits (hp : s.ph = .padput) (ho : s.op = .encrypt) (hl : n ≤ s.padw.length)
    (ha : s.padWrAcks.use = none) : s.Waits := by
  refine waits_of_inBlock (by rw [hp]; rfl) ((advance_padput ho hp).trans ?_)
  rcases padput_cases hn hl with ⟨-, h⟩ | ⟨_, h, -⟩
  · exact h
  · rw [ha] at h; cases h

theorem inRead_waits (hp : s.ph = .dataget) (ha : s.inAcks.use = none) : s.Waits := by
  refine waits_of_inBlock (by rw [hp]; rfl) ((advance_dataget hp).trans ?_)
  rcases dataget_cases hn with ⟨-, h⟩ | ⟨_, h, -⟩
  · exact h
  · rw [ha] at h; cases h

theorem outWrite_waits (hp : s.ph = .dataput) (hb : n ≤ s.buf.length) (hl : n ≤ s.padw.length)
    (ha : s.outAcks.use = none) : s.Waits := by
  refine waits_of_inBlock (by rw [hp]; rfl) ((advance_dataput hp).trans ?_)
  rcases dataput_cases hn hb hl with ⟨-, h⟩ | ⟨_, h, -⟩
  · exact h
  · rw [ha] at h; cases h

end

/-- Settles O23: each of the five transactions, not answered, makes the block wait, and a block that waits stays. -/
theorem unansweredTransactionWaits : Obligations.UnansweredTransactionWaits := by
  intro s rest n hn h
  suffices hw : s.Waits from ⟨hw.1, step_nil_of_waits hw, step_tick_of_waits hw⟩
  rcases h with ⟨hp, ho, ha⟩ | ⟨hp, ho, ha⟩ | ⟨hp, ho, hl, ha⟩ | ⟨hp, ha⟩ | ⟨hp, hb, hl, ha⟩
  · exact draw_waits hp ho ha
  · exact padRead_waits hn hp ho (ha ▸ use_only_zero)
  · exact padWrite_waits hn hp ho hl (ha ▸ use_only_zero)
  · exact inRead_waits hn hp (ha ▸ use_only_zero)
  · exact outWrite_waits hn hp hb hl (ha ▸ use_only_zero)

/-! ## `ENCRYPT` waits -/

/-- Settles O47: the run comes to the top of block `|ws|`, and waits there for a draw that is not answered. -/
theorem encryptWaitsForTheDraw : Obligations.EncryptWaitsForTheDraw := by
  intro s n ws hp ha hi hmax hn hin hps
  obtain ⟨t, ht, hexec⟩ := exec_encrypt_from_top (rest := []) hp ha hmax hn hin (by rw [hps, List.append_nil])
  have hw := draw_waits ht.ph ht.op ht.answers
  have hx := hexec 0 t rfl hw.2
  obtain ⟨hrun, -⟩ := exec_encryptsFrom ((ready_iff s).2 hp) hx
  exact ⟨t, hx, ht.ph, ht.blk, hw.1, (psReqPort_iff t).2 ⟨ht.ph, ht.op⟩, ht.pad, ht.out,
    hrun.status (by simp [ht.ph]), step_nil_of_waits hw (hrun.inputs.trans hi)⟩

/-! ## What is requested, and what performing it does -/

/-- The five requests of R24, by phase. -/
theorem requests_iff (s : State) :
    s.Requests ↔ (s.ph = .padget ∧ s.op = .encrypt) ∨ ∃ n, s.blockLen s.blk = some n ∧
      ((s.ph = .padget ∧ s.op = .decrypt) ∨ (s.ph = .padput ∧ s.op = .encrypt ∧ n ≤ s.padw.length) ∨
        s.ph = .dataget ∨ (s.ph = .dataput ∧ n ≤ s.buf.length ∧ n ≤ s.padw.length)) := by
  rw [State.Requests, inReadPort_isSome, padReadPort_isSome, outWritePort_isSome, padWritePort_isSome,
    psReqPort_iff]
  constructor
  · rintro (⟨hp, n, hn⟩ | ⟨hp, ho, n, hn⟩ | ⟨hp, n, hn, hl⟩ | ⟨hp, ho, n, hn, hl⟩ | h)
    · exact .inr ⟨n, hn, .inr (.inr (.inl hp))⟩
    · exact .inr ⟨n, hn, .inl ⟨hp, ho⟩⟩
    · exact .inr ⟨n, hn, .inr (.inr (.inr ⟨hp, hl⟩))⟩
    · exact .inr ⟨n, hn, .inr (.inl ⟨hp, ho, hl⟩)⟩
    · exact .inl h
  · rintro (h | ⟨n, hn, ⟨hp, ho⟩ | ⟨hp, ho, hl⟩ | hp | ⟨hp, hl⟩⟩)
    · exact .inr (.inr (.inr (.inr h)))
    · exact .inr (.inl ⟨hp, ho, n, hn⟩)
    · exact .inr (.inr (.inr (.inl ⟨hp, ho, n, hn, hl⟩)))
    · exact .inl ⟨hp, n, hn⟩
    · exact .inr (.inr (.inl ⟨hp, n, hn, hl⟩))

theorem busy_of_requests {s : State} (h : s.Requests) : s.busy = true := by
  rw [busy_iff]
  rcases (requests_iff s).1 h with ⟨hp, -⟩ | ⟨_, -, ⟨hp, -⟩ | ⟨hp, -⟩ | hp | ⟨hp, -⟩⟩ <;> simp [hp]

/-- With nothing requested there is nothing to perform (R141). -/
theorem performRequested_of_not_requests {s : State} (h : ¬s.Requests) : performRequested s = s := by
  rw [requests_iff] at h
  unfold performRequested
  split
  next _ hp ho => exact absurd (.inl ⟨hp, ho⟩) h
  next n hp ho hn => exact absurd (.inr ⟨n, hn, .inl ⟨hp, ho⟩⟩) h
  next n hp ho hn =>
    cases hl : lanes s.padw n with
    | none => rfl
    | some v =>
      obtain ⟨hle, -⟩ := (lanes_eq_some _ _ _).1 hl
      exact absurd (.inr ⟨n, hn, .inr (.inl ⟨hp, ho, hle⟩)⟩) h
  next n hp hn => exact absurd (.inr ⟨n, hn, .inr (.inr (.inl hp))⟩) h
  next n hp hn =>
    cases hx : xdp s.buf s.padw n with
    | none => rfl
    | some x =>
      obtain ⟨hb, hl, -⟩ := (xdp_eq_some _ _ _ _).1 hx
      exact absurd (.inr ⟨n, hn, .inr (.inr (.inr ⟨hp, hb, hl⟩))⟩) h
  next => rfl

/-- What the other side performs is the transaction of the phase (R141). -/
theorem performed_performRequested {s : State} (h : s.Requests) : s.Performed (performRequested s) := by
  rcases (requests_iff s).1 h with ⟨hp, ho⟩ | ⟨n, hn, ⟨hp, ho⟩ | ⟨hp, ho, hl⟩ | hp | ⟨hp, hb, hl⟩⟩
  · have he : performRequested s = consumeAnswer s := by simp [performRequested, hp, ho]
    exact .inl ⟨hp, ho, by simp [he, State.OutsideIs]⟩
  · have he : performRequested s = consumePad n s := by simp [performRequested, hp, ho, hn]
    exact .inr ⟨n, hn, .inl ⟨hp, ho, he ▸ ⟨rfl, rfl, rfl, rfl, rfl⟩⟩⟩
  · have he : performRequested s = appendPad (s.padw.take n) s := by
      simp [performRequested, hp, ho, hn, lanes_of_le _ _ hl]
    exact .inr ⟨n, hn, .inr (.inl ⟨hp, ho, hl, he ▸ ⟨rfl, rfl, rfl, rfl, rfl⟩⟩)⟩
  · have he : performRequested s = consumeIn n s := by simp [performRequested, hp, hn]
    exact .inr ⟨n, hn, .inr (.inr (.inl ⟨hp, he ▸ ⟨rfl, rfl, rfl, rfl, rfl⟩⟩))⟩
  · have hx := xdp_of_le _ _ _ hb hl
    have he : performRequested s = appendOut (xorBytes (s.buf.take n) (s.padw.take n)) s := by
      simp [performRequested, hp, hn, hx]
    exact .inr ⟨n, hn, .inr (.inr (.inr ⟨hp, _, hx, he ▸ ⟨rfl, rfl, rfl, rfl, rfl⟩⟩))⟩

/-! ## Reset -/

/-- `rst` itself performs no transaction (R140): what was requested is performed, if it is, by the other side. -/
theorem reset_performed {s : State} (h : s.Requests) (hf : Config.resetPerforms s.free = true) :
    s.Performed (reset s) := by
  have he : reset s = setFree (s.free + 1) (resetBlock (performRequested s)) := by
    simp [reset, busy_of_requests h, hf]
  rw [he]
  exact performed_performRequested h

theorem reset_unperformed {s : State} (h : ¬s.Requests ∨ Config.resetPerforms s.free = false) :
    s.Unperformed (reset s) := by
  have he : reset s = setFree (s.free + 1) (resetBlock s) := by
    rcases h with h | h
    · simp only [reset, performRequested_of_not_requests h, ite_self]
    · simp [reset, h]
  rw [he]
  exact ⟨rfl, rfl, rfl, rfl, rfl⟩

/-- `rst` adds to the written bytes at most, and leaves the contents, the pins and the event history (R141). -/
theorem reset_keeps (s : State) :
    (reset s).inContent = s.inContent ∧ (reset s).padContent = s.padContent ∧ (reset s).cmd = s.cmd ∧
      (reset s).history = s.history ∧ s.outWritten <+: (reset s).outWritten ∧
      s.padWritten <+: (reset s).padWritten := by
  unfold reset
  cases s.busy && Config.resetPerforms s.free with
  | true =>
    obtain ⟨-, hin, hpad, hcmd, -, hhist, hout, hpw⟩ := performRequested_keeps s
    exact ⟨hin, hpad, hcmd, hhist, hout, hpw⟩
  | false => simp

/-- Settles O30: `IDLE` is silent on every channel, `reset_keeps` is the frame, and the free value decides between
`reset_performed` and `reset_unperformed`. -/
theorem resetAbandonsTheOperation : Obligations.ResetAbandonsTheOperation := by
  intro s rest hi
  obtain ⟨hin, hpr, hout, hpw, hps⟩ := ports_silent_of_ready (s := reset (setInputs rest s)) rfl
  obtain ⟨hic, hpc, hcmd, hhist, how, hpaw⟩ := reset_keeps (setInputs rest s)
  exact ⟨_, step_cons hi, rfl, rfl, rfl, rfl, hin, hpr, hout, hpw, hps, hic, hpc, hcmd, hhist, how, hpaw,
    reset_performed (s := setInputs rest s), reset_unperformed (s := setInputs rest s)⟩

end Sys2Proof.Machine
